-- ==== Sys2Proof/Word.lean ====
section
/-! DEFINITION. Word.lean: the word types of HTB (30_encoding.md R70, 00_scope.md R7, R9). -/

namespace Sys2Proof

/-- One command word: 16 bits (R70). -/
abbrev Word := BitVec 16

/-- One stored symbol: `SYM_W` = 8 bits (R7). -/
abbrev Byte := BitVec 8

end Sys2Proof
end

