-- ==== Sys2Proof/Syntax.lean ====
section
/-! DEFINITION. Syntax.lean: the nine commands of HTBCMD-1 (30_encoding.md R73), one constructor per row of
spec/opcode_table.json. The only operand any command carries is the 8-bit symbol of LDS (R72). -/

namespace Sys2Proof

/-- The commands of HTB (R73; R74: the list is complete). -/
inductive Instr where
  /-- `NOP`, 40_control.md R91. -/
  | nop
  /-- `CLEAR`, 40_control.md R92. -/
  | clear
  /-- `LDS imm`, 40_control.md R93; `imm` is the symbol, unsigned `0 .. 255` (R72). -/
  | lds (imm : Byte)
  /-- `SEQCLR`, 40_control.md R95. -/
  | seqclr
  /-- `COUNT`, 41_count.md R101. -/
  | count
  /-- `BUILD`, 42_build.md R114. -/
  | build
  /-- `DERIVE`, 43_derive.md R131. -/
  | derive
  /-- `PACK`, 44_pack.md R146. -/
  | pack
  /-- `ENCODE`, 45_encode.md R165. -/
  | encode
deriving DecidableEq, Repr

end Sys2Proof
end

