-- ==== Sys2Proof/Decode.lean ====
section
/-! DEFINITION. Decode.lean: the decoder of 30_encoding.md R75, total on all 65536 words; after it the encoder of the
same map (R73, R82) and the opcode table of R73 as data. -/

namespace Sys2Proof

/-- `word[15:12]`, the opcode (R71). -/
def opField (w : Word) : BitVec 4 := w.extractLsb' 12 4

/-- `word[11:8]`, reserved, must be zero (R71). -/
def rsvField (w : Word) : BitVec 4 := w.extractLsb' 8 4

/-- `word[7:0]`, the immediate (R71, R72). -/
def immField (w : Word) : Byte := w.extractLsb' 0 8

/-- The command with opcode `op` among those whose `imm` must be zero (R75, the last nine lines); `none` is Illegal. -/
def decodePlain (op : Nat) : Option Instr :=
  match op with
  | 0x0 => some .nop
  | 0x1 => some .clear
  | 0x3 => some .seqclr
  | 0x4 => some .count
  | 0x5 => some .build
  | 0x6 => some .derive
  | 0x7 => some .pack
  | 0x8 => some .encode
  | _   => none

/-- `decode(w)` of R75; `none` is `Illegal`. -/
def decodeWord (w : Word) : Option Instr :=
  if rsvField w ≠ 0#4 then none
  else if opField w = 0x2#4 then some (.lds (immField w))
  else if immField w ≠ 0#8 then none
  else decodePlain (opField w).toNat

/-- The opcode of a command (R73). -/
def opcode : Instr → BitVec 4
  | .nop    => 0x0#4
  | .clear  => 0x1#4
  | .lds _  => 0x2#4
  | .seqclr => 0x3#4
  | .count  => 0x4#4
  | .build  => 0x5#4
  | .derive => 0x6#4
  | .pack   => 0x7#4
  | .encode => 0x8#4

/-- The `imm` field of a command: the symbol for LDS, `0x00` for every other command (R71, R72). -/
def immOf : Instr → Byte
  | .nop     => 0x00#8
  | .clear   => 0x00#8
  | .lds imm => imm
  | .seqclr  => 0x00#8
  | .count   => 0x00#8
  | .build   => 0x00#8
  | .derive  => 0x00#8
  | .pack    => 0x00#8
  | .encode  => 0x00#8

/-- The word of a command: `op`, then `rsv` = 0, then `imm` (R71, R82). -/
def encode (i : Instr) : Word := opcode i ++ (0#4 ++ immOf i)

/-- One row of the opcode map of R73: a word `w` selects the command when `(w & mask) == match`. -/
structure OpcodeRow where
  mnemonic : String
  pattern  : Word
  mask     : Word
deriving DecidableEq, Repr

/-- Whether `w` selects the row. -/
def OpcodeRow.selects (r : OpcodeRow) (w : Word) : Bool := w &&& r.mask == r.pattern

/-- The row of R73 a command belongs to (its `match` is the field `pattern`). -/
def opcodeRow : Instr → OpcodeRow
  | .nop    => ⟨"NOP",    0x0000#16, 0xFFFF#16⟩
  | .clear  => ⟨"CLEAR",  0x1000#16, 0xFFFF#16⟩
  | .lds _  => ⟨"LDS",    0x2000#16, 0xFF00#16⟩
  | .seqclr => ⟨"SEQCLR", 0x3000#16, 0xFFFF#16⟩
  | .count  => ⟨"COUNT",  0x4000#16, 0xFFFF#16⟩
  | .build  => ⟨"BUILD",  0x5000#16, 0xFFFF#16⟩
  | .derive => ⟨"DERIVE", 0x6000#16, 0xFFFF#16⟩
  | .pack   => ⟨"PACK",   0x7000#16, 0xFFFF#16⟩
  | .encode => ⟨"ENCODE", 0x8000#16, 0xFFFF#16⟩

/-- The instruction the decoder reads from a word numbered as spec/opcode_table.json numbers it. Every command is one
16-bit word (R70, R77), so a value that does not fit 16 bits is no command. -/
def decodeTableWord (nbits w : Nat) : Option Instr :=
  let v := w % 2 ^ nbits
  if v < 2 ^ 16 then decodeWord (BitVec.ofNat 16 v) else none

end Sys2Proof
end

