-- ==== Sys2Proof/Config.lean ====
section
/-! DEFINITION. Config.lean: what one instance of HTB fixes at build time (00_scope.md R7, R8) and the one free value of
a run, the sink's answers (20_memory.md R60). The values derived from the parameters are in Machine/Params.lean. -/

namespace Sys2Proof

/-- The build-time parameters of one instance (R7, the rows marked "parameter"). They never change at run time (R8). -/
structure Params where
  /-- `A`, the alphabet size; legal symbols are `0 .. A-1`. -/
  alphabet : Nat
  /-- `W_LEN`, the width of the sequence length `N` and of a sequence index. -/
  wLen : Nat
deriving DecidableEq, Repr

/-- The default configuration of R7: `A` = 128, `W_LEN` = 32 (the one 95_test_vectors.md uses). -/
def Params.default : Params := { alphabet := 128, wLen := 32 }

/-- What the sink answers to one call (R58, R59). -/
inductive SinkAnswer where
  | ok
  | fail
deriving DecidableEq, Repr, Inhabited

/-- The two operations of the sink port (R58, R59). -/
inductive SinkCall where
  /-- `Sink.write_bit(b)`. -/
  | writeBit (b : Bool)
  /-- `Sink.flush()`. -/
  | flush
deriving DecidableEq, Repr

/-- One call on the sink port and the answer it got. -/
structure SinkEvent where
  call   : SinkCall
  answer : SinkAnswer
deriving DecidableEq, Repr

/-- The sink's answer to `call` after the calls of `history` (oldest first): an oracle that no rule of the engine
constrains (R60: "a function from the history of calls"). It has no body: nothing can be proved of its values.
Log entry 3. -/
opaque Config.sinkAnswer (history : List SinkEvent) (call : SinkCall) : SinkAnswer

end Sys2Proof
end

