-- ==== Sys2Proof/Machine/Params.lean ====
section
/-! DEFINITION. Machine/Params.lean: the numbers derived from the parameters (00_scope.md R7) and the W-bit unsigned add
of R104, R121, R158. -/

namespace Sys2Proof

/-- `ceil(log2(n))`, for `n >= 1`. -/
def ceilLog2 (n : Nat) : Nat := if n ≤ 1 then 0 else Nat.log2 (n - 1) + 1

/-- `N_MAX = 2^W_LEN - 1`, the capacity of the sequence memory. -/
def Params.nMax (p : Params) : Nat := 2 ^ p.wLen - 1

/-- `W_FREQ = W_LEN`, the width of a count and of a node weight. -/
def Params.wFreq (p : Params) : Nat := p.wLen

/-- `NIDX_W = ceil(log2(2*A))`, the width of a node index. -/
def Params.nidxW (p : Params) : Nat := ceilLog2 (2 * p.alphabet)

/-- `NONE = 2^NIDX_W - 1`, the node index that means "no node". -/
def Params.noNode (p : Params) : Nat := 2 ^ p.nidxW - 1

/-- `NODE_MAX = 2*A - 1`, the number of node slots. -/
def Params.nodeMax (p : Params) : Nat := 2 * p.alphabet - 1

/-- `MAXLEN = A - 1`, the largest possible code length. -/
def Params.maxLen (p : Params) : Nat := p.alphabet - 1

/-- `LEN_W = ceil(log2(A))`, the width of a code length. -/
def Params.lenW (p : Params) : Nat := ceilLog2 p.alphabet

/-- `W_BITS = W_LEN + 8`, the width of BITCNT. -/
def Params.wBits (p : Params) : Nat := p.wLen + 8

/-- Unsigned add in `w` bits. Log entry 8. -/
def addW (w a b : Nat) : Nat := (a + b) % 2 ^ w

end Sys2Proof
end

