-- ==== Sys2Proof/Machine/State.lean ====
section
/-! DEFINITION. Machine/State.lean: the whole state of the engine (10_state.md R20), beside it the instance's parameters
and the two ports' outside worlds as plain data (log entries 1, 3, 4, 5), and the state after reset (R46). -/

namespace Sys2Proof.Machine

/-- `STATUS.PHASE` (R26). The values 5 and 6 are never produced, so no constructor stands for them (U14). -/
inductive Phase where
  | load
  | counted
  | built
  | derived
  | done
  | fault
deriving DecidableEq, Repr

/-- `CAUSE` (R29, 60_exceptions.md R191). The value 7 is never produced. -/
inductive Cause where
  | none
  | symbolOutOfRange
  | symbolNotCoded
  | sinkFailure
  | seqOverflow
  | illegalCommand
  | illegalSequence
deriving DecidableEq, Repr

/-- The `kind` of a node (R37): 0 = Leaf, 1 = Internal. -/
inductive NodeKind where
  | leaf
  | internal
deriving DecidableEq, Repr

/-- One slot of NODE (R37). `left` and `right` hold a node index or `NONE`; `pbits` holds the path as
00_scope.md R10 lays a bit sequence out in an integer. -/
structure NodeRec where
  valid  : Bool
  kind   : NodeKind
  sym    : Byte
  freq   : Nat
  left   : Nat
  right  : Nat
  pvalid : Bool
  plen   : Nat
  pbits  : Nat
deriving DecidableEq, Repr

/-- One entry of CODE (R41): `len = 0` means "no entry"; the first-generated bit is `bits[len-1]`. -/
structure CodeEntry where
  len  : Nat
  bits : Nat
deriving DecidableEq, Repr

/-- A table addressed by entry (20_memory.md R51): the entries that differ from the table's default, by strictly rising
index. Log entry 10. -/
abbrev Tab (α : Type) := List (Nat × α)

/-- The sequence memory SEQ: one 8-bit symbol per index (R35). -/
abbrev Memory := List Host.Cell

/-- What the host can do to the engine between two commands: present one word on the command port (30_encoding.md R81),
or apply hardware reset (70_reset_and_hazards.md R215, R216). -/
inductive HostInput where
  | word (w : Word)
  | reset
deriving DecidableEq, Repr

/-- The state of one instance. -/
structure State where
  /-- The instance's parameters: not state by R20, and never changed. Log entry 1. -/
  cfg    : Params
  /-- `STATUS.PHASE` (R26). -/
  phase  : Phase
  /-- `STATUS.EMPTY` (R27). -/
  empty  : Bool
  /-- `STATUS.INDEP` (R28). -/
  indep  : Bool
  /-- `CAUSE` (R29). -/
  cause  : Cause
  /-- `FIDX` (R30). -/
  fidx   : Nat
  /-- `FINFO` (R31). -/
  finfo  : Word
  /-- `NSYM`, the number of symbols in SEQ (R24). -/
  nsym   : Nat
  /-- `NLEAF` (R32). -/
  nleaf  : Nat
  /-- `NNODE` (R32). -/
  nnode  : Nat
  /-- `ROOT`, a node index or `NONE` (R33). -/
  root   : Nat
  /-- `PQCNT` (R34). -/
  pqcnt  : Nat
  /-- `BITCNT` (R24, R150). -/
  bitcnt : Nat
  /-- SEQ (R35). -/
  seq    : Memory
  /-- FREQ (R36). -/
  freq   : Tab Nat
  /-- NODE (R37 to R39). -/
  node   : Tab NodeRec
  /-- PQ, a set of node indices written as a strictly rising list (R40). Log entry 9. -/
  pq     : List Nat
  /-- CODE (R41, R42). -/
  code   : Tab CodeEntry
  /-- `SCOPE`, hidden (R43). -/
  scope  : Bool
  /-- The model's own: the sink's answers already fixed, next first (R60). Log entry 3. -/
  plan   : List SinkAnswer
  /-- The model's own: the calls the sink has received, oldest first. Log entry 4. -/
  log    : List SinkEvent
  /-- The model's own: what the host presents from now on, next first. Log entry 5. -/
  host   : List HostInput
deriving DecidableEq, Repr

/-- Reasons for which a step of this model stops with a fault: none. HTB's own faults are a phase of the machine
(60_exceptions.md R190, R196), so each is a NEXT state, entered by `raise`; no rule gives a command that stops the
engine. Nobody raises one. Safe. Log entry 15. -/
inductive Fault : Type
deriving DecidableEq, Repr

/-- Reasons for which a step of this model is refused. -/
inductive Refusal where
  /-- The command has no meaning yet: raised only by an arm of `exec` that is not written. No arm is. Safe. -/
  | notModelled (mnemonic : String)
deriving DecidableEq, Repr

/-- The reset state of R46 for an instance with parameters `p`. SEQ is unspecified and unobservable there; the model
lists nothing (log entry 2). -/
def State.resetOf (p : Params) : State where
  cfg    := p
  phase  := .load
  empty  := false
  indep  := false
  cause  := .none
  fidx   := 0
  finfo  := 0#16
  nsym   := 0
  nleaf  := 0
  nnode  := 0
  root   := p.noNode
  pqcnt  := 0
  bitcnt := 0
  seq    := []
  freq   := []
  node   := []
  pq     := []
  code   := []
  scope  := false
  plan   := []
  log    := []
  host   := []

/-- The machine right after reset (R215), in the default configuration (R7). -/
def State.reset : State := State.resetOf Params.default

end Sys2Proof.Machine
end

