-- ==== Sys2Proof/Machine/Table.lean ====
section
/-! DEFINITION. Machine/Table.lean: tables addressed by entry (20_memory.md R50, R51, R54) in one canonical form: strictly
rising indices, and no entry equal to what an unlisted index reads as. The sequence memory SEQ is the table of bytes. -/

namespace Sys2Proof.Machine

/-- The entry at index `a`; `d` is what an unlisted index reads as. -/
def tabGet {α : Type} (d : α) : Tab α → Nat → α
  | [],          _ => d
  | (k, v) :: t, a => if k = a then v else tabGet d t a

/-- The table without its entry at `a`. -/
def tabErase {α : Type} (a : Nat) : Tab α → Tab α
  | []          => []
  | (k, v) :: t => if k = a then tabErase a t else (k, v) :: tabErase a t

/-- The table with an entry for `a`, at its place by rising index. -/
def tabInsert {α : Type} (a : Nat) (v : α) : Tab α → Tab α
  | []          => [(a, v)]
  | (k, w) :: t => if a < k then (a, v) :: (k, w) :: t else (k, w) :: tabInsert a v t

/-- Write `v` at index `a`: writing the default removes the entry, so that equal tables are equal data. -/
def tabSet {α : Type} [DecidableEq α] (d : α) (t : Tab α) (a : Nat) (v : α) : Tab α :=
  if v = d then tabErase a t else tabInsert a v (tabErase a t)

/-- The canonical form. -/
abbrev tabWf {α : Type} (d : α) (t : Tab α) : Prop :=
  t.Pairwise (fun x y => x.1 < y.1) ∧ ∀ e ∈ t, e.2 ≠ d

/-- What a byte of SEQ that nothing has written reads as. R46 leaves it unspecified, and no rule reads such a byte (R52,
R56). Log entry 2. -/
def unwrittenByte : Byte := 0#8

/-- The byte of SEQ at index `a`. -/
def Memory.read (m : Memory) (a : Nat) : Byte := tabGet unwrittenByte m a

/-- SEQ with `v` stored at index `a`. -/
def Memory.write (m : Memory) (a : Nat) (v : Byte) : Memory := tabSet unwrittenByte m a v

/-- SEQ is in canonical form. -/
abbrev Memory.wf (m : Memory) : Prop := tabWf unwrittenByte m

end Sys2Proof.Machine
end

