-- ==== Sys2Proof/Machine/Operands.lean ====
section
/-! DEFINITION. Machine/Operands.lean: the one operand form of HTB (30_encoding.md R72), zero extension (00_scope.md R9),
and the layout of a bit sequence in an integer field (R10). -/

namespace Sys2Proof.Machine

/-- The symbol LDS stores: `word[7:0]`, "with no extension, scaling or shift" (R72). -/
def ldsSymbol (imm : Byte) : Byte := imm

/-- `zext_16(v)` of a symbol (R9, R31). -/
def zext16 (v : Byte) : Word := v.setWidth 16

/-- A bit sequence as the integer of R10: element `i` of a sequence of length `n` is bit `n-1-i`. -/
def packBits (p : List Bool) : Nat := p.foldl (fun n b => 2 * n + b.toNat) 0

/-- The bit sequence of length `len` that R10 lays out in `bits`: element `i` is bit `len-1-i`. -/
def unpackBits (len bits : Nat) : List Bool := (List.range len).map fun i => bits.testBit (len - 1 - i)

end Sys2Proof.Machine
end

