-- ==== Sys2Proof/Machine/Flags.lean ====
section
/-! DEFINITION. Machine/Flags.lean: the fields of STATUS (10_state.md R25 to R28) and the codes of PHASE (R26) and
CAUSE (R29). HTB has no arithmetic condition codes (R25). -/

namespace Sys2Proof.Machine

/-- The value of `STATUS[2:0]` (R26). -/
def Phase.code : Phase → BitVec 3
  | .load    => 0#3
  | .counted => 1#3
  | .built   => 2#3
  | .derived => 3#3
  | .done    => 4#3
  | .fault   => 7#3

/-- The value of CAUSE (R29, R191). -/
def Cause.code : Cause → BitVec 3
  | .none             => 0#3
  | .symbolOutOfRange => 1#3
  | .symbolNotCoded   => 2#3
  | .sinkFailure      => 3#3
  | .seqOverflow      => 4#3
  | .illegalCommand   => 5#3
  | .illegalSequence  => 6#3

/-- The `kind` bit of a node (R37): 0 = Leaf, 1 = Internal. -/
def NodeKind.code : NodeKind → BitVec 1
  | .leaf     => 0#1
  | .internal => 1#1

/-- The 16-bit STATUS register (R25): PHASE in bits 2:0, EMPTY in bit 3, INDEP in bit 4, bits 15:5 zero. -/
def statusWord (s : State) : Word :=
  0#11 ++ (BitVec.ofBool s.indep ++ (BitVec.ofBool s.empty ++ s.phase.code))

/-- EMPTY as COUNT writes it: `N == 0` (R27, R101). -/
def emptyFlag (n : Nat) : Bool := n == 0

/-- INDEP after LDS: set in DERIVED, else unchanged (R28, R93). -/
def indepAfterLds (ph : Phase) (old : Bool) : Bool :=
  match ph with
  | .derived => true
  | .load | .counted | .built | .done | .fault => old

/-- INDEP after SEQCLR: set in DERIVED and DONE, else unchanged (R28, R95). -/
def indepAfterSeqclr (ph : Phase) (old : Bool) : Bool :=
  match ph with
  | .derived | .done => true
  | .load | .counted | .built | .fault => old

/-- PHASE after SEQCLR: DONE goes back to DERIVED, else unchanged (R26, R95). -/
def phaseAfterSeqclr (ph : Phase) : Phase :=
  match ph with
  | .done    => .derived
  | .load    => .load
  | .counted => .counted
  | .built   => .built
  | .derived => .derived
  | .fault   => .fault

end Sys2Proof.Machine
end

