-- ==== Sys2Proof/Machine/Ops.lean ====
section
/-! DEFINITION. Machine/Ops.lean: the primitives of 00_scope.md R11 over the state: reads and writes of the tables, the
priority collection, the sink port, fault entry and its return, and the phase check every command passes first. -/

namespace Sys2Proof.Machine

/-! ## Tables -/

/-- `MemRead(SEQ, i)` (R52). -/
def seqAt (s : State) (i : Nat) : Byte := Memory.read s.seq i

/-- `MemWrite(SEQ, i, v)` (R53). -/
def seqWrite (i : Nat) (v : Byte) (s : State) : State := { s with seq := Memory.write s.seq i v }

/-- `FREQ[v]` (R36). -/
def freqAt (s : State) (v : Nat) : Nat := tabGet 0 s.freq v

/-- `FREQ[v] <- n`. -/
def freqWrite (v n : Nat) (s : State) : State := { s with freq := tabSet 0 s.freq v n }

/-- A slot of NODE that holds no node (R37, R46). -/
def unusedSlot (p : Params) : NodeRec where
  valid  := false
  kind   := .leaf
  sym    := 0#8
  freq   := 0
  left   := p.noNode
  right  := p.noNode
  pvalid := false
  plen   := 0
  pbits  := 0

/-- `NODE[k]` (R37). -/
def nodeAt (s : State) (k : Nat) : NodeRec := tabGet (unusedSlot s.cfg) s.node k

/-- `NODE[k] <- r`. -/
def nodeWrite (k : Nat) (r : NodeRec) (s : State) : State :=
  { s with node := tabSet (unusedSlot s.cfg) s.node k r }

/-- The CODE entry that means "no entry" (R41). -/
def noCode : CodeEntry := { len := 0, bits := 0 }

/-- `CODE[v]` (R41). -/
def codeAt (s : State) (v : Nat) : CodeEntry := tabGet noCode s.code v

/-- `CODE[v] <- e`. -/
def codeWrite (v : Nat) (e : CodeEntry) (s : State) : State := { s with code := tabSet noCode s.code v e }

/-- `PHASE <- ph`. -/
def setPhase (ph : Phase) (s : State) : State := { s with phase := ph }

/-! ## The priority collection (42_build.md R111 to R113) -/

/-- The set with `k` added, as a strictly rising list. -/
def insertIndex (k : Nat) : List Nat → List Nat
  | []      => [k]
  | j :: js => if k < j then k :: j :: js else if k = j then j :: js else j :: insertIndex k js

/-- `PQ.insert(k)`: adds `k` and increments PQCNT (R111). -/
def pqInsert (k : Nat) (s : State) : State := { s with pq := insertIndex k s.pq, pqcnt := s.pqcnt + 1 }

/-- Member `j` is before member `k`: smaller frequency, or equal frequency and smaller index (R112). -/
def before (s : State) (j k : Nat) : Bool :=
  (nodeAt s j).freq < (nodeAt s k).freq || ((nodeAt s j).freq == (nodeAt s k).freq && j < k)

/-- The member `PQ.extract_min()` returns: the one before every other (R113). It is never called on an empty PQ; the
answer there is `NONE` (log entry 9). -/
def pqMin (s : State) : Nat :=
  match s.pq with
  | []      => s.cfg.noNode
  | k :: ks => ks.foldl (fun m j => if before s j m then j else m) k

/-- What `PQ.extract_min()` does to the state once it has found `k`: removes it and decrements PQCNT (R113). -/
def pqRemove (k : Nat) (s : State) : State := { s with pq := s.pq.erase k, pqcnt := s.pqcnt - 1 }

/-! ## The sink port (20_memory.md R58 to R61) -/

/-- The answer to the call `c` made now: the next one already fixed, else the oracle's (R60). Log entry 3. -/
def sinkAnswer (s : State) (c : SinkCall) : SinkAnswer :=
  match s.plan with
  | a :: _ => a
  | []     => Config.sinkAnswer s.log c

/-- The state after the call `c` has been made and answered. -/
def sinkCall (c : SinkCall) (s : State) : State :=
  { s with plan := s.plan.tail, log := s.log ++ [{ call := c, answer := sinkAnswer s c }] }

/-! ## Faults: entry and return (60_exceptions.md R196, R200), reset (10_state.md R46) -/

/-- `raise <Cause>(idx, info)`: fault entry (R196). -/
def raise (c : Cause) (idx : Nat) (info : Word) (s : State) : State :=
  { s with cause := c, fidx := idx, finfo := info, phase := .fault }

/-- Every piece of the engine's state at its reset value, SEQ entries not rewritten (R46, R92, R215). The sink and the
host are not reset (R218). It is the only way out of phase FAULT (R200). Log entry 2. -/
def resetEngine (s : State) : State :=
  { State.resetOf s.cfg with seq := s.seq, plan := s.plan, log := s.log, host := s.host }

/-! ## The checks before a command (30_encoding.md R76 to R80) -/

/-- The entries of the table of R78. -/
inductive Legality where
  /-- The command executes. -/
  | ok
  /-- The fault IllegalSequence. -/
  | seq
  /-- Ignored: no state changes at all. -/
  | ign
deriving DecidableEq, Repr

/-- The table of R78. -/
def legality : Instr → Phase → Legality
  | .nop, .load => .ok
  | .nop, .counted => .ok
  | .nop, .built => .ok
  | .nop, .derived => .ok
  | .nop, .done => .ok
  | .nop, .fault => .ok
  | .clear, .load => .ok
  | .clear, .counted => .ok
  | .clear, .built => .ok
  | .clear, .derived => .ok
  | .clear, .done => .ok
  | .clear, .fault => .ok
  | .lds _, .load => .ok
  | .lds _, .counted => .seq
  | .lds _, .built => .seq
  | .lds _, .derived => .ok
  | .lds _, .done => .seq
  | .lds _, .fault => .ign
  | .seqclr, .load => .ok
  | .seqclr, .counted => .seq
  | .seqclr, .built => .seq
  | .seqclr, .derived => .ok
  | .seqclr, .done => .ok
  | .seqclr, .fault => .ign
  | .count, .load => .ok
  | .count, .counted => .seq
  | .count, .built => .seq
  | .count, .derived => .seq
  | .count, .done => .seq
  | .count, .fault => .ign
  | .build, .load => .seq
  | .build, .counted => .ok
  | .build, .built => .seq
  | .build, .derived => .seq
  | .build, .done => .seq
  | .build, .fault => .ign
  | .derive, .load => .seq
  | .derive, .counted => .seq
  | .derive, .built => .ok
  | .derive, .derived => .seq
  | .derive, .done => .seq
  | .derive, .fault => .ign
  | .pack, .load => .seq
  | .pack, .counted => .seq
  | .pack, .built => .seq
  | .pack, .derived => .ok
  | .pack, .done => .seq
  | .pack, .fault => .ign
  | .encode, .load => .ok
  | .encode, .counted => .seq
  | .encode, .built => .seq
  | .encode, .derived => .seq
  | .encode, .done => .seq
  | .encode, .fault => .ign

/-- A decoded command presented to the engine (R79, steps 1, 3 and 4): it executes, raises IllegalSequence with the
command's own word (R195; log entry 14), or is ignored (R80). -/
def issue (i : Instr) (body : State → State) (s : State) : State :=
  match legality i s.phase with
  | .ok  => body s
  | .seq => raise .illegalSequence 0 (encode i) s
  | .ign => s

/-- A word that decodes to Illegal presented to the engine (R79, steps 1 and 2): ignored in FAULT (R80), else
IllegalCommand with the word (R76, R194). -/
def illegalWord (w : Word) (s : State) : State :=
  if s.phase = .fault then s else raise .illegalCommand 0 w s

end Sys2Proof.Machine
end

