-- ==== Sys2Proof/Machine/Control.lean ====
section
/-! DEFINITION. Machine/Control.lean: NOP, CLEAR, LDS, SEQCLR (40_control.md R91 to R95). -/

namespace Sys2Proof.Machine

/-- The pseudocode of NOP: nothing (R91). -/
def nopBody (s : State) : State := s

/-- The pseudocode of CLEAR (R92). -/
def clearBody (s : State) : State := resetEngine s

/-- The four lines of LDS that store the symbol (R93). -/
def appendSymbol (imm : Byte) (s : State) : State :=
  { seqWrite s.nsym (ldsSymbol imm) s with
      nsym := addW s.cfg.wLen s.nsym 1, indep := indepAfterLds s.phase s.indep }

/-- The pseudocode of LDS (R93, R94). -/
def ldsBody (imm : Byte) (s : State) : State :=
  if s.nsym = s.cfg.nMax then
    raise .seqOverflow s.cfg.nMax (encode (.lds imm)) s
  else
    appendSymbol imm s

/-- The pseudocode of SEQCLR (R95). -/
def seqclrBody (s : State) : State :=
  { s with nsym := 0, indep := indepAfterSeqclr s.phase s.indep, phase := phaseAfterSeqclr s.phase }

/-- NOP (R91). -/
def execNop (s : State) : Host.Outcome State Fault Refusal := .next (issue .nop nopBody s)

/-- CLEAR (R92). -/
def execClear (s : State) : Host.Outcome State Fault Refusal := .next (issue .clear clearBody s)

/-- LDS (R93). -/
def execLds (imm : Byte) (s : State) : Host.Outcome State Fault Refusal :=
  .next (issue (.lds imm) (ldsBody imm) s)

/-- SEQCLR (R95). -/
def execSeqclr (s : State) : Host.Outcome State Fault Refusal := .next (issue .seqclr seqclrBody s)

end Sys2Proof.Machine
end

