-- ==== Sys2Proof/Machine/Build.lean ====
section
/-! DEFINITION. Machine/Build.lean: BUILD, the priority-queue merge engine (42_build.md R110 to R124). -/

namespace Sys2Proof.Machine

/-- A new leaf (R114, seeding). -/
def leafRec (p : Params) (v freq : Nat) : NodeRec where
  valid  := true
  kind   := .leaf
  sym    := BitVec.ofNat 8 v
  freq   := freq
  left   := p.noNode
  right  := p.noNode
  pvalid := false
  plen   := 0
  pbits  := 0

/-- A new internal node (R114, merging). -/
def internalRec (freq left right : Nat) : NodeRec where
  valid  := true
  kind   := .internal
  sym    := 0#8
  freq   := freq
  left   := left
  right  := right
  pvalid := false
  plen   := 0
  pbits  := 0

/-- `k <- NNODE; NODE[k] <- r; PQ.insert(k); NNODE <- k + 1` (R114). -/
def newNode (r : NodeRec) (s : State) : State :=
  { pqInsert s.nnode (nodeWrite s.nnode r s) with nnode := s.nnode + 1 }

/-- One pass of the seeding loop (R114, R115). -/
def seedSymbol (s : State) (v : Nat) : State :=
  if 0 < freqAt s v then newNode (leafRec s.cfg v (freqAt s v)) s else s

/-- `CSR.NNODE <- 0; PQ <- empty; CSR.PQCNT <- 0` (R114). -/
def startBuild (s : State) : State := { s with nnode := 0, pq := [], pqcnt := 0 }

/-- `CSR.NLEAF <- CSR.NNODE` (R114). -/
def countLeaves (s : State) : State := { s with nleaf := s.nnode }

/-- The seeding loop over the symbols in ascending order (R115). -/
def seedLoop (s : State) : State :=
  (List.range s.cfg.alphabet).foldl seedSymbol (startBuild s)

/-- One pass of the merge loop (R114, R116): `x` is removed first, then `y`; the new node's left child is `y` and its
right child is `x`. -/
def mergeOnce (s : State) : State :=
  let x  := pqMin s
  let s₁ := pqRemove x s
  let y  := pqMin s₁
  let s₂ := pqRemove y s₁
  newNode (internalRec (addW s.cfg.wFreq (nodeAt s₂ x).freq (nodeAt s₂ y).freq) y x) s₂

/-- The merge loop (R114), with at most `n` passes. -/
def mergeLoop : Nat → State → State
  | 0,     s => s
  | n + 1, s => if 1 < s.pqcnt then mergeLoop n (mergeOnce s) else s

/-- The last lines of R114: ROOT is the sole member of PQ, or `NONE`. -/
def buildResult (s : State) : State :=
  { s with root := if s.pqcnt = 1 then s.pq.headD s.cfg.noNode else s.cfg.noNode, phase := .built }

/-- The pseudocode of BUILD (R114). `A` passes of the merge loop are enough (R120). -/
def buildBody (s : State) : State :=
  buildResult (mergeLoop s.cfg.alphabet (countLeaves (seedLoop s)))

/-- BUILD (R114). -/
def execBuild (s : State) : Host.Outcome State Fault Refusal := .next (issue .build buildBody s)

end Sys2Proof.Machine
end

