-- ==== Sys2Proof/Machine/Count.lean ====
section
/-! DEFINITION. Machine/Count.lean: COUNT (41_count.md R100 to R106). -/

namespace Sys2Proof.Machine

/-- `FREQ[s] <- 0` for every `s` (R101). -/
def clearFreq (s : State) : State := { s with freq := [] }

/-- The last two lines of R101. -/
def countDone (s : State) : State := { s with empty := emptyFlag s.nsym, phase := .counted }

/-- The while loop of R101 from index `i` with `n` symbols left, and the lines after it. The first symbol `>= A` raises
SymbolOutOfRange (R102) and leaves FREQ as counted so far (R105). -/
def countLoop : Nat → Nat → State → State
  | 0,     _, s => countDone s
  | n + 1, i, s =>
    if s.cfg.alphabet ≤ (seqAt s i).toNat then
      raise .symbolOutOfRange i (zext16 (seqAt s i)) s
    else
      countLoop n (i + 1)
        (freqWrite (seqAt s i).toNat (addW s.cfg.wFreq (freqAt s (seqAt s i).toNat) 1) s)

/-- The pseudocode of COUNT (R101). -/
def countBody (s : State) : State := countLoop s.nsym 0 (clearFreq s)

/-- COUNT (R101). -/
def execCount (s : State) : Host.Outcome State Fault Refusal := .next (issue .count countBody s)

end Sys2Proof.Machine
end

