-- ==== Sys2Proof/Machine/Derive.lean ====
section
/-! DEFINITION. Machine/Derive.lean: DERIVE (43_derive.md R130 to R140). -/

namespace Sys2Proof.Machine

/-- `set_path(k, p)` (R131). -/
def setPath (k : Nat) (p : List Bool) (s : State) : State :=
  nodeWrite k { nodeAt s k with pvalid := true, plen := p.length, pbits := packBits p } s

/-- The CODE entry of a leaf reached by path `p` (R131). -/
def codeOfPath (p : List Bool) : CodeEntry := { len := p.length, bits := packBits p }

/-- `visit(k, p)` (R131), left before right (R134), down to `n` levels: NNODE levels are enough in a tree (R139; log
entry 7). -/
def visit : Nat → Nat → List Bool → State → State
  | 0,     _, _, s => s
  | n + 1, k, p, s =>
    match (nodeAt s k).kind with
    | .leaf     => codeWrite (nodeAt s k).sym.toNat (codeOfPath p) (setPath k p s)
    | .internal =>
      visit n (nodeAt s k).right (p ++ [true])
        (visit n (nodeAt s k).left (p ++ [false]) (setPath k p s))

/-- `CODE[s] <- (len=0, bits=0)` for every `s` (R131). -/
def clearCode (s : State) : State := { s with code := [] }

/-- The lone symbol's forced one-bit code `"0"` (R135). -/
def loneCode : CodeEntry := { len := 1, bits := 0 }

/-- The body of R131 between clearing CODE and the move of PHASE: no tree (R136), a lone leaf (R135), a tree. -/
def deriveWalk (s : State) : State :=
  if s.root = s.cfg.noNode then s
  else
    match (nodeAt s s.root).kind with
    | .leaf     => codeWrite (nodeAt s s.root).sym.toNat loneCode (setPath s.root [] s)
    | .internal => visit s.nnode s.root [] s

/-- The pseudocode of DERIVE (R131). -/
def deriveBody (s : State) : State := setPhase .derived (deriveWalk (clearCode s))

/-- DERIVE (R131). -/
def execDerive (s : State) : Host.Outcome State Fault Refusal := .next (issue .derive deriveBody s)

end Sys2Proof.Machine
end

