-- ==== Sys2Proof/Machine/Pack.lean ====
section
/-! DEFINITION. Machine/Pack.lean: PACK (44_pack.md R145 to R160). -/

namespace Sys2Proof.Machine

/-- The error PACK carries to its end (`err` of R146). -/
structure PackError where
  cause : Cause
  idx   : Nat
  info  : Word
deriving DecidableEq, Repr

/-- BITCNT + 1 (R150, R158). -/
def countBit (s : State) : State := { s with bitcnt := addW s.cfg.wBits s.bitcnt 1 }

/-- The inner loop of R146: the bits `j-1` down to 0 of a code, one `write_bit` each, until one fails. Answers `fail`
when one failed. -/
def emitBits (bits : Nat) : Nat → State → SinkAnswer × State
  | 0,     s => (.ok, s)
  | j + 1, s =>
    match sinkAnswer s (.writeBit (bits.testBit j)) with
    | .ok   => emitBits bits j (countBit (sinkCall (.writeBit (bits.testBit j)) s))
    | .fail => (.fail, sinkCall (.writeBit (bits.testBit j)) s)

/-- The outer loop of R146 from index `i` with `n` symbols left, and `err` at its end (R148, R149, R151). -/
def packLoop : Nat → Nat → State → Option PackError × State
  | 0,     _, s => (none, s)
  | n + 1, i, s =>
    if s.cfg.alphabet ≤ (seqAt s i).toNat then
      (some { cause := .symbolOutOfRange, idx := i, info := zext16 (seqAt s i) }, s)
    else if (codeAt s (seqAt s i).toNat).len = 0 then
      (some { cause := .symbolNotCoded, idx := i, info := zext16 (seqAt s i) }, s)
    else
      match emitBits (codeAt s (seqAt s i).toNat).bits (codeAt s (seqAt s i).toNat).len s with
      | (.ok, s')   => packLoop n (i + 1) s'
      | (.fail, s') => (some { cause := .sinkFailure, idx := i, info := 0#16 }, s')

/-- `SCOPE <- 1; CSR.BITCNT <- 0` (R146). -/
def openScope (s : State) : State := { s with scope := true, bitcnt := 0 }

/-- `SCOPE <- 0` (R43). -/
def closeScope (s : State) : State := { s with scope := false }

/-- The last three lines of R146, after `Sink.flush()` answered `r`. -/
def packEnd (err : Option PackError) (r : SinkAnswer) (s : State) : State :=
  match err, r with
  | some e, _     => raise e.cause e.idx e.info s
  | none,   .fail => raise .sinkFailure s.nsym 0#16 s
  | none,   .ok   => setPhase .done s

/-- The flush every started PACK makes once, after its last bit (R152), and the end of the sink scope (R43). -/
def packFlush (err : Option PackError) (s : State) : State :=
  packEnd err (sinkAnswer s .flush) (closeScope (sinkCall .flush s))

/-- The pseudocode of PACK (R146). -/
def packBody (s : State) : State :=
  let r := packLoop s.nsym 0 (openScope s)
  packFlush r.1 r.2

/-- PACK (R146). -/
def execPack (s : State) : Host.Outcome State Fault Refusal := .next (issue .pack packBody s)

end Sys2Proof.Machine
end

