-- ==== Sys2Proof/Machine/Encode.lean ====
section
/-! DEFINITION. Machine/Encode.lean: ENCODE (45_encode.md R165 to R168). -/

namespace Sys2Proof.Machine

/-- The pseudocode of ENCODE (R165): the four stages in a row, stopping after a fault of COUNT. BUILD and DERIVE raise
none (R122, R139). -/
def encodeBody (s : State) : State :=
  let s₁ := countBody s
  if s₁.phase = .fault then s₁ else packBody (deriveBody (buildBody s₁))

/-- ENCODE (R165). -/
def execEncode (s : State) : Host.Outcome State Fault Refusal := .next (issue .encode encodeBody s)

end Sys2Proof.Machine
end

