-- ==== Sys2Proof/Machine/Port.lean ====
section
/-! DEFINITION. Machine/Port.lean: what the host does at the engine's ports beside presenting a command: hardware reset
(70_reset_and_hazards.md R215) and the read port (20_memory.md R55 to R57). -/

namespace Sys2Proof.Machine

/-- Hardware reset between two commands (R215): the same state as CLEAR leaves (R216). Log entry 6. -/
def hardReset (s : State) : State := resetEngine s

/-- The command word with the bits `w` numbers (bit 0 the least significant), zero above `nbits`. -/
def tableWord (nbits w : Nat) : Word := BitVec.ofNat 16 (w % 2 ^ nbits)

/-- What `RD(space, index)` returns: "the whole entry as a typed record" (R55). -/
inductive ReadRecord where
  /-- Space 0: a register's value zero-extended to 64 bits. -/
  | csr (v : BitVec 64)
  /-- Space 1: a symbol of SEQ. -/
  | seq (v : Byte)
  /-- Space 2: a count of FREQ. -/
  | freq (v : Nat)
  /-- Space 3: a node record. -/
  | node (r : NodeRec)
  /-- Space 4: a code. -/
  | code (e : CodeEntry)
  /-- Spaces 5 to 15, which have no type: the all-zero record (R56). Log entry 11. -/
  | reserved
deriving DecidableEq, Repr

/-- The control and status register with number `n` (10_state.md R23). Numbers 10 and up read as zero (R56). -/
def csrRead (s : State) (n : Nat) : BitVec 64 :=
  match n with
  | 0 => (statusWord s).setWidth 64
  | 1 => s.cause.code.setWidth 64
  | 2 => BitVec.ofNat 64 s.fidx
  | 3 => s.finfo.setWidth 64
  | 4 => BitVec.ofNat 64 s.nsym
  | 5 => BitVec.ofNat 64 s.nleaf
  | 6 => BitVec.ofNat 64 s.nnode
  | 7 => BitVec.ofNat 64 s.root
  | 8 => BitVec.ofNat 64 s.pqcnt
  | 9 => BitVec.ofNat 64 s.bitcnt
  | _ => 0#64

/-- The all-zero node record, `left` and `right` included: it differs from an unused slot (R56). -/
def zeroNode : NodeRec where
  valid  := false
  kind   := .leaf
  sym    := 0#8
  freq   := 0
  left   := 0
  right  := 0
  pvalid := false
  plen   := 0
  pbits  := 0

/-- `RD(space, index)` (R55 to R57): it reads a state between two commands and changes none. -/
def State.rd (s : State) (space : BitVec 4) (index : Nat) : ReadRecord :=
  match space.toNat with
  | 0 => .csr (csrRead s index)
  | 1 => .seq (if index < s.nsym then seqAt s index else 0#8)
  | 2 => .freq (if index < s.cfg.alphabet then freqAt s index else 0)
  | 3 => .node (if index < s.cfg.nodeMax then nodeAt s index else zeroNode)
  | 4 => .code (if index < s.cfg.alphabet then codeAt s index else noCode)
  | _ => .reserved

end Sys2Proof.Machine
end

