-- ==== Sys2Proof/Machine/Step.lean ====
section
/-! DEFINITION. Machine/Step.lean: one step of the machine: what the host does next (30_encoding.md R79, R81;
70_reset_and_hazards.md R215, R216). -/

namespace Sys2Proof.Machine

/-- One word presented on the command port (R79). -/
def present (w : Word) (s : State) : Host.Outcome State Fault Refusal :=
  match decodeWord w with
  | some i => exec i s
  | none   => .next (illegalWord w s)

/-- One step: the host's next input, taken off `host`. With nothing presented the engine waits (R215; log entry 5). -/
def step (s : State) : Host.Outcome State Fault Refusal :=
  match s.host with
  | []             => .next s
  | .word w :: hs  => present w { s with host := hs }
  | .reset  :: hs  => .next (hardReset { s with host := hs })

/-- `s` with the host presenting next the word that spec/opcode_table.json numbers `w`. -/
def State.withFetchWord (s : State) (nbits w : Nat) : State :=
  { s with host := .word (tableWord nbits w) :: s.host }

end Sys2Proof.Machine
end

