-- ==== Sys2Proof/Machine/Asm.lean ====
section
/-! DEFINITION. Machine/Asm.lean: the script syntax and the pseudo-commands of 30_encoding.md R82, R83. It is the host's
side of the command port: no step of the engine uses it. Log entry 17. -/

namespace Sys2Proof.Machine

/-- `LDSTR "c1c2...cn"` and `LDBYTES v1, ..., vn`: one LDS per byte, in order (R83). -/
def ldsAll (bytes : List Byte) : List Instr := bytes.map Instr.lds

/-- Leading blanks dropped. -/
def skipBlanks : List Char → List Char
  | []      => []
  | c :: cs => if c = ' ' ∨ c = '\t' then skipBlanks cs else c :: cs

/-- What may stand after a command: nothing, or a `;` comment to the end of the line (R82). -/
def endOfLine (cs : List Char) : Bool :=
  match skipBlanks cs with
  | []     => true
  | c :: _ => c == ';'

/-- `cs` without the leading characters `w`. -/
def dropWord : List Char → List Char → Option (List Char)
  | [],      cs      => some cs
  | _ :: _,  []      => none
  | w :: ws, c :: cs => if w = c then dropWord ws cs else none

/-- The value of one digit in `base`. -/
def digitValue (base : Nat) (c : Char) : Option Nat :=
  let v := if '0' ≤ c ∧ c ≤ '9' then c.toNat - '0'.toNat
           else if 'a' ≤ c ∧ c ≤ 'f' then c.toNat - 'a'.toNat + 10
           else if 'A' ≤ c ∧ c ≤ 'F' then c.toNat - 'A'.toNat + 10
           else base
  if v < base then some v else none

/-- The digits that follow, added to `acc`, and the rest. -/
def moreDigits (base : Nat) : Nat → List Char → Nat × List Char
  | acc, []      => (acc, [])
  | acc, c :: cs =>
    match digitValue base c with
    | some d => moreDigits base (base * acc + d) cs
    | none   => (acc, c :: cs)

/-- A number with at least one digit, and the rest. -/
def parseNumber (base : Nat) : List Char → Option (Nat × List Char)
  | []      => none
  | c :: cs => (digitValue base c).map fun d => moreDigits base d cs

/-- A printable ASCII character, `0x20 .. 0x7E` (R82, R83). -/
def printable (c : Char) : Bool := decide (0x20 ≤ c.toNat ∧ c.toNat ≤ 0x7E)

/-- A number as the byte it names; above 255 it names none (R82). -/
def byteOf (r : Nat × List Char) : Option (Byte × List Char) :=
  if r.1 ≤ 255 then some (BitVec.ofNat 8 r.1, r.2) else none

/-- `<value>` of R82: `'c'`, `0x..` or a decimal number, `0 .. 255`. -/
def parseValue (cs : List Char) : Option (Byte × List Char) :=
  match cs with
  | '\'' :: c :: '\'' :: rest => if printable c then some (BitVec.ofNat 8 c.toNat, rest) else none
  | '0' :: 'x' :: rest        => (parseNumber 16 rest).bind byteOf
  | _                         => (parseNumber 10 cs).bind byteOf

/-- The characters up to the closing quotation mark, and the rest (R83: no escape sequences). -/
def parseQuoted : List Char → Option (List Byte × List Char)
  | []         => none
  | '"' :: cs  => some ([], cs)
  | c :: cs    =>
    if printable c then (parseQuoted cs).map fun r => (BitVec.ofNat 8 c.toNat :: r.1, r.2) else none

/-- `v1, v2, ..., vn` with at most `n` values, and the rest (R83). DESIGN CHOICE, log entry 17: R83 lets LDSTR have n = 0 and
is silent on it for LDBYTES; a line of LDBYTES without a value is outside the syntax here. -/
def parseValues : Nat → List Char → Option (List Byte × List Char)
  | 0,     _  => none
  | n + 1, cs =>
    (parseValue (skipBlanks cs)).bind fun r =>
      match skipBlanks r.2 with
      | ',' :: more => (parseValues n more).map fun q => (r.1 :: q.1, q.2)
      | other       => some ([r.1], other)

/-- The commands of `bytes` when nothing but a comment follows. -/
def finishLine (r : List Byte × List Char) : Option (List Instr) :=
  if endOfLine r.2 then some (ldsAll r.1) else none

/-- The commands without operand, by mnemonic (R73). -/
def plainMnemonics : List (List Char × Instr) :=
  [(['N', 'O', 'P'], .nop), (['C', 'L', 'E', 'A', 'R'], .clear), (['S', 'E', 'Q', 'C', 'L', 'R'], .seqclr),
   (['C', 'O', 'U', 'N', 'T'], .count), (['B', 'U', 'I', 'L', 'D'], .build), (['D', 'E', 'R', 'I', 'V', 'E'], .derive),
   (['P', 'A', 'C', 'K'], .pack), (['E', 'N', 'C', 'O', 'D', 'E'], .encode)]

/-- A command without operand. -/
def parsePlain (cs : List Char) : List (List Char × Instr) → Option (List Instr)
  | []          => none
  | (m, i) :: t =>
    match dropWord m cs with
    | some rest => if endOfLine rest then some [i] else parsePlain cs t
    | none      => parsePlain cs t

/-- The commands one line assembles to (R82, R83); `none` is a line outside the syntax. DESIGN CHOICE, log entry 17: R82
gives each line one word and shows no blank line and no line with a comment only; here both give no command. -/
def assembleLine (line : List Char) : Option (List Instr) :=
  let cs := skipBlanks line
  if endOfLine cs then some []
  else
    match dropWord ['L', 'D', 'S', ' '] cs with
    | some rest => (parseValue (skipBlanks rest)).bind fun r => finishLine ([r.1], r.2)
    | none =>
    match dropWord ['L', 'D', 'S', 'T', 'R', ' '] cs with
    | some rest =>
      match skipBlanks rest with
      | '"' :: str => (parseQuoted str).bind finishLine
      | _          => none
    | none =>
    match dropWord ['L', 'D', 'B', 'Y', 'T', 'E', 'S', ' '] cs with
    | some rest => (parseValues rest.length rest).bind finishLine
    | none      => parsePlain cs plainMnemonics

/-- The words of a script, one line after another (R82). -/
def assemble : List (List Char) → Option (List Word)
  | []      => some []
  | l :: ls =>
    match assembleLine l, assemble ls with
    | some is, some ws => some (is.map encode ++ ws)
    | _,       _       => none

end Sys2Proof.Machine
end

