-- ==== Sys2Proof/WellFormed.lean ====
section
/-! DEFINITION. WellFormed.lean: which parameters make an instance of HTB (00_scope.md R7), and which command terms are
well formed (30_encoding.md R72). -/

namespace Sys2Proof

/-- The constraints of R7 on the two parameters: `2 <= A <= 256` and `W_LEN >= 1`. -/
abbrev Params.wf (p : Params) : Prop := 2 ≤ p.alphabet ∧ p.alphabet ≤ 256 ∧ 1 ≤ p.wLen

/-- Every term of `Instr` is a command of R73: the one operand, the symbol of LDS, is an 8-bit value by its type and
any 8-bit value is legal (R72, R93), so the check is its range written out. -/
def Instr.wf : Instr → Bool
  | .nop     => true
  | .clear   => true
  | .lds imm => decide (imm.toNat ≤ 255)
  | .seqclr  => true
  | .count   => true
  | .build   => true
  | .derive  => true
  | .pack    => true
  | .encode  => true

end Sys2Proof
end

