-- ==== Sys2Proof/Safety.lean ====
section
/-! DEFINITION. Safety.lean: the terms claims about HTB are stated in: views of the state, the frame relations, the
reference decoder and sink of the spec (47_properties.md R180, 20_memory.md R64; neither is part of the machine), and
the invariant of every state a run reaches (10_state.md R38, 47_properties.md R170 to R176). -/

namespace Sys2Proof.Machine

/-! ## Views -/

/-- The sequence now in SEQ: its entries `0 .. NSYM-1` (R35). -/
def seqList (s : State) : List Byte := (List.range s.nsym).map (seqAt s)

/-- The code of symbol `v` as a bit sequence, first-generated bit first (R41). -/
def codeBits (s : State) (v : Nat) : List Bool := unpackBits (codeAt s v).len (codeAt s v).bits

/-- The path of node `k` as a bit sequence, first choice from the root first (R37, R39). -/
def pathOf (s : State) (k : Nat) : List Bool := unpackBits (nodeAt s k).plen (nodeAt s k).pbits

/-- The number of indices `i < NSYM` with `SEQ[i] = v` (R100). -/
def occurrences (s : State) (v : Nat) : Nat := (seqList s).countP fun b => b.toNat == v

/-- The sum of all FREQ entries (R170). -/
def freqSum (s : State) : Nat := ((List.range s.cfg.alphabet).map (freqAt s)).sum

/-- Symbol `b` can be packed: it is in the alphabet and has a code (R148, R149). -/
def codable (s : State) (b : Byte) : Bool :=
  decide (b.toNat < s.cfg.alphabet) && decide ((codeAt s b.toNat).len ≠ 0)

/-- The index of the first symbol of SEQ that cannot be packed, NSYM if there is none. -/
def firstUncodable (s : State) : Nat := (seqList s).findIdx fun b => !codable s b

/-- The concatenation of the codes of `SEQ[0 .. n-1]`, in sequence order (R145, R147). -/
def bitsUpTo (s : State) (n : Nat) : List Bool := ((seqList s).take n).flatMap fun b => codeBits s b.toNat

/-- The sink calls made between `s` and a later state `t` of the same run, oldest first. -/
def newEvents (s t : State) : List SinkEvent := t.log.drop s.log.length

/-- One `write_bit` per bit, each answered `ok`. -/
def accepted (bits : List Bool) : List SinkEvent := bits.map fun b => { call := .writeBit b, answer := .ok }

/-- The bits passed to `write_bit` calls that answered `ok` (R63). -/
def acceptedBits : List SinkEvent → List Bool
  | []      => []
  | e :: es =>
    match e.call, e.answer with
    | .writeBit b, .ok   => b :: acceptedBits es
    | .writeBit _, .fail => acceptedBits es
    | .flush,      _     => acceptedBits es

/-- The sink's fixed answers are all `ok` and there are enough of them for one PACK: at most `N * MAXLEN` bits and one
flush (R159). -/
abbrev sinkAlwaysOk (s : State) : Prop :=
  s.nsym * s.cfg.maxLen + 1 ≤ s.plan.length ∧ ∀ a ∈ s.plan, a = .ok

/-- Commands executed one after another. -/
def runCommands : List Instr → State → Host.Outcome State Fault Refusal
  | [],      s => .next s
  | i :: is, s =>
    match exec i s with
    | .next t    => runCommands is t
    | .fault f   => .fault f
    | .refused r => .refused r

/-! ## Frames: what two states have in common -/

/-- Every entry of SEQ and NSYM. -/
abbrev sameSeq (s t : State) : Prop := t.nsym = s.nsym ∧ ∀ a, seqAt t a = seqAt s a

/-- Every entry of FREQ. -/
abbrev sameFreq (s t : State) : Prop := ∀ v, freqAt t v = freqAt s v

/-- NODE, PQ and the registers BUILD writes. -/
abbrev sameTree (s t : State) : Prop :=
  (∀ k, nodeAt t k = nodeAt s k) ∧ t.pq = s.pq ∧ t.nleaf = s.nleaf ∧ t.nnode = s.nnode ∧ t.root = s.root ∧
    t.pqcnt = s.pqcnt

/-- Every entry of CODE. -/
abbrev sameCode (s t : State) : Prop := ∀ v, codeAt t v = codeAt s v

/-- CAUSE, FIDX, FINFO. -/
abbrev sameFault (s t : State) : Prop := t.cause = s.cause ∧ t.fidx = s.fidx ∧ t.finfo = s.finfo

/-- EMPTY and INDEP. -/
abbrev sameFlags (s t : State) : Prop := t.empty = s.empty ∧ t.indep = s.indep

/-- No sink call was made. -/
abbrev sameSink (s t : State) : Prop := t.log = s.log ∧ t.plan = s.plan

/-- The parameters and what the host will present. -/
abbrev sameWorld (s t : State) : Prop := t.cfg = s.cfg ∧ t.host = s.host

/-! ## Reference functions of the spec -/

/-- The inner loop of the reference decoder (R180): follow bits from node `k` to a leaf. Answers its symbol and the bits
left. -/
def walkBits (s : State) : Nat → List Bool → Option (Byte × List Bool)
  | k, []      =>
    match (nodeAt s k).kind with
    | .leaf     => some ((nodeAt s k).sym, [])
    | .internal => none
  | k, b :: bs =>
    match (nodeAt s k).kind with
    | .leaf     => some ((nodeAt s k).sym, b :: bs)
    | .internal => walkBits s (if b then (nodeAt s k).right else (nodeAt s k).left) bs

/-- One symbol of the reference decoder (R180): a lone symbol takes one bit, which must be 0. -/
def decodeSymbol (s : State) (bits : List Bool) : Option (Byte × List Bool) :=
  if s.root = s.cfg.noNode then none
  else
    match (nodeAt s s.root).kind, bits with
    | .leaf, false :: bs => some ((nodeAt s s.root).sym, bs)
    | .leaf, true :: _   => none
    | .leaf, []          => none
    | .internal, bs      => walkBits s s.root bs

/-- `Decode(B, n)` of R180, over the tree of `s`; `none` is its `error`. -/
def refDecode (s : State) : Nat → List Bool → Option (List Byte)
  | 0,     _    => some []
  | n + 1, bits =>
    match decodeSymbol s bits with
    | some (v, rest) => (refDecode s n rest).map (v :: ·)
    | none           => none

/-- The bytes of the reference sink after its flush (R64): eight bits a byte, the first in bit 7, zero padding. -/
def refSinkBytes : Nat → List Bool → List Byte
  | 0,     _       => []
  | _ + 1, []      => []
  | n + 1, b :: bs =>
    BitVec.ofNat 8 (packBits (((b :: bs).take 8) ++ List.replicate (8 - (b :: bs).length) false)) ::
      refSinkBytes n ((b :: bs).drop 8)

/-! ## The invariant -/

/-- Equal tables are equal data: SEQ, FREQ, NODE, CODE and PQ are in canonical form, and PQCNT counts PQ (R34). -/
abbrev formsOk (s : State) : Prop :=
  Memory.wf s.seq ∧ tabWf 0 s.freq ∧ tabWf (unusedSlot s.cfg) s.node ∧ tabWf noCode s.code ∧
    s.pq.Pairwise (· < ·) ∧ s.pqcnt = s.pq.length

/-- No sink scope is open between commands (R43); CAUSE is nonzero exactly in phase FAULT (R29, R201); FIDX and FINFO
are 0 without a fault and as R30 and R31 fix them per cause: FINFO is the refused word, for SeqOverflow an LDS, for
IllegalCommand a word that decodes to no command (R194), for IllegalSequence a command other than NOP and CLEAR, which
the table of R78 allows in every phase (R195). -/
abbrev controlOk (s : State) : Prop :=
  s.scope = false ∧ (s.cause ≠ .none ↔ s.phase = .fault) ∧
    (s.cause = .none → s.fidx = 0 ∧ s.finfo = 0#16) ∧
    (s.cause = .sinkFailure → s.fidx ≤ s.nsym ∧ s.finfo = 0#16) ∧
    (s.cause = .seqOverflow → s.fidx = s.cfg.nMax ∧ decodeWord s.finfo = some (.lds (immField s.finfo))) ∧
    (s.cause = .symbolOutOfRange ∨ s.cause = .symbolNotCoded →
      s.fidx < s.nsym ∧ s.finfo = zext16 (seqAt s s.fidx)) ∧
    (s.cause = .illegalCommand → s.fidx = 0 ∧ decodeWord s.finfo = none) ∧
    (s.cause = .illegalSequence → s.fidx = 0 ∧ decodeWord s.finfo ≠ none ∧ decodeWord s.finfo ≠ some .nop ∧
      decodeWord s.finfo ≠ some .clear)

/-- Every register and every stored entry fits the index range and the width the spec gives it (R7, R23, R35 to R41). -/
abbrev widthsOk (s : State) : Prop :=
  s.nsym ≤ s.cfg.nMax ∧ s.fidx ≤ s.cfg.nMax ∧ s.nleaf ≤ s.cfg.alphabet ∧ s.nnode ≤ s.cfg.nodeMax ∧
    s.root ≤ s.cfg.noNode ∧ s.pqcnt ≤ s.cfg.alphabet ∧ s.bitcnt < 2 ^ s.cfg.wBits ∧
    (∀ e ∈ s.seq, e.1 < s.cfg.nMax) ∧
    (∀ e ∈ s.freq, e.1 < s.cfg.alphabet ∧ e.2 ≤ s.cfg.nMax) ∧
    (∀ e ∈ s.node, e.1 < s.nnode ∧ e.2.freq ≤ s.cfg.nMax ∧ e.2.left ≤ s.cfg.noNode ∧ e.2.right ≤ s.cfg.noNode ∧
      e.2.plen ≤ s.cfg.maxLen ∧ e.2.pbits < 2 ^ s.cfg.maxLen) ∧
    (∀ k ∈ s.pq, k < s.nnode) ∧
    (∀ e ∈ s.code, e.1 < s.cfg.alphabet ∧ e.2.len ≤ s.cfg.maxLen ∧ e.2.bits < 2 ^ s.cfg.maxLen)

/-- FREQ counts the sequence in SEQ, all of it inside the alphabet (R100, R170). -/
abbrev countsOk (s : State) : Prop :=
  (∀ i < s.nsym, (seqAt s i).toNat < s.cfg.alphabet) ∧ ∀ v < s.cfg.alphabet, freqAt s v = occurrences s v

/-- Nothing has been built (R46). -/
abbrev nothingBuilt (s : State) : Prop :=
  s.node = [] ∧ s.pq = [] ∧ s.nleaf = 0 ∧ s.nnode = 0 ∧ s.root = s.cfg.noNode

/-- Slot `k` is a leaf of FREQ (R171, R172). -/
abbrev leafOk (s : State) (k : Nat) : Prop :=
  (nodeAt s k).valid = true ∧ (nodeAt s k).kind = .leaf ∧ (nodeAt s k).left = s.cfg.noNode ∧
    (nodeAt s k).right = s.cfg.noNode ∧ (nodeAt s k).sym.toNat < s.cfg.alphabet ∧
    (nodeAt s k).freq = freqAt s (nodeAt s k).sym.toNat ∧ 1 ≤ (nodeAt s k).freq

/-- Slot `k` is an internal node with two different children made before it, whose weight is the sum of theirs and whose
right child is not the heavier (R171 to R173). -/
abbrev internalOk (s : State) (k : Nat) : Prop :=
  (nodeAt s k).valid = true ∧ (nodeAt s k).kind = .internal ∧ (nodeAt s k).sym = 0#8 ∧
    (nodeAt s k).left < k ∧ (nodeAt s k).right < k ∧ (nodeAt s k).left ≠ (nodeAt s k).right ∧
    (nodeAt s k).freq = (nodeAt s (nodeAt s k).left).freq + (nodeAt s (nodeAt s k).right).freq ∧
    (nodeAt s (nodeAt s k).right).freq ≤ (nodeAt s (nodeAt s k).left).freq

/-- The number of internal nodes that have `j` as a child (R172). -/
def parentCount (s : State) (j : Nat) : Nat :=
  (List.range s.nnode).countP fun k =>
    decide ((nodeAt s k).kind = .internal) && ((nodeAt s k).left == j || (nodeAt s k).right == j)

/-- The nodes in use form one tree over the counted symbols (R38, R119, R171 to R173). -/
abbrev treeOk (s : State) : Prop :=
  s.nnode = 2 * s.nleaf - 1 ∧ s.root = (if s.nleaf = 0 then s.cfg.noNode else s.nnode - 1) ∧
    s.pq = (if s.nleaf = 0 then [] else [s.root]) ∧
    (∀ k < s.nleaf, leafOk s k) ∧
    (∀ k < s.nleaf, ∀ j < k, (nodeAt s j).sym.toNat < (nodeAt s k).sym.toNat) ∧
    (∀ v < s.cfg.alphabet, 0 < freqAt s v → ∃ k < s.nleaf, (nodeAt s k).sym.toNat = v) ∧
    (∀ k < s.nnode, s.nleaf ≤ k → internalOk s k) ∧
    (∀ j < s.nnode, parentCount s j = if j = s.root then 0 else 1)

/-- DERIVE has not run: no node has a path and CODE is empty (R39, R41). -/
abbrev nothingDerived (s : State) : Prop :=
  (∀ k < s.nnode, (nodeAt s k).pvalid = false ∧ (nodeAt s k).plen = 0 ∧ (nodeAt s k).pbits = 0) ∧ s.code = []

/-- Every node in use has its path: the root the empty one, a child its parent's with 0 or 1 added (R133), no longer
than `L - 1` (R176). -/
abbrev pathsOk (s : State) : Prop :=
  (∀ k < s.nnode, (nodeAt s k).pvalid = true ∧ (nodeAt s k).plen + 1 ≤ s.nleaf ∧
    (nodeAt s k).pbits < 2 ^ (nodeAt s k).plen) ∧
    (0 < s.nleaf → (nodeAt s s.root).plen = 0) ∧
    (∀ k < s.nnode, s.nleaf ≤ k →
      (nodeAt s (nodeAt s k).left).plen = (nodeAt s k).plen + 1 ∧
      (nodeAt s (nodeAt s k).left).pbits = 2 * (nodeAt s k).pbits ∧
      (nodeAt s (nodeAt s k).right).plen = (nodeAt s k).plen + 1 ∧
      (nodeAt s (nodeAt s k).right).pbits = 2 * (nodeAt s k).pbits + 1)

/-- CODE holds the paths of the leaves, the forced code of a lone symbol, and nothing else (R42, R131, R135, R174). -/
abbrev codesOk (s : State) : Prop :=
  (∀ k < s.nleaf, codeAt s (nodeAt s k).sym.toNat =
    if s.nleaf = 1 then loneCode else { len := (nodeAt s k).plen, bits := (nodeAt s k).pbits }) ∧
    ∀ v < s.cfg.alphabet, freqAt s v = 0 → codeAt s v = noCode

/-- What each phase says of the tables (R26), with EMPTY (R27) and INDEP (R28). Nothing is valid in FAULT (R225). -/
abbrev phaseOk (s : State) : Prop :=
  (s.phase = .load → s.freq = [] ∧ nothingBuilt s ∧ s.code = [] ∧ s.bitcnt = 0 ∧ s.empty = false ∧ s.indep = false) ∧
    (s.phase = .counted → countsOk s ∧ nothingBuilt s ∧ s.code = [] ∧ s.bitcnt = 0 ∧ s.indep = false) ∧
    (s.phase = .built → countsOk s ∧ treeOk s ∧ nothingDerived s ∧ s.bitcnt = 0 ∧ s.indep = false) ∧
    (s.phase = .derived ∨ s.phase = .done →
      (s.indep = false → countsOk s) ∧ treeOk s ∧ pathsOk s ∧ codesOk s) ∧
    (s.phase = .done → (∀ b ∈ seqList s, codable s b = true) ∧ s.bitcnt = (bitsUpTo s s.nsym).length) ∧
    (s.phase ≠ .load → s.phase ≠ .fault → s.empty = decide (freqSum s = 0))

/-- The invariant: it holds after reset and every step keeps it. -/
abbrev Invariant (s : State) : Prop :=
  s.cfg.wf ∧ formsOk s ∧ controlOk s ∧ widthsOk s ∧ freqSum s ≤ s.cfg.nMax ∧ phaseOk s

end Sys2Proof.Machine
end

