-- ==== Sys2Proof/Certificates/Slice0/Obligations.lean ====
section
/-! DEFINITION. Certificates/Slice0/Obligations.lean: the statements about the model, each from a numbered rule of
spec/ or from the sections named in OBLIGATIONS.json. -/

open Sys2Proof Sys2Proof.Machine

/-! ## Encoding (30_encoding.md) -/

/-- R73, R75, R82: a word decodes to a command exactly when it is that command's word. So the decoder gives back every
command from its word with every operand value, no word has two readings, and no other word is accepted. -/
def Obligations.DecodeInvertsEncode : Prop :=
  ∀ (w : Word) (i : Instr), decodeWord w = some i ↔ encode i = w

/-- R75: exactly the 8 + 256 words listed there are legal. -/
def Obligations.LegalWordsAreTheListedOnes : Prop :=
  ∀ w : Word, (decodeWord w).isSome = true ↔
    w ∈ [0x0000#16, 0x1000#16, 0x3000#16, 0x4000#16, 0x5000#16, 0x6000#16, 0x7000#16, 0x8000#16] ∨
      (0x2000 ≤ w.toNat ∧ w.toNat ≤ 0x20FF)

/-- R73: a word selects a command when `(w & mask) == match`, for the nine rows of the table. -/
def Obligations.MaskAndMatchSelectTheCommand : Prop :=
  ∀ w : Word,
    (w &&& 0xFFFF#16 = 0x0000#16 ↔ decodeWord w = some .nop) ∧
    (w &&& 0xFFFF#16 = 0x1000#16 ↔ decodeWord w = some .clear) ∧
    (w &&& 0xFF00#16 = 0x2000#16 ↔ ∃ imm, decodeWord w = some (.lds imm) ∧ imm.toNat = w.toNat % 256) ∧
    (w &&& 0xFFFF#16 = 0x3000#16 ↔ decodeWord w = some .seqclr) ∧
    (w &&& 0xFFFF#16 = 0x4000#16 ↔ decodeWord w = some .count) ∧
    (w &&& 0xFFFF#16 = 0x5000#16 ↔ decodeWord w = some .build) ∧
    (w &&& 0xFFFF#16 = 0x6000#16 ↔ decodeWord w = some .derive) ∧
    (w &&& 0xFFFF#16 = 0x7000#16 ↔ decodeWord w = some .pack) ∧
    (w &&& 0xFFFF#16 = 0x8000#16 ↔ decodeWord w = some .encode)

/-- 95_test_vectors.md 2.1: words written out from the format of R71 decode to the command they stand for. -/
def Obligations.SampleWordsDecode : Prop :=
  decodeWord 0b0000000000000000#16 = some .nop ∧ decodeWord 0b0001000000000000#16 = some .clear ∧
    decodeWord 0b0010000001100001#16 = some (.lds 0x61#8) ∧ decodeWord 0b0010000011111111#16 = some (.lds 0xFF#8) ∧
    decodeWord 0b0011000000000000#16 = some .seqclr ∧ decodeWord 0b1000000000000000#16 = some .encode ∧
    decodeWord 0b0010000101100001#16 = none ∧ decodeWord 0b0001000000000001#16 = none ∧
    decodeWord 0b1001000000000000#16 = none

/-- R83: `LDSTR "c1c2...cn"` is one LDS per character, in order, for every string of printable ASCII characters without a
quotation mark. -/
def Obligations.LdstrExpandsToOneLdsPerCharacter : Prop :=
  ∀ cs : List Char, (∀ c ∈ cs, 0x20 ≤ c.toNat ∧ c.toNat ≤ 0x7E ∧ c ≠ '"') →
    assembleLine (['L', 'D', 'S', 'T', 'R', ' ', '"'] ++ cs ++ ['"']) =
      some (cs.map fun c => Instr.lds (BitVec.ofNat 8 c.toNat))

/-! ## The step and the checks before a command (30_encoding.md R76 to R81) -/

/-- R79, R81: when the host presents a word that decodes to `i`, the step is `exec i` on the state with that word taken
off. -/
def Obligations.StepRunsTheDecodedCommand : Prop :=
  ∀ (s : State) (w : Word) (rest : List HostInput) (i : Instr),
    s.host = .word w :: rest → decodeWord w = some i → step s = exec i { s with host := rest }

/-- R76, R194: a word with nonzero `rsv`, with nonzero `imm` on a command other than LDS, or with `op` 9 to 15 raises
IllegalCommand in every phase but FAULT, with the word in FINFO, and does nothing else. -/
def Obligations.MalformedWordRaisesIllegalCommand : Prop :=
  ∀ (s : State) (w : Word) (rest : List HostInput), s.host = .word w :: rest → s.phase ≠ .fault →
    (w.toNat / 256 % 16 ≠ 0 ∨ (w.toNat % 256 ≠ 0 ∧ w.toNat / 4096 ≠ 2) ∨ 9 ≤ w.toNat / 4096) →
    ∃ t, step s = .next t ∧ t.phase = .fault ∧ t.cause = .illegalCommand ∧ t.fidx = 0 ∧ t.finfo = w ∧
      sameSeq s t ∧ sameFreq s t ∧ sameTree s t ∧ sameCode s t ∧ sameFlags s t ∧ sameSink s t ∧
      t.bitcnt = s.bitcnt ∧ t.scope = s.scope ∧ t.cfg = s.cfg ∧ t.host = rest

/-- R80: in phase FAULT every word other than `0x1000` leaves the whole state unchanged. -/
def Obligations.FaultIgnoresEveryWordButClear : Prop :=
  ∀ (s : State) (w : Word) (rest : List HostInput), s.host = .word w :: rest → s.phase = .fault →
    w ≠ 0x1000#16 → step s = .next { s with host := rest }

/-- R78, R195: a command presented in a phase where the table says `seq` raises IllegalSequence with its own word, and
touches nothing else. -/
def Obligations.OutOfSequenceCommandRaises : Prop :=
  ∀ (i : Instr) (s : State),
    ((∃ imm, i = .lds imm) ∧ (s.phase = .counted ∨ s.phase = .built ∨ s.phase = .done) ∨
      i = .seqclr ∧ (s.phase = .counted ∨ s.phase = .built) ∨
      (i = .count ∨ i = .encode) ∧ (s.phase = .counted ∨ s.phase = .built ∨ s.phase = .derived ∨ s.phase = .done) ∨
      i = .build ∧ (s.phase = .load ∨ s.phase = .built ∨ s.phase = .derived ∨ s.phase = .done) ∨
      i = .derive ∧ (s.phase = .load ∨ s.phase = .counted ∨ s.phase = .derived ∨ s.phase = .done) ∨
      i = .pack ∧ (s.phase = .load ∨ s.phase = .counted ∨ s.phase = .built ∨ s.phase = .done)) →
    ∃ t, exec i s = .next t ∧ t.phase = .fault ∧ t.cause = .illegalSequence ∧ t.fidx = 0 ∧ t.finfo = encode i ∧
      sameSeq s t ∧ sameFreq s t ∧ sameTree s t ∧ sameCode s t ∧ sameFlags s t ∧ sameSink s t ∧
      t.bitcnt = s.bitcnt ∧ t.scope = s.scope ∧ sameWorld s t

/-- R229: every step ends with a next state, whatever the state, the word and the sink's answers. -/
def Obligations.EveryStepAnswersNext : Prop := ∀ s : State, ∃ t, step s = .next t

/-- The model's choice, log entry 5 (R215: "After reset the engine waits for its first command"): with nothing presented
a step changes nothing. -/
def Obligations.EngineWaitsWithoutInput : Prop := ∀ s : State, s.host = [] → step s = .next s

/-! ## Reset, faults, registers -/

/-- R46, R215: hardware reset between two commands puts every register and table at its reset value. The sink and what
the host presents next are untouched (R218). -/
def Obligations.HardwareResetGivesResetState : Prop :=
  ∀ (s : State) (rest : List HostInput), s.host = .reset :: rest →
    ∃ t, step s = .next t ∧ statusWord t = 0#16 ∧ t.cause = .none ∧ t.fidx = 0 ∧ t.finfo = 0#16 ∧ t.nsym = 0 ∧
      t.nleaf = 0 ∧ t.nnode = 0 ∧ t.pqcnt = 0 ∧ t.root = s.cfg.noNode ∧ t.bitcnt = 0 ∧
      (∀ v, freqAt t v = 0) ∧ (∀ k, nodeAt t k = unusedSlot s.cfg) ∧ t.pq = [] ∧ (∀ v, codeAt t v = ⟨0, 0⟩) ∧
      t.scope = false ∧ sameSink s t ∧ t.cfg = s.cfg ∧ t.host = rest

/-- R216: CLEAR and hardware reset produce the same state. -/
def Obligations.ClearEqualsHardwareReset : Prop :=
  ∀ (s : State) (rest : List HostInput),
    step { s with host := .word 0x1000#16 :: rest } = step { s with host := .reset :: rest }

/-- R46 for the machine's start, in the default configuration of R7. -/
def Obligations.ResetRegistersRead : Prop :=
  State.reset.cfg = { alphabet := 128, wLen := 32 } ∧
    (∀ n < 16, State.reset.rd 0#4 n = .csr (if n = 7 then 255#64 else 0#64)) ∧
    ∀ i < 300, State.reset.rd 1#4 i = .seq 0#8 ∧ State.reset.rd 2#4 i = .freq 0 ∧ State.reset.rd 4#4 i = .code ⟨0, 0⟩ ∧
      State.reset.rd 3#4 i = .node (if i < 255 then ⟨false, .leaf, 0#8, 0, 255, 255, false, 0, 0⟩
        else ⟨false, .leaf, 0#8, 0, 0, 0, false, 0, 0⟩)

/-- R196: fault entry writes CAUSE, FIDX, FINFO and PHASE, and nothing else; EMPTY and INDEP keep their values. -/
def Obligations.FaultEntryWritesFourFields : Prop :=
  ∀ (c : Cause) (idx : Nat) (info : Word) (s : State),
    (raise c idx info s).cause = c ∧ (raise c idx info s).fidx = idx ∧ (raise c idx info s).finfo = info ∧
      (raise c idx info s).phase = .fault ∧ sameFlags s (raise c idx info s) ∧ sameSeq s (raise c idx info s) ∧
      sameFreq s (raise c idx info s) ∧ sameTree s (raise c idx info s) ∧ sameCode s (raise c idx info s) ∧
      sameSink s (raise c idx info s) ∧ sameWorld s (raise c idx info s) ∧
      (raise c idx info s).bitcnt = s.bitcnt ∧ (raise c idx info s).scope = s.scope

/-- R200, R201: phase FAULT is left only by CLEAR or hardware reset, which clear CAUSE; until then CAUSE, FIDX and FINFO
keep the first fault's values. -/
def Obligations.FaultIsStickyUntilClearOrReset : Prop :=
  ∀ s t : State, s.phase = .fault → step s = .next t →
    (t.phase = .fault ∧ sameFault s t ∧ sameSink s t) ∨
      (t.phase = .load ∧ t.cause = .none ∧ t.nsym = 0 ∧
        ∃ rest, s.host = .word 0x1000#16 :: rest ∨ s.host = .reset :: rest)

/-- R25, R26: the fields of STATUS, and the value of PHASE in each phase: 0, 1, 2, 3, 4 and 7; 5 and 6 never occur. -/
def Obligations.StatusRegisterLayout : Prop :=
  ∀ s : State,
    (s.phase = .load ↔ (statusWord s).extractLsb' 0 3 = 0#3) ∧
    (s.phase = .counted ↔ (statusWord s).extractLsb' 0 3 = 1#3) ∧
    (s.phase = .built ↔ (statusWord s).extractLsb' 0 3 = 2#3) ∧
    (s.phase = .derived ↔ (statusWord s).extractLsb' 0 3 = 3#3) ∧
    (s.phase = .done ↔ (statusWord s).extractLsb' 0 3 = 4#3) ∧
    (s.phase = .fault ↔ (statusWord s).extractLsb' 0 3 = 7#3) ∧
    (statusWord s).extractLsb' 0 3 ≠ 5#3 ∧ (statusWord s).extractLsb' 0 3 ≠ 6#3 ∧
    (statusWord s).getLsbD 3 = s.empty ∧ (statusWord s).getLsbD 4 = s.indep ∧ (statusWord s).extractLsb' 5 11 = 0#11

/-- R56: a read outside the defined range of its space returns the all-zero record of that space's type. Spaces 5 to 15
have no type in the spec: that their all-zero record is the constructor `reserved` is the model's choice, log entry 11. -/
def Obligations.ReadOutsideRangeIsZero : Prop :=
  ∀ (s : State) (space : BitVec 4) (i : Nat),
    (5 ≤ space.toNat → s.rd space i = .reserved) ∧ (10 ≤ i → s.rd 0#4 i = .csr 0#64) ∧
    (s.nsym ≤ i → s.rd 1#4 i = .seq 0#8) ∧ (s.cfg.alphabet ≤ i → s.rd 2#4 i = .freq 0) ∧
    (s.cfg.nodeMax ≤ i → s.rd 3#4 i = .node ⟨false, .leaf, 0#8, 0, 0, 0, false, 0, 0⟩) ∧
    (s.cfg.alphabet ≤ i → s.rd 4#4 i = .code ⟨0, 0⟩)

/-- R23, R57: a read inside the defined range returns the current content, in every phase; in the reachable states of an
instance with `W_LEN <= 56` (where BITCNT fits the 64-bit value) a register reads as its own number. CAUSE reads as 0 to 6
(R29, R191), never as 7. That a register is cut to 64 bits above 56 is the model's choice, log entry 11. -/
def Obligations.ReadInsideRangeIsCurrentContent : Prop :=
  ∀ s : State, Invariant s → s.cfg.wLen ≤ 56 →
    (∀ i < s.nsym, s.rd 1#4 i = .seq (seqAt s i)) ∧
    (∀ v < s.cfg.alphabet, s.rd 2#4 v = .freq (freqAt s v) ∧ s.rd 4#4 v = .code (codeAt s v)) ∧
    (∀ k < s.cfg.nodeMax, s.rd 3#4 k = .node (nodeAt s k)) ∧
    (∃ v, s.rd 0#4 0 = .csr v ∧ v.toNat = (statusWord s).toNat) ∧
    (s.cause = .none ↔ s.rd 0#4 1 = .csr 0#64) ∧ (s.cause = .symbolOutOfRange ↔ s.rd 0#4 1 = .csr 1#64) ∧
    (s.cause = .symbolNotCoded ↔ s.rd 0#4 1 = .csr 2#64) ∧ (s.cause = .sinkFailure ↔ s.rd 0#4 1 = .csr 3#64) ∧
    (s.cause = .seqOverflow ↔ s.rd 0#4 1 = .csr 4#64) ∧ (s.cause = .illegalCommand ↔ s.rd 0#4 1 = .csr 5#64) ∧
    (s.cause = .illegalSequence ↔ s.rd 0#4 1 = .csr 6#64) ∧ s.rd 0#4 1 ≠ .csr 7#64 ∧
    (∃ v, s.rd 0#4 2 = .csr v ∧ v.toNat = s.fidx) ∧
    (∃ v, s.rd 0#4 3 = .csr v ∧ v.toNat = s.finfo.toNat) ∧ (∃ v, s.rd 0#4 4 = .csr v ∧ v.toNat = s.nsym) ∧
    (∃ v, s.rd 0#4 5 = .csr v ∧ v.toNat = s.nleaf) ∧ (∃ v, s.rd 0#4 6 = .csr v ∧ v.toNat = s.nnode) ∧
    (∃ v, s.rd 0#4 7 = .csr v ∧ v.toNat = s.root) ∧ (∃ v, s.rd 0#4 8 = .csr v ∧ v.toNat = s.pqcnt) ∧
    (∃ v, s.rd 0#4 9 = .csr v ∧ v.toNat = s.bitcnt)

/-! ## NOP, CLEAR, LDS, SEQCLR (40_control.md) -/

/-- R91: NOP, word `0x0000`, leaves every state as it is, in every phase including FAULT. -/
def Obligations.NopChangesNothing : Prop :=
  encode .nop = 0x0000#16 ∧ ∀ s : State, exec .nop s = .next s

/-- R92: CLEAR, in every phase, puts every register and table at its reset value, rewrites no SEQ entry and makes no sink
call. -/
def Obligations.ClearRestoresResetState : Prop :=
  ∀ s : State, ∃ t, exec .clear s = .next t ∧ t.phase = .load ∧ t.empty = false ∧ t.indep = false ∧ t.cause = .none ∧
    t.fidx = 0 ∧ t.finfo = 0#16 ∧ t.nsym = 0 ∧ t.nleaf = 0 ∧ t.nnode = 0 ∧ t.pqcnt = 0 ∧ t.bitcnt = 0 ∧
    t.root = s.cfg.noNode ∧ (∀ v, freqAt t v = 0) ∧ (∀ k, nodeAt t k = unusedSlot s.cfg) ∧ t.pq = [] ∧
    (∀ v, codeAt t v = ⟨0, 0⟩) ∧ t.scope = false ∧ (∀ a, seqAt t a = seqAt s a) ∧ sameSink s t ∧ sameWorld s t

/-- R93: LDS in LOAD or DERIVED with room left stores its symbol, unchecked, at index NSYM, adds one to NSYM and sets
INDEP in DERIVED only; every other byte of SEQ and everything else is unchanged. -/
def Obligations.LdsAppendsTheSymbol : Prop :=
  ∀ (s : State) (imm : Byte), s.phase = .load ∨ s.phase = .derived → s.nsym < s.cfg.nMax →
    ∃ t, exec (.lds imm) s = .next t ∧ t.nsym = s.nsym + 1 ∧ seqAt t s.nsym = imm ∧
      (∀ a, a ≠ s.nsym → seqAt t a = seqAt s a) ∧ t.phase = s.phase ∧
      t.indep = (if s.phase = .derived then true else s.indep) ∧ t.empty = s.empty ∧
      sameFreq s t ∧ sameTree s t ∧ sameCode s t ∧ sameFault s t ∧ sameSink s t ∧ sameWorld s t ∧
      t.bitcnt = s.bitcnt ∧ t.scope = s.scope

/-- R94: LDS with NSYM = N_MAX stores nothing, leaves NSYM and raises SeqOverflow with FIDX = N_MAX and the LDS word. -/
def Obligations.LdsAtCapacityRaisesSeqOverflow : Prop :=
  ∀ (s : State) (imm : Byte), s.phase = .load ∨ s.phase = .derived → s.nsym = s.cfg.nMax →
    ∃ t, exec (.lds imm) s = .next t ∧ t.phase = .fault ∧ t.cause = .seqOverflow ∧ t.fidx = s.cfg.nMax ∧
      t.finfo.toNat = 0x2000 + imm.toNat ∧ sameSeq s t ∧ sameFreq s t ∧ sameTree s t ∧ sameCode s t ∧ sameFlags s t ∧
      sameSink s t ∧ sameWorld s t ∧ t.bitcnt = s.bitcnt ∧ t.scope = s.scope

/-- R95: SEQCLR, word `0x3000`, in LOAD, DERIVED or DONE empties the sequence, sets INDEP in DERIVED and DONE, takes DONE back to DERIVED
and keeps every table, EMPTY and BITCNT. -/
def Obligations.SeqclrEmptiesTheSequence : Prop :=
  encode .seqclr = 0x3000#16 ∧ ∀ s : State, s.phase = .load ∨ s.phase = .derived ∨ s.phase = .done →
    ∃ t, exec .seqclr s = .next t ∧ t.nsym = 0 ∧ (∀ a, seqAt t a = seqAt s a) ∧
      t.indep = (if s.phase = .load then s.indep else true) ∧ t.phase = (if s.phase = .load then .load else .derived) ∧
      t.empty = s.empty ∧ t.bitcnt = s.bitcnt ∧ sameFreq s t ∧ sameTree s t ∧ sameCode s t ∧ sameFault s t ∧
      sameSink s t ∧ sameWorld s t ∧ t.scope = s.scope

/-! ## COUNT (41_count.md) -/

/-- R100, R101, R103: COUNT of a sequence inside the alphabet completes with `FREQ[v]` = the number of indices that hold
`v`, EMPTY = (N = 0), PHASE = COUNTED, and changes nothing else. -/
def Obligations.CountCountsEverySymbol : Prop :=
  ∀ s : State, s.phase = .load → s.nsym ≤ s.cfg.nMax → (∀ i < s.nsym, (seqAt s i).toNat < s.cfg.alphabet) →
    ∃ t, exec .count s = .next t ∧ t.phase = .counted ∧
      (∀ v, freqAt t v = (List.range s.nsym).countP fun i => (seqAt s i).toNat == v) ∧
      t.empty = decide (s.nsym = 0) ∧ t.indep = s.indep ∧ sameSeq s t ∧ sameTree s t ∧ sameCode s t ∧ sameFault s t ∧
      sameSink s t ∧ sameWorld s t ∧ t.bitcnt = s.bitcnt ∧ t.scope = s.scope

/-- R102, R105: COUNT stops at the first symbol `>= A`, at index `i`: SymbolOutOfRange with FIDX = `i` and the symbol in
FINFO; FREQ holds the counts of `SEQ[0 .. i-1]`; EMPTY and everything else are unchanged. -/
def Obligations.CountStopsAtFirstOutOfRange : Prop :=
  ∀ (s : State) (i : Nat), s.phase = .load → s.nsym ≤ s.cfg.nMax → i < s.nsym →
    s.cfg.alphabet ≤ (seqAt s i).toNat → (∀ j < i, (seqAt s j).toNat < s.cfg.alphabet) →
    ∃ t, exec .count s = .next t ∧ t.phase = .fault ∧ t.cause = .symbolOutOfRange ∧ t.fidx = i ∧
      t.finfo.toNat = (seqAt s i).toNat ∧
      (∀ v, freqAt t v = (List.range i).countP fun j => (seqAt s j).toNat == v) ∧
      sameSeq s t ∧ sameTree s t ∧ sameCode s t ∧ sameFlags s t ∧ sameSink s t ∧ sameWorld s t ∧
      t.bitcnt = s.bitcnt ∧ t.scope = s.scope

/-! ## BUILD (42_build.md) -/

/-- R112, R113, R116: one merge removes `x`, the member of PQ before every other by (frequency, index), then `y`, the one
before every other of the rest, and makes the next node: their sum, left child `y`, right child `x`. -/
def Obligations.MergeJoinsTheTwoLightest : Prop :=
  ∀ s : State, s.pq.Pairwise (· < ·) → 2 ≤ s.pq.length → s.pqcnt = s.pq.length → (∀ k ∈ s.pq, k < s.nnode) →
    (∀ x ∈ s.pq, ∀ y ∈ s.pq, x ≠ y → (nodeAt s x).freq + (nodeAt s y).freq ≤ s.cfg.nMax) →
    ∃ x y, x ∈ s.pq ∧ y ∈ s.pq ∧ x ≠ y ∧
      (∀ k ∈ s.pq, k ≠ x → (nodeAt s x).freq < (nodeAt s k).freq ∨ ((nodeAt s x).freq = (nodeAt s k).freq ∧ x < k)) ∧
      (∀ k ∈ s.pq, k ≠ x → k ≠ y →
        (nodeAt s y).freq < (nodeAt s k).freq ∨ ((nodeAt s y).freq = (nodeAt s k).freq ∧ y < k)) ∧
      nodeAt (mergeOnce s) s.nnode =
        ⟨true, .internal, 0#8, (nodeAt s x).freq + (nodeAt s y).freq, y, x, false, 0, 0⟩ ∧
      (∀ k, k ≠ s.nnode → nodeAt (mergeOnce s) k = nodeAt s k) ∧
      (∀ k, k ∈ (mergeOnce s).pq ↔ (k ∈ s.pq ∧ k ≠ x ∧ k ≠ y) ∨ k = s.nnode) ∧
      (mergeOnce s).nnode = s.nnode + 1 ∧ (mergeOnce s).pqcnt = s.pqcnt - 1 ∧
      (mergeOnce s).nleaf = s.nleaf ∧ (mergeOnce s).root = s.root ∧ (mergeOnce s).phase = s.phase

/-- R115: after BUILD the leaves are the symbols with nonzero count, in ascending order from slot 0, each with its count.
-/
def Obligations.BuildSeedsLeavesInSymbolOrder : Prop :=
  ∀ s : State, s.cfg.wf → s.phase = .counted →
    ∃ t, exec .build s = .next t ∧ t.phase = .built ∧
      (List.range t.nleaf).map (fun k => (nodeAt t k).sym.toNat) =
        (List.range s.cfg.alphabet).filter (fun v => decide (0 < freqAt s v)) ∧
      ∀ k < t.nleaf, (nodeAt t k).valid = true ∧ (nodeAt t k).kind = .leaf ∧ (nodeAt t k).left = s.cfg.noNode ∧
        (nodeAt t k).right = s.cfg.noNode ∧ (nodeAt t k).freq = freqAt s (nodeAt t k).sym.toNat ∧
        (nodeAt t k).pvalid = false

/-- R119, R171, R172, R173: BUILD in a reachable COUNTED state completes with one tree over the counted symbols (the
terms of `treeOk`: NNODE = 2L - 1, ROOT = NNODE - 1 or NONE, PQ = {ROOT}, leaves in ascending order, every internal node
with two different earlier children, weights that add up, one parent each), no path assigned, and nothing else changed.
-/
def Obligations.BuildMakesTheTree : Prop :=
  ∀ s : State, Invariant s → s.phase = .counted →
    ∃ t, exec .build s = .next t ∧ t.phase = .built ∧ treeOk t ∧ t.pqcnt = t.pq.length ∧
      (∀ k < t.nnode, (nodeAt t k).pvalid = false) ∧ (∀ k, t.nnode ≤ k → nodeAt t k = unusedSlot s.cfg) ∧
      (0 < t.nleaf → (nodeAt t t.root).freq = s.nsym) ∧
      sameSeq s t ∧ sameFreq s t ∧ sameCode s t ∧ sameFlags s t ∧ sameFault s t ∧ sameSink s t ∧ sameWorld s t ∧
      t.bitcnt = s.bitcnt ∧ t.scope = s.scope

/-- R118: (a) one nonzero count gives a single-leaf tree without internal nodes; (b) none gives "no tree". Neither is a
fault. -/
def Obligations.BuildOfOneOrNoSymbol : Prop :=
  ∀ s : State, s.cfg.wf → s.phase = .counted →
    ((∀ v < s.cfg.alphabet, freqAt s v = 0) →
      ∃ t, exec .build s = .next t ∧ t.phase = .built ∧ t.root = s.cfg.noNode ∧ t.nnode = 0 ∧ t.nleaf = 0 ∧
        t.pqcnt = 0 ∧ t.pq = [] ∧ sameFault s t ∧ ∀ k, nodeAt t k = nodeAt s k) ∧
    ∀ v < s.cfg.alphabet, 0 < freqAt s v → (∀ u < s.cfg.alphabet, u ≠ v → freqAt s u = 0) →
      ∃ t, exec .build s = .next t ∧ t.phase = .built ∧ t.root = 0 ∧ t.nnode = 1 ∧ t.nleaf = 1 ∧ t.pqcnt = 1 ∧
        t.pq = [0] ∧ sameFault s t ∧ (nodeAt t 0).kind = .leaf ∧ (nodeAt t 0).sym.toNat = v ∧
        (nodeAt t 0).freq = freqAt s v ∧ ∀ k, k ≠ 0 → nodeAt t k = nodeAt s k

/-- R186, marked in the spec as general knowledge: the weights of the internal nodes do not decrease in order of
creation. -/
def Obligations.MergeWeightsDoNotDecrease : Prop :=
  ∀ s : State, Invariant s → s.phase = .counted →
    ∃ t, exec .build s = .next t ∧
      ∀ k, t.nleaf ≤ k → k + 1 < t.nnode → (nodeAt t k).freq ≤ (nodeAt t (k + 1)).freq

/-- R123: the tree BUILD produces is optimal. BUILD and then DERIVE in a reachable COUNTED state complete, and for every
assignment `c` of prefix-free bit sequences to the counted symbols, the weighted length of the tree's paths is at most
that of `c`. -/
def Obligations.TreeIsOptimal : Prop :=
  ∀ s : State, Invariant s → s.phase = .counted →
    ∃ t u, exec .build s = .next t ∧ exec .derive t = .next u ∧
      ∀ c : Nat → List Bool,
        (∀ a < s.cfg.alphabet, ∀ b < s.cfg.alphabet, a ≠ b → 0 < freqAt s a → 0 < freqAt s b → ¬ (c a <+: c b)) →
        ((List.range u.nleaf).map fun k => (nodeAt u k).freq * (nodeAt u k).plen).sum ≤
          ((List.range s.cfg.alphabet).map fun v => freqAt s v * (c v).length).sum

/-! ## DERIVE (43_derive.md) -/

/-- R131, R132, R133, R137: DERIVE in a reachable BUILT state completes: the root's path is empty, the left child's path
is its parent's with 0 added and the right child's with 1 added, every node in use has its path, the code of a leaf other
than a lone root is its path, symbols with no leaf have no code; the tree fields and everything else are unchanged. -/
def Obligations.DeriveAssignsPathsAndCodes : Prop :=
  ∀ s : State, Invariant s → s.phase = .built →
    ∃ t, exec .derive s = .next t ∧ t.phase = .derived ∧
      (0 < s.nleaf → pathOf t t.root = []) ∧
      (∀ k < s.nnode, (nodeAt t k).pvalid = true ∧ ((nodeAt s k).kind = .internal →
        pathOf t (nodeAt s k).left = pathOf t k ++ [false] ∧ pathOf t (nodeAt s k).right = pathOf t k ++ [true])) ∧
      (∀ k < s.nleaf, 2 ≤ s.nleaf → codeBits t (nodeAt s k).sym.toNat = pathOf t k) ∧
      (s.nleaf = 1 → codeAt t (nodeAt s 0).sym.toNat = ⟨1, 0⟩) ∧
      (∀ v < s.cfg.alphabet, freqAt s v = 0 → codeAt t v = ⟨0, 0⟩) ∧
      (∀ k, (nodeAt t k).valid = (nodeAt s k).valid ∧ (nodeAt t k).kind = (nodeAt s k).kind ∧
        (nodeAt t k).sym = (nodeAt s k).sym ∧ (nodeAt t k).freq = (nodeAt s k).freq ∧
        (nodeAt t k).left = (nodeAt s k).left ∧ (nodeAt t k).right = (nodeAt s k).right) ∧
      (∀ k, s.nnode ≤ k → nodeAt t k = nodeAt s k) ∧
      t.pq = s.pq ∧ t.nleaf = s.nleaf ∧ t.nnode = s.nnode ∧ t.root = s.root ∧ t.pqcnt = s.pqcnt ∧
      sameSeq s t ∧ sameFreq s t ∧ sameFlags s t ∧ sameFault s t ∧ sameSink s t ∧ sameWorld s t ∧
      t.bitcnt = s.bitcnt ∧ t.scope = s.scope

/-- R135: when ROOT is a leaf, its symbol gets the one-bit code `"0"`, its own path is the empty one, and no other symbol
gets a code. -/
def Obligations.DeriveForcesTheLoneCode : Prop :=
  ∀ s : State, s.phase = .built → s.root ≠ s.cfg.noNode → (nodeAt s s.root).kind = .leaf →
    ∃ t, exec .derive s = .next t ∧ t.phase = .derived ∧ codeAt t (nodeAt s s.root).sym.toNat = ⟨1, 0⟩ ∧
      codeBits t (nodeAt s s.root).sym.toNat = [false] ∧
      (∀ v, v ≠ (nodeAt s s.root).sym.toNat → codeAt t v = ⟨0, 0⟩) ∧
      nodeAt t s.root = { nodeAt s s.root with pvalid := true, plen := 0, pbits := 0 } ∧
      ∀ k, k ≠ s.root → nodeAt t k = nodeAt s k

/-- R136: with ROOT = NONE, DERIVE leaves every CODE entry at (0, 0), writes no node, sets PHASE = DERIVED and raises
nothing. -/
def Obligations.DeriveOfNoTreeIsEmpty : Prop :=
  ∀ s : State, s.phase = .built → s.root = s.cfg.noNode →
    ∃ t, exec .derive s = .next t ∧ (∀ v, codeAt t v = ⟨0, 0⟩) ∧ (∀ k, nodeAt t k = nodeAt s k) ∧
      t.phase = .derived ∧ sameFault s t ∧ sameSeq s t ∧ sameFreq s t ∧ sameTree s t

/-! ## Properties of the results (47_properties.md) -/

/-- R170: in COUNTED, BUILT, DERIVED and DONE, while INDEP = 0, the counts sum to NSYM. -/
def Obligations.CountsSumToSequenceLength : Prop :=
  ∀ s : State, Invariant s → s.phase = .counted ∨ s.phase = .built ∨ s.phase = .derived ∨ s.phase = .done →
    s.indep = false → freqSum s = s.nsym

/-- R174: in DERIVED and DONE exactly the counted symbols have a code, an absent entry is (0, 0), a code's bits fit its
length, and there are NLEAF entries. -/
def Obligations.CodeDomainIsTheCountedSymbols : Prop :=
  ∀ s : State, Invariant s → s.phase = .derived ∨ s.phase = .done →
    (∀ v < s.cfg.alphabet, (1 ≤ (codeAt s v).len ↔ 0 < freqAt s v) ∧
      ((codeAt s v).len = 0 → (codeAt s v).bits = 0) ∧ (codeAt s v).bits < 2 ^ (codeAt s v).len) ∧
    (List.range s.cfg.alphabet).countP (fun v => decide (1 ≤ (codeAt s v).len)) = s.nleaf

/-- R175: in DERIVED with INDEP = 0 every symbol of SEQ is in the alphabet and has a code. -/
def Obligations.CountedSequenceIsCodable : Prop :=
  ∀ s : State, Invariant s → s.phase = .derived → s.indep = false →
    ∀ i < s.nsym, (seqAt s i).toNat < s.cfg.alphabet ∧ 1 ≤ (codeAt s (seqAt s i).toNat).len

/-- R177, R138: whenever PHASE is DERIVED or DONE, no code is a prefix of another. -/
def Obligations.CodesArePrefixFree : Prop :=
  ∀ s : State, Invariant s → s.phase = .derived ∨ s.phase = .done →
    ∀ a < s.cfg.alphabet, ∀ b < s.cfg.alphabet, a ≠ b → 1 ≤ (codeAt s a).len → 1 ≤ (codeAt s b).len →
      ¬ (codeBits s a <+: codeBits s b)

/-- R178: with `L >= 2` the code is complete (the sum of `2^(-len)` is 1); with `L = 1` the sum is 1/2. Both sides are
multiplied by `2^MAXLEN`. -/
def Obligations.CodeIsComplete : Prop :=
  ∀ s : State, Invariant s → s.phase = .derived ∨ s.phase = .done →
    (2 ≤ s.nleaf → (((List.range s.cfg.alphabet).filter fun v => decide (1 ≤ (codeAt s v).len)).map fun v =>
      2 ^ (s.cfg.maxLen - (codeAt s v).len)).sum = 2 ^ s.cfg.maxLen) ∧
    (s.nleaf = 1 → 2 * (((List.range s.cfg.alphabet).filter fun v => decide (1 ≤ (codeAt s v).len)).map fun v =>
      2 ^ (s.cfg.maxLen - (codeAt s v).len)).sum = 2 ^ s.cfg.maxLen)

/-- R176: with `L >= 2` every path and every code has length at most `L - 1`; with `L = 1` the code has length 1; so
every length is at most MAXLEN. -/
def Obligations.LengthsAreBounded : Prop :=
  ∀ s : State, Invariant s → s.phase = .derived ∨ s.phase = .done →
    (∀ k < s.nnode, (nodeAt s k).plen ≤ s.nleaf - 1) ∧
    (∀ v < s.cfg.alphabet, 0 < freqAt s v → 2 ≤ s.nleaf → (codeAt s v).len ≤ s.nleaf - 1) ∧
    (∀ v < s.cfg.alphabet, 0 < freqAt s v → s.nleaf = 1 → (codeAt s v).len = 1) ∧
    (∀ v < s.cfg.alphabet, (codeAt s v).len ≤ s.cfg.maxLen)

/-- R156, R179: after a PACK or ENCODE that ended in DONE, BITCNT is the sum of the code lengths over the sequence, and
with INDEP = 0 the sum of `FREQ[v] * CODE[v].len`. -/
def Obligations.BitCountIsTheWeightedLength : Prop :=
  ∀ s : State, Invariant s → s.phase = .done →
    s.bitcnt = ((List.range s.nsym).map fun i => (codeAt s (seqAt s i).toNat).len).sum ∧
    (s.indep = false → s.bitcnt = ((List.range s.cfg.alphabet).map fun v => freqAt s v * (codeAt s v).len).sum)

/-! ## PACK (44_pack.md) -/

/-- R145, R146, R147, R150: PACK of a sequence whose symbols all have codes, with a sink that answers ok, completes: the
calls are one `write_bit` per code bit, codes in sequence order, first-generated bit first, then one `flush`; BITCNT is
the number of bits, PHASE = DONE; nothing else of the engine changes. -/
def Obligations.PackEmitsTheCodesInOrder : Prop :=
  ∀ s : State, Invariant s → s.phase = .derived → sinkAlwaysOk s → (∀ b ∈ seqList s, codable s b = true) →
    ∃ t, exec .pack s = .next t ∧ t.phase = .done ∧
      t.log = s.log ++ accepted ((seqList s).flatMap fun b => codeBits s b.toNat) ++ [⟨.flush, .ok⟩] ∧
      t.bitcnt = ((seqList s).flatMap fun b => codeBits s b.toNat).length ∧
      t.plan = s.plan.drop (t.bitcnt + 1) ∧ t.scope = false ∧
      sameSeq s t ∧ sameFreq s t ∧ sameTree s t ∧ sameCode s t ∧ sameFlags s t ∧ sameFault s t ∧ sameWorld s t

/-- R148, R149, R154, R155, with a sink that answers ok: PACK stops at the first symbol that cannot be packed. The codes
of the symbols before it have been written, the flush is made, and the cause is SymbolOutOfRange when the symbol is
`>= A`, else SymbolNotCoded. -/
def Obligations.PackStopsAtFirstUncodable : Prop :=
  ∀ (s : State) (i : Nat), Invariant s → s.phase = .derived → sinkAlwaysOk s → i < s.nsym →
    (∀ j < i, codable s (seqAt s j) = true) → codable s (seqAt s i) = false →
    ∃ t, exec .pack s = .next t ∧ t.phase = .fault ∧ t.fidx = i ∧ t.finfo.toNat = (seqAt s i).toNat ∧
      t.cause = (if s.cfg.alphabet ≤ (seqAt s i).toNat then .symbolOutOfRange else .symbolNotCoded) ∧
      t.log = s.log ++ accepted (bitsUpTo s i) ++ [⟨.flush, .ok⟩] ∧ t.bitcnt = (bitsUpTo s i).length ∧
      t.scope = false ∧ sameSeq s t ∧ sameFreq s t ∧ sameTree s t ∧ sameCode s t ∧ sameFlags s t ∧ sameWorld s t

/-- R146, R150 to R155 for EVERY answer the sink may give: `bits` are the codes up to the first symbol `f` that cannot
be packed (`f` = NSYM if there is none); the sink accepts `k` of them. Either it refuses the next one (SinkFailure with
the index of the symbol that bit belongs to), or all are accepted and the end is the symbol's own error, the failure of
the flush (FIDX = N), or DONE. The flush is made in every case, and its answer matters only in the last. -/
def Obligations.PackOutcomeForEverySink : Prop :=
  ∀ s : State, Invariant s → s.phase = .derived →
    ∃ t k r, exec .pack s = .next t ∧ t.bitcnt = k ∧ t.scope = false ∧
      sameSeq s t ∧ sameFreq s t ∧ sameTree s t ∧ sameCode s t ∧ sameFlags s t ∧ sameWorld s t ∧
      ((∃ b, k < (bitsUpTo s (firstUncodable s)).length ∧ (bitsUpTo s (firstUncodable s))[k]? = some b ∧
          t.log = s.log ++ accepted ((bitsUpTo s (firstUncodable s)).take k) ++
            [⟨.writeBit b, .fail⟩, ⟨.flush, r⟩] ∧
          t.phase = .fault ∧ t.cause = .sinkFailure ∧ t.finfo = 0#16 ∧
          t.fidx < firstUncodable s ∧ (bitsUpTo s t.fidx).length ≤ k ∧ k < (bitsUpTo s (t.fidx + 1)).length) ∨
        (k = (bitsUpTo s (firstUncodable s)).length ∧
          t.log = s.log ++ accepted (bitsUpTo s (firstUncodable s)) ++ [⟨.flush, r⟩] ∧
          (firstUncodable s < s.nsym →
            t.phase = .fault ∧ t.fidx = firstUncodable s ∧ t.finfo = zext16 (seqAt s (firstUncodable s)) ∧
            t.cause = (if s.cfg.alphabet ≤ (seqAt s (firstUncodable s)).toNat then .symbolOutOfRange
              else .symbolNotCoded)) ∧
          (firstUncodable s = s.nsym → r = .fail →
            t.phase = .fault ∧ t.cause = .sinkFailure ∧ t.fidx = s.nsym ∧ t.finfo = 0#16) ∧
          (firstUncodable s = s.nsym → r = .ok → t.phase = .done ∧ sameFault s t)))

/-- R61, R62, R152: every PACK that starts makes `write_bit` calls, of which only the last may have been refused, and then
exactly one `flush`; a PACK in any other phase makes no sink call at all. -/
def Obligations.PackFlushesExactlyOnce : Prop :=
  ∀ s : State, ∃ t, exec .pack s = .next t ∧
    (s.phase = .derived → ∃ (writes : List SinkEvent) (r : SinkAnswer), t.log = s.log ++ writes ++ [⟨.flush, r⟩] ∧
      (∀ e ∈ writes, e.call ≠ .flush) ∧ ∀ e ∈ writes.dropLast, e.answer = .ok) ∧
    (s.phase ≠ .derived → t.log = s.log)

/-- R153: with `N = 0` PACK makes no `write_bit` and one `flush`, leaves BITCNT = 0 and ends in DONE, or in FAULT with
SinkFailure and FIDX = 0 if that flush fails. -/
def Obligations.PackOfEmptySequence : Prop :=
  ∀ s : State, s.phase = .derived → s.nsym = 0 →
    ∃ t r, exec .pack s = .next t ∧ t.log = s.log ++ [⟨.flush, r⟩] ∧ t.bitcnt = 0 ∧
      (r = .ok → t.phase = .done ∧ sameFault s t) ∧
      (r = .fail → t.phase = .fault ∧ t.cause = .sinkFailure ∧ t.fidx = 0 ∧ t.finfo = 0#16)

/-- The model's choice, log entry 3 (the spec leaves the answers to an oracle): the calls of one PACK are answered, in the
order in which they are made, by the fixed answers of `plan` as long as there is one, and each call takes one off. -/
def Obligations.SinkAnswersInOrder : Prop :=
  ∀ s t : State, exec .pack s = .next t →
    t.plan = s.plan.drop (newEvents s t).length ∧
      ((newEvents s t).map SinkEvent.answer).take s.plan.length = s.plan.take (newEvents s t).length

/-! ## ENCODE (45_encode.md) -/

/-- R165: ENCODE in LOAD has exactly the effect of COUNT, BUILD, DERIVE, PACK issued in this order; after a fault of COUNT
the three others are ignored (R80). -/
def Obligations.EncodeIsTheFourStages : Prop :=
  ∀ s : State, s.phase = .load → exec .encode s = runCommands [.count, .build, .derive, .pack] s

/-- R166, R198: when a symbol of the sequence is outside the alphabet, ENCODE makes no sink call, builds nothing and ends
as COUNT does. -/
def Obligations.EncodeFaultInCountMakesNoSinkCall : Prop :=
  ∀ s : State, s.phase = .load → (∃ i < s.nsym, s.cfg.alphabet ≤ (seqAt s i).toNat) →
    ∃ t, exec .encode s = .next t ∧ exec .count s = .next t ∧ t.phase = .fault ∧ t.cause = .symbolOutOfRange ∧
      sameSink s t ∧ sameTree s t ∧ sameCode s t ∧ sameSeq s t ∧ t.bitcnt = s.bitcnt

/-- R167: ENCODE of the empty input makes one flush and no `write_bit`; if that flush answers ok it ends in DONE with
EMPTY = 1, no tree, no code, BITCNT = 0 and no fault. -/
def Obligations.EncodeOfEmptyInput : Prop :=
  ∀ s : State, Invariant s → s.phase = .load → s.nsym = 0 →
    ∃ t r, exec .encode s = .next t ∧ t.log = s.log ++ [⟨.flush, r⟩] ∧ t.empty = true ∧ t.root = s.cfg.noNode ∧
      t.nnode = 0 ∧ (∀ v, codeAt t v = ⟨0, 0⟩) ∧ t.bitcnt = 0 ∧ (r = .ok → t.phase = .done ∧ t.cause = .none)

/-- R181, R180: ENCODE of any sequence inside the alphabet, with a sink that answers ok, ends in DONE, and the reference
decoder gives the sequence back from the accepted bits, whatever padding follows them. -/
def Obligations.EncodeThenDecodeIsTheSequence : Prop :=
  ∀ s : State, Invariant s → s.phase = .load → (∀ i < s.nsym, (seqAt s i).toNat < s.cfg.alphabet) → sinkAlwaysOk s →
    ∃ t, exec .encode s = .next t ∧ t.phase = .done ∧ t.indep = s.indep ∧ t.scope = s.scope ∧ sameSeq s t ∧
      sameFault s t ∧ sameWorld s t ∧
      ∀ padding : List Bool, refDecode t s.nsym (acceptedBits (newEvents s t) ++ padding) = some (seqList s)

/-- R168, R183: the end state of ENCODE and its sink calls are a function of the loaded sequence, the parameters and the
sink (its history and its answers): two LOAD states that agree on these end alike, whatever stale entries SEQ holds above
NSYM. -/
def Obligations.EncodeIsDeterministic : Prop :=
  ∀ s₁ s₂ : State, Invariant s₁ → Invariant s₂ → s₁.phase = .load → s₂.phase = .load → s₁.cfg = s₂.cfg →
    seqList s₁ = seqList s₂ → s₁.plan = s₂.plan → s₁.log = s₂.log →
    ∃ t₁ t₂, exec .encode s₁ = .next t₁ ∧ exec .encode s₂ = .next t₂ ∧ seqList t₁ = seqList t₂ ∧
      { t₂ with seq := t₁.seq, host := t₁.host } = t₁

/-! ## Rules of the whole machine -/

/-- R26: the moves of PHASE, and no other: a step leaves it, enters FAULT, goes to LOAD by CLEAR or hardware reset, or
makes one of the six moves of the commands. -/
def Obligations.PhaseMovesAreTheListedOnes : Prop :=
  ∀ s t : State, step s = .next t →
    t.phase = s.phase ∨ t.phase = .fault ∨
      (t.phase = .load ∧ ∃ rest, s.host = .word 0x1000#16 :: rest ∨ s.host = .reset :: rest) ∨
      ∃ w rest, s.host = .word w :: rest ∧
        ((s.phase = .load ∧ t.phase = .counted ∧ w = 0x4000#16) ∨
          (s.phase = .counted ∧ t.phase = .built ∧ w = 0x5000#16) ∨
          (s.phase = .built ∧ t.phase = .derived ∧ w = 0x6000#16) ∨
          (s.phase = .derived ∧ t.phase = .done ∧ w = 0x7000#16) ∨
          (s.phase = .load ∧ t.phase = .done ∧ w = 0x8000#16) ∨
          (s.phase = .done ∧ t.phase = .derived ∧ w = 0x3000#16))

/-- R45, with R165 for ENCODE and R92 for CLEAR: which command may write what. -/
def Obligations.EachTableHasOneWriter : Prop :=
  ∀ (i : Instr) (s t : State), exec i s = .next t → i ≠ .clear → i ≠ .encode →
    (i ≠ .count → sameFreq s t ∧ t.empty = s.empty) ∧
    (i ≠ .build → t.pq = s.pq ∧ t.nleaf = s.nleaf ∧ t.nnode = s.nnode ∧ t.root = s.root ∧ t.pqcnt = s.pqcnt ∧
      ∀ k, (nodeAt t k).valid = (nodeAt s k).valid ∧ (nodeAt t k).kind = (nodeAt s k).kind ∧
        (nodeAt t k).sym = (nodeAt s k).sym ∧ (nodeAt t k).freq = (nodeAt s k).freq ∧
        (nodeAt t k).left = (nodeAt s k).left ∧ (nodeAt t k).right = (nodeAt s k).right) ∧
    (i ≠ .derive → sameCode s t) ∧
    (i ≠ .derive → i ≠ .build → ∀ k, nodeAt t k = nodeAt s k) ∧
    (i ≠ .pack → t.bitcnt = s.bitcnt ∧ sameSink s t) ∧
    ((∀ imm, i ≠ .lds imm) → ∀ a, seqAt t a = seqAt s a) ∧
    ((∀ imm, i ≠ .lds imm) → i ≠ .seqclr → t.nsym = s.nsym ∧ t.indep = s.indep)

/-- R8: the parameters never change. -/
def Obligations.ParametersNeverChange : Prop := ∀ s t : State, step s = .next t → t.cfg = s.cfg

/-- The reset state (R46) of every legal configuration meets the invariant. Its clauses on the form of the tables and of
PQ are the model's choice, log entries 9 and 10. -/
def Obligations.ResetMeetsTheInvariant : Prop := ∀ p : Params, p.wf → Invariant (State.resetOf p)

/-- The model's choice of forms, kept by every step: SEQ, FREQ, NODE and CODE list only entries that differ from the
default, by rising index (log entry 10), and PQ is a strictly rising list (log entry 9; the spec leaves its arrangement
invisible). With them, PQCNT = the number of members of PQ (R34). -/
def Obligations.StepKeepsCanonicalForms : Prop :=
  ∀ s t : State, formsOk s → step s = .next t → formsOk t

/-- R29, R30, R31, R43, R201: every step keeps SCOPE = 0 between commands, CAUSE nonzero exactly in FAULT, and what FIDX
and FINFO hold per cause: the symbol at FIDX, 0, or a refused word (an LDS at capacity, a word that decodes to no command,
a command other than NOP and CLEAR out of sequence). -/
def Obligations.StepKeepsFaultRegisters : Prop :=
  ∀ s t : State, controlOk s → step s = .next t → controlOk t

/-- R38, R170 to R176 and the widths of R7: every step keeps the whole invariant. Its clauses on the form of the tables and
of PQ are the model's choice, log entries 9 and 10. -/
def Obligations.StepKeepsTheInvariant : Prop :=
  ∀ s t : State, Invariant s → step s = .next t → Invariant t
end

