-- ==== Sys2Proof/Laws/Bits.lean ====
section
/-! SUPPORT. Laws/Bits.lean: the layout of a bit sequence in an integer (00_scope.md R10), packing and unpacking. -/

namespace Sys2Proof.Machine

@[simp] theorem packBits_nil : packBits [] = 0 := rfl

/-- One more bit at the end is one more bit at the low end of the integer. -/
@[simp] theorem packBits_append_one (p : List Bool) (b : Bool) : packBits (p ++ [b]) = 2 * packBits p + b.toNat := by
  simp [packBits]

theorem packBits_lt (p : List Bool) : packBits p < 2 ^ p.length := by
  induction p using List.reverseRecOn with
  | nil => simp
  | append_singleton p b ih =>
    rw [packBits_append_one, List.length_append, List.length_singleton, Nat.pow_succ]
    have := Bool.toNat_le b
    omega

@[simp] theorem unpackBits_length (n bits : Nat) : (unpackBits n bits).length = n := by simp [unpackBits]

@[simp] theorem unpackBits_zero (bits : Nat) : unpackBits 0 bits = [] := rfl

/-- The first-generated bit is the highest of the `n + 1` used ones. -/
theorem unpackBits_succ (n bits : Nat) : unpackBits (n + 1) bits = bits.testBit n :: unpackBits n bits := by
  unfold unpackBits
  rw [List.range_succ_eq_map, List.map_cons, List.map_map]
  congr 1
  apply List.map_congr_left
  intro i _
  simp only [Function.comp]
  congr 1
  omega

/-- One more bit at the low end of the integer is one more bit at the end of the sequence. -/
theorem unpackBits_append (n bits : Nat) (b : Bool) :
    unpackBits (n + 1) (2 * bits + b.toNat) = unpackBits n bits ++ [b] := by
  unfold unpackBits
  rw [List.range_succ, List.map_append, List.map_singleton]
  congr 1
  · apply List.map_congr_left
    intro i hi
    have hi' : i < n := List.mem_range.1 hi
    have : n + 1 - 1 - i = (n - 1 - i) + 1 := by omega
    rw [this, Nat.testBit_succ]
    congr 1
    have := Bool.toNat_le b
    omega
  · have : n + 1 - 1 - n = 0 := by omega
    rw [this, Nat.testBit_zero]
    cases b <;> simp [Nat.add_mod]

/-- Unpacking gives back what packing stored: no bit of a sequence is lost. -/
@[simp] theorem unpackBits_packBits (p : List Bool) : unpackBits p.length (packBits p) = p := by
  induction p using List.reverseRecOn with
  | nil => rfl
  | append_singleton p b ih =>
    rw [packBits_append_one, List.length_append, List.length_singleton, unpackBits_append, ih]

end Sys2Proof.Machine
end

