-- ==== Sys2Proof/Laws/State.lean ====
section
/-! SUPPORT. Laws/State.lean: what each named update of the state does to each field, true by rfl. -/

namespace Sys2Proof.Machine

/-! ## raise -/

@[simp] theorem raise_cfg (c : Cause) (idx : Nat) (info : Word) (s : State) : (raise c idx info s).cfg = s.cfg := rfl
@[simp] theorem raise_phase (c : Cause) (idx : Nat) (info : Word) (s : State) :
    (raise c idx info s).phase = .fault := rfl
@[simp] theorem raise_empty (c : Cause) (idx : Nat) (info : Word) (s : State) :
    (raise c idx info s).empty = s.empty := rfl
@[simp] theorem raise_indep (c : Cause) (idx : Nat) (info : Word) (s : State) :
    (raise c idx info s).indep = s.indep := rfl
@[simp] theorem raise_cause (c : Cause) (idx : Nat) (info : Word) (s : State) : (raise c idx info s).cause = c := rfl
@[simp] theorem raise_fidx (c : Cause) (idx : Nat) (info : Word) (s : State) : (raise c idx info s).fidx = idx := rfl
@[simp] theorem raise_finfo (c : Cause) (idx : Nat) (info : Word) (s : State) :
    (raise c idx info s).finfo = info := rfl
@[simp] theorem raise_nsym (c : Cause) (idx : Nat) (info : Word) (s : State) :
    (raise c idx info s).nsym = s.nsym := rfl
@[simp] theorem raise_nleaf (c : Cause) (idx : Nat) (info : Word) (s : State) :
    (raise c idx info s).nleaf = s.nleaf := rfl
@[simp] theorem raise_nnode (c : Cause) (idx : Nat) (info : Word) (s : State) :
    (raise c idx info s).nnode = s.nnode := rfl
@[simp] theorem raise_root (c : Cause) (idx : Nat) (info : Word) (s : State) :
    (raise c idx info s).root = s.root := rfl
@[simp] theorem raise_pqcnt (c : Cause) (idx : Nat) (info : Word) (s : State) :
    (raise c idx info s).pqcnt = s.pqcnt := rfl
@[simp] theorem raise_bitcnt (c : Cause) (idx : Nat) (info : Word) (s : State) :
    (raise c idx info s).bitcnt = s.bitcnt := rfl
@[simp] theorem raise_seq (c : Cause) (idx : Nat) (info : Word) (s : State) : (raise c idx info s).seq = s.seq := rfl
@[simp] theorem raise_freq (c : Cause) (idx : Nat) (info : Word) (s : State) :
    (raise c idx info s).freq = s.freq := rfl
@[simp] theorem raise_node (c : Cause) (idx : Nat) (info : Word) (s : State) :
    (raise c idx info s).node = s.node := rfl
@[simp] theorem raise_pq (c : Cause) (idx : Nat) (info : Word) (s : State) : (raise c idx info s).pq = s.pq := rfl
@[simp] theorem raise_code (c : Cause) (idx : Nat) (info : Word) (s : State) :
    (raise c idx info s).code = s.code := rfl
@[simp] theorem raise_scope (c : Cause) (idx : Nat) (info : Word) (s : State) :
    (raise c idx info s).scope = s.scope := rfl
@[simp] theorem raise_plan (c : Cause) (idx : Nat) (info : Word) (s : State) :
    (raise c idx info s).plan = s.plan := rfl
@[simp] theorem raise_log (c : Cause) (idx : Nat) (info : Word) (s : State) : (raise c idx info s).log = s.log := rfl
@[simp] theorem raise_host (c : Cause) (idx : Nat) (info : Word) (s : State) :
    (raise c idx info s).host = s.host := rfl

/-! ## seqWrite -/

@[simp] theorem seqWrite_cfg (i : Nat) (v : Byte) (s : State) : (seqWrite i v s).cfg = s.cfg := rfl
@[simp] theorem seqWrite_phase (i : Nat) (v : Byte) (s : State) : (seqWrite i v s).phase = s.phase := rfl
@[simp] theorem seqWrite_empty (i : Nat) (v : Byte) (s : State) : (seqWrite i v s).empty = s.empty := rfl
@[simp] theorem seqWrite_indep (i : Nat) (v : Byte) (s : State) : (seqWrite i v s).indep = s.indep := rfl
@[simp] theorem seqWrite_cause (i : Nat) (v : Byte) (s : State) : (seqWrite i v s).cause = s.cause := rfl
@[simp] theorem seqWrite_fidx (i : Nat) (v : Byte) (s : State) : (seqWrite i v s).fidx = s.fidx := rfl
@[simp] theorem seqWrite_finfo (i : Nat) (v : Byte) (s : State) : (seqWrite i v s).finfo = s.finfo := rfl
@[simp] theorem seqWrite_nsym (i : Nat) (v : Byte) (s : State) : (seqWrite i v s).nsym = s.nsym := rfl
@[simp] theorem seqWrite_nleaf (i : Nat) (v : Byte) (s : State) : (seqWrite i v s).nleaf = s.nleaf := rfl
@[simp] theorem seqWrite_nnode (i : Nat) (v : Byte) (s : State) : (seqWrite i v s).nnode = s.nnode := rfl
@[simp] theorem seqWrite_root (i : Nat) (v : Byte) (s : State) : (seqWrite i v s).root = s.root := rfl
@[simp] theorem seqWrite_pqcnt (i : Nat) (v : Byte) (s : State) : (seqWrite i v s).pqcnt = s.pqcnt := rfl
@[simp] theorem seqWrite_bitcnt (i : Nat) (v : Byte) (s : State) : (seqWrite i v s).bitcnt = s.bitcnt := rfl
@[simp] theorem seqWrite_seq (i : Nat) (v : Byte) (s : State) : (seqWrite i v s).seq = Memory.write s.seq i v := rfl
@[simp] theorem seqWrite_freq (i : Nat) (v : Byte) (s : State) : (seqWrite i v s).freq = s.freq := rfl
@[simp] theorem seqWrite_node (i : Nat) (v : Byte) (s : State) : (seqWrite i v s).node = s.node := rfl
@[simp] theorem seqWrite_pq (i : Nat) (v : Byte) (s : State) : (seqWrite i v s).pq = s.pq := rfl
@[simp] theorem seqWrite_code (i : Nat) (v : Byte) (s : State) : (seqWrite i v s).code = s.code := rfl
@[simp] theorem seqWrite_scope (i : Nat) (v : Byte) (s : State) : (seqWrite i v s).scope = s.scope := rfl
@[simp] theorem seqWrite_plan (i : Nat) (v : Byte) (s : State) : (seqWrite i v s).plan = s.plan := rfl
@[simp] theorem seqWrite_log (i : Nat) (v : Byte) (s : State) : (seqWrite i v s).log = s.log := rfl
@[simp] theorem seqWrite_host (i : Nat) (v : Byte) (s : State) : (seqWrite i v s).host = s.host := rfl

/-! ## freqWrite -/

@[simp] theorem freqWrite_cfg (v n : Nat) (s : State) : (freqWrite v n s).cfg = s.cfg := rfl
@[simp] theorem freqWrite_phase (v n : Nat) (s : State) : (freqWrite v n s).phase = s.phase := rfl
@[simp] theorem freqWrite_empty (v n : Nat) (s : State) : (freqWrite v n s).empty = s.empty := rfl
@[simp] theorem freqWrite_indep (v n : Nat) (s : State) : (freqWrite v n s).indep = s.indep := rfl
@[simp] theorem freqWrite_cause (v n : Nat) (s : State) : (freqWrite v n s).cause = s.cause := rfl
@[simp] theorem freqWrite_fidx (v n : Nat) (s : State) : (freqWrite v n s).fidx = s.fidx := rfl
@[simp] theorem freqWrite_finfo (v n : Nat) (s : State) : (freqWrite v n s).finfo = s.finfo := rfl
@[simp] theorem freqWrite_nsym (v n : Nat) (s : State) : (freqWrite v n s).nsym = s.nsym := rfl
@[simp] theorem freqWrite_nleaf (v n : Nat) (s : State) : (freqWrite v n s).nleaf = s.nleaf := rfl
@[simp] theorem freqWrite_nnode (v n : Nat) (s : State) : (freqWrite v n s).nnode = s.nnode := rfl
@[simp] theorem freqWrite_root (v n : Nat) (s : State) : (freqWrite v n s).root = s.root := rfl
@[simp] theorem freqWrite_pqcnt (v n : Nat) (s : State) : (freqWrite v n s).pqcnt = s.pqcnt := rfl
@[simp] theorem freqWrite_bitcnt (v n : Nat) (s : State) : (freqWrite v n s).bitcnt = s.bitcnt := rfl
@[simp] theorem freqWrite_seq (v n : Nat) (s : State) : (freqWrite v n s).seq = s.seq := rfl
@[simp] theorem freqWrite_freq (v n : Nat) (s : State) : (freqWrite v n s).freq = tabSet 0 s.freq v n := rfl
@[simp] theorem freqWrite_node (v n : Nat) (s : State) : (freqWrite v n s).node = s.node := rfl
@[simp] theorem freqWrite_pq (v n : Nat) (s : State) : (freqWrite v n s).pq = s.pq := rfl
@[simp] theorem freqWrite_code (v n : Nat) (s : State) : (freqWrite v n s).code = s.code := rfl
@[simp] theorem freqWrite_scope (v n : Nat) (s : State) : (freqWrite v n s).scope = s.scope := rfl
@[simp] theorem freqWrite_plan (v n : Nat) (s : State) : (freqWrite v n s).plan = s.plan := rfl
@[simp] theorem freqWrite_log (v n : Nat) (s : State) : (freqWrite v n s).log = s.log := rfl
@[simp] theorem freqWrite_host (v n : Nat) (s : State) : (freqWrite v n s).host = s.host := rfl

/-! ## nodeWrite -/

@[simp] theorem nodeWrite_cfg (k : Nat) (r : NodeRec) (s : State) : (nodeWrite k r s).cfg = s.cfg := rfl
@[simp] theorem nodeWrite_phase (k : Nat) (r : NodeRec) (s : State) : (nodeWrite k r s).phase = s.phase := rfl
@[simp] theorem nodeWrite_empty (k : Nat) (r : NodeRec) (s : State) : (nodeWrite k r s).empty = s.empty := rfl
@[simp] theorem nodeWrite_indep (k : Nat) (r : NodeRec) (s : State) : (nodeWrite k r s).indep = s.indep := rfl
@[simp] theorem nodeWrite_cause (k : Nat) (r : NodeRec) (s : State) : (nodeWrite k r s).cause = s.cause := rfl
@[simp] theorem nodeWrite_fidx (k : Nat) (r : NodeRec) (s : State) : (nodeWrite k r s).fidx = s.fidx := rfl
@[simp] theorem nodeWrite_finfo (k : Nat) (r : NodeRec) (s : State) : (nodeWrite k r s).finfo = s.finfo := rfl
@[simp] theorem nodeWrite_nsym (k : Nat) (r : NodeRec) (s : State) : (nodeWrite k r s).nsym = s.nsym := rfl
@[simp] theorem nodeWrite_nleaf (k : Nat) (r : NodeRec) (s : State) : (nodeWrite k r s).nleaf = s.nleaf := rfl
@[simp] theorem nodeWrite_nnode (k : Nat) (r : NodeRec) (s : State) : (nodeWrite k r s).nnode = s.nnode := rfl
@[simp] theorem nodeWrite_root (k : Nat) (r : NodeRec) (s : State) : (nodeWrite k r s).root = s.root := rfl
@[simp] theorem nodeWrite_pqcnt (k : Nat) (r : NodeRec) (s : State) : (nodeWrite k r s).pqcnt = s.pqcnt := rfl
@[simp] theorem nodeWrite_bitcnt (k : Nat) (r : NodeRec) (s : State) : (nodeWrite k r s).bitcnt = s.bitcnt := rfl
@[simp] theorem nodeWrite_seq (k : Nat) (r : NodeRec) (s : State) : (nodeWrite k r s).seq = s.seq := rfl
@[simp] theorem nodeWrite_freq (k : Nat) (r : NodeRec) (s : State) : (nodeWrite k r s).freq = s.freq := rfl
@[simp] theorem nodeWrite_node (k : Nat) (r : NodeRec) (s : State) :
    (nodeWrite k r s).node = tabSet (unusedSlot s.cfg) s.node k r := rfl
@[simp] theorem nodeWrite_pq (k : Nat) (r : NodeRec) (s : State) : (nodeWrite k r s).pq = s.pq := rfl
@[simp] theorem nodeWrite_code (k : Nat) (r : NodeRec) (s : State) : (nodeWrite k r s).code = s.code := rfl
@[simp] theorem nodeWrite_scope (k : Nat) (r : NodeRec) (s : State) : (nodeWrite k r s).scope = s.scope := rfl
@[simp] theorem nodeWrite_plan (k : Nat) (r : NodeRec) (s : State) : (nodeWrite k r s).plan = s.plan := rfl
@[simp] theorem nodeWrite_log (k : Nat) (r : NodeRec) (s : State) : (nodeWrite k r s).log = s.log := rfl
@[simp] theorem nodeWrite_host (k : Nat) (r : NodeRec) (s : State) : (nodeWrite k r s).host = s.host := rfl

/-! ## codeWrite -/

@[simp] theorem codeWrite_cfg (v : Nat) (e : CodeEntry) (s : State) : (codeWrite v e s).cfg = s.cfg := rfl
@[simp] theorem codeWrite_phase (v : Nat) (e : CodeEntry) (s : State) : (codeWrite v e s).phase = s.phase := rfl
@[simp] theorem codeWrite_empty (v : Nat) (e : CodeEntry) (s : State) : (codeWrite v e s).empty = s.empty := rfl
@[simp] theorem codeWrite_indep (v : Nat) (e : CodeEntry) (s : State) : (codeWrite v e s).indep = s.indep := rfl
@[simp] theorem codeWrite_cause (v : Nat) (e : CodeEntry) (s : State) : (codeWrite v e s).cause = s.cause := rfl
@[simp] theorem codeWrite_fidx (v : Nat) (e : CodeEntry) (s : State) : (codeWrite v e s).fidx = s.fidx := rfl
@[simp] theorem codeWrite_finfo (v : Nat) (e : CodeEntry) (s : State) : (codeWrite v e s).finfo = s.finfo := rfl
@[simp] theorem codeWrite_nsym (v : Nat) (e : CodeEntry) (s : State) : (codeWrite v e s).nsym = s.nsym := rfl
@[simp] theorem codeWrite_nleaf (v : Nat) (e : CodeEntry) (s : State) : (codeWrite v e s).nleaf = s.nleaf := rfl
@[simp] theorem codeWrite_nnode (v : Nat) (e : CodeEntry) (s : State) : (codeWrite v e s).nnode = s.nnode := rfl
@[simp] theorem codeWrite_root (v : Nat) (e : CodeEntry) (s : State) : (codeWrite v e s).root = s.root := rfl
@[simp] theorem codeWrite_pqcnt (v : Nat) (e : CodeEntry) (s : State) : (codeWrite v e s).pqcnt = s.pqcnt := rfl
@[simp] theorem codeWrite_bitcnt (v : Nat) (e : CodeEntry) (s : State) : (codeWrite v e s).bitcnt = s.bitcnt := rfl
@[simp] theorem codeWrite_seq (v : Nat) (e : CodeEntry) (s : State) : (codeWrite v e s).seq = s.seq := rfl
@[simp] theorem codeWrite_freq (v : Nat) (e : CodeEntry) (s : State) : (codeWrite v e s).freq = s.freq := rfl
@[simp] theorem codeWrite_node (v : Nat) (e : CodeEntry) (s : State) : (codeWrite v e s).node = s.node := rfl
@[simp] theorem codeWrite_pq (v : Nat) (e : CodeEntry) (s : State) : (codeWrite v e s).pq = s.pq := rfl
@[simp] theorem codeWrite_code (v : Nat) (e : CodeEntry) (s : State) :
    (codeWrite v e s).code = tabSet noCode s.code v e := rfl
@[simp] theorem codeWrite_scope (v : Nat) (e : CodeEntry) (s : State) : (codeWrite v e s).scope = s.scope := rfl
@[simp] theorem codeWrite_plan (v : Nat) (e : CodeEntry) (s : State) : (codeWrite v e s).plan = s.plan := rfl
@[simp] theorem codeWrite_log (v : Nat) (e : CodeEntry) (s : State) : (codeWrite v e s).log = s.log := rfl
@[simp] theorem codeWrite_host (v : Nat) (e : CodeEntry) (s : State) : (codeWrite v e s).host = s.host := rfl

/-! ## pqInsert -/

@[simp] theorem pqInsert_cfg (k : Nat) (s : State) : (pqInsert k s).cfg = s.cfg := rfl
@[simp] theorem pqInsert_phase (k : Nat) (s : State) : (pqInsert k s).phase = s.phase := rfl
@[simp] theorem pqInsert_empty (k : Nat) (s : State) : (pqInsert k s).empty = s.empty := rfl
@[simp] theorem pqInsert_indep (k : Nat) (s : State) : (pqInsert k s).indep = s.indep := rfl
@[simp] theorem pqInsert_cause (k : Nat) (s : State) : (pqInsert k s).cause = s.cause := rfl
@[simp] theorem pqInsert_fidx (k : Nat) (s : State) : (pqInsert k s).fidx = s.fidx := rfl
@[simp] theorem pqInsert_finfo (k : Nat) (s : State) : (pqInsert k s).finfo = s.finfo := rfl
@[simp] theorem pqInsert_nsym (k : Nat) (s : State) : (pqInsert k s).nsym = s.nsym := rfl
@[simp] theorem pqInsert_nleaf (k : Nat) (s : State) : (pqInsert k s).nleaf = s.nleaf := rfl
@[simp] theorem pqInsert_nnode (k : Nat) (s : State) : (pqInsert k s).nnode = s.nnode := rfl
@[simp] theorem pqInsert_root (k : Nat) (s : State) : (pqInsert k s).root = s.root := rfl
@[simp] theorem pqInsert_pqcnt (k : Nat) (s : State) : (pqInsert k s).pqcnt = s.pqcnt + 1 := rfl
@[simp] theorem pqInsert_bitcnt (k : Nat) (s : State) : (pqInsert k s).bitcnt = s.bitcnt := rfl
@[simp] theorem pqInsert_seq (k : Nat) (s : State) : (pqInsert k s).seq = s.seq := rfl
@[simp] theorem pqInsert_freq (k : Nat) (s : State) : (pqInsert k s).freq = s.freq := rfl
@[simp] theorem pqInsert_node (k : Nat) (s : State) : (pqInsert k s).node = s.node := rfl
@[simp] theorem pqInsert_pq (k : Nat) (s : State) : (pqInsert k s).pq = insertIndex k s.pq := rfl
@[simp] theorem pqInsert_code (k : Nat) (s : State) : (pqInsert k s).code = s.code := rfl
@[simp] theorem pqInsert_scope (k : Nat) (s : State) : (pqInsert k s).scope = s.scope := rfl
@[simp] theorem pqInsert_plan (k : Nat) (s : State) : (pqInsert k s).plan = s.plan := rfl
@[simp] theorem pqInsert_log (k : Nat) (s : State) : (pqInsert k s).log = s.log := rfl
@[simp] theorem pqInsert_host (k : Nat) (s : State) : (pqInsert k s).host = s.host := rfl

/-! ## pqRemove -/

@[simp] theorem pqRemove_cfg (k : Nat) (s : State) : (pqRemove k s).cfg = s.cfg := rfl
@[simp] theorem pqRemove_phase (k : Nat) (s : State) : (pqRemove k s).phase = s.phase := rfl
@[simp] theorem pqRemove_empty (k : Nat) (s : State) : (pqRemove k s).empty = s.empty := rfl
@[simp] theorem pqRemove_indep (k : Nat) (s : State) : (pqRemove k s).indep = s.indep := rfl
@[simp] theorem pqRemove_cause (k : Nat) (s : State) : (pqRemove k s).cause = s.cause := rfl
@[simp] theorem pqRemove_fidx (k : Nat) (s : State) : (pqRemove k s).fidx = s.fidx := rfl
@[simp] theorem pqRemove_finfo (k : Nat) (s : State) : (pqRemove k s).finfo = s.finfo := rfl
@[simp] theorem pqRemove_nsym (k : Nat) (s : State) : (pqRemove k s).nsym = s.nsym := rfl
@[simp] theorem pqRemove_nleaf (k : Nat) (s : State) : (pqRemove k s).nleaf = s.nleaf := rfl
@[simp] theorem pqRemove_nnode (k : Nat) (s : State) : (pqRemove k s).nnode = s.nnode := rfl
@[simp] theorem pqRemove_root (k : Nat) (s : State) : (pqRemove k s).root = s.root := rfl
@[simp] theorem pqRemove_pqcnt (k : Nat) (s : State) : (pqRemove k s).pqcnt = s.pqcnt - 1 := rfl
@[simp] theorem pqRemove_bitcnt (k : Nat) (s : State) : (pqRemove k s).bitcnt = s.bitcnt := rfl
@[simp] theorem pqRemove_seq (k : Nat) (s : State) : (pqRemove k s).seq = s.seq := rfl
@[simp] theorem pqRemove_freq (k : Nat) (s : State) : (pqRemove k s).freq = s.freq := rfl
@[simp] theorem pqRemove_node (k : Nat) (s : State) : (pqRemove k s).node = s.node := rfl
@[simp] theorem pqRemove_pq (k : Nat) (s : State) : (pqRemove k s).pq = s.pq.erase k := rfl
@[simp] theorem pqRemove_code (k : Nat) (s : State) : (pqRemove k s).code = s.code := rfl
@[simp] theorem pqRemove_scope (k : Nat) (s : State) : (pqRemove k s).scope = s.scope := rfl
@[simp] theorem pqRemove_plan (k : Nat) (s : State) : (pqRemove k s).plan = s.plan := rfl
@[simp] theorem pqRemove_log (k : Nat) (s : State) : (pqRemove k s).log = s.log := rfl
@[simp] theorem pqRemove_host (k : Nat) (s : State) : (pqRemove k s).host = s.host := rfl

/-! ## sinkCall -/

@[simp] theorem sinkCall_cfg (c : SinkCall) (s : State) : (sinkCall c s).cfg = s.cfg := rfl
@[simp] theorem sinkCall_phase (c : SinkCall) (s : State) : (sinkCall c s).phase = s.phase := rfl
@[simp] theorem sinkCall_empty (c : SinkCall) (s : State) : (sinkCall c s).empty = s.empty := rfl
@[simp] theorem sinkCall_indep (c : SinkCall) (s : State) : (sinkCall c s).indep = s.indep := rfl
@[simp] theorem sinkCall_cause (c : SinkCall) (s : State) : (sinkCall c s).cause = s.cause := rfl
@[simp] theorem sinkCall_fidx (c : SinkCall) (s : State) : (sinkCall c s).fidx = s.fidx := rfl
@[simp] theorem sinkCall_finfo (c : SinkCall) (s : State) : (sinkCall c s).finfo = s.finfo := rfl
@[simp] theorem sinkCall_nsym (c : SinkCall) (s : State) : (sinkCall c s).nsym = s.nsym := rfl
@[simp] theorem sinkCall_nleaf (c : SinkCall) (s : State) : (sinkCall c s).nleaf = s.nleaf := rfl
@[simp] theorem sinkCall_nnode (c : SinkCall) (s : State) : (sinkCall c s).nnode = s.nnode := rfl
@[simp] theorem sinkCall_root (c : SinkCall) (s : State) : (sinkCall c s).root = s.root := rfl
@[simp] theorem sinkCall_pqcnt (c : SinkCall) (s : State) : (sinkCall c s).pqcnt = s.pqcnt := rfl
@[simp] theorem sinkCall_bitcnt (c : SinkCall) (s : State) : (sinkCall c s).bitcnt = s.bitcnt := rfl
@[simp] theorem sinkCall_seq (c : SinkCall) (s : State) : (sinkCall c s).seq = s.seq := rfl
@[simp] theorem sinkCall_freq (c : SinkCall) (s : State) : (sinkCall c s).freq = s.freq := rfl
@[simp] theorem sinkCall_node (c : SinkCall) (s : State) : (sinkCall c s).node = s.node := rfl
@[simp] theorem sinkCall_pq (c : SinkCall) (s : State) : (sinkCall c s).pq = s.pq := rfl
@[simp] theorem sinkCall_code (c : SinkCall) (s : State) : (sinkCall c s).code = s.code := rfl
@[simp] theorem sinkCall_scope (c : SinkCall) (s : State) : (sinkCall c s).scope = s.scope := rfl
@[simp] theorem sinkCall_plan (c : SinkCall) (s : State) : (sinkCall c s).plan = s.plan.tail := rfl
@[simp] theorem sinkCall_log (c : SinkCall) (s : State) :
    (sinkCall c s).log = s.log ++ [{ call := c, answer := sinkAnswer s c }] := rfl
@[simp] theorem sinkCall_host (c : SinkCall) (s : State) : (sinkCall c s).host = s.host := rfl

/-! ## countBit -/

@[simp] theorem countBit_cfg (s : State) : (countBit s).cfg = s.cfg := rfl
@[simp] theorem countBit_phase (s : State) : (countBit s).phase = s.phase := rfl
@[simp] theorem countBit_empty (s : State) : (countBit s).empty = s.empty := rfl
@[simp] theorem countBit_indep (s : State) : (countBit s).indep = s.indep := rfl
@[simp] theorem countBit_cause (s : State) : (countBit s).cause = s.cause := rfl
@[simp] theorem countBit_fidx (s : State) : (countBit s).fidx = s.fidx := rfl
@[simp] theorem countBit_finfo (s : State) : (countBit s).finfo = s.finfo := rfl
@[simp] theorem countBit_nsym (s : State) : (countBit s).nsym = s.nsym := rfl
@[simp] theorem countBit_nleaf (s : State) : (countBit s).nleaf = s.nleaf := rfl
@[simp] theorem countBit_nnode (s : State) : (countBit s).nnode = s.nnode := rfl
@[simp] theorem countBit_root (s : State) : (countBit s).root = s.root := rfl
@[simp] theorem countBit_pqcnt (s : State) : (countBit s).pqcnt = s.pqcnt := rfl
@[simp] theorem countBit_bitcnt (s : State) : (countBit s).bitcnt = addW s.cfg.wBits s.bitcnt 1 := rfl
@[simp] theorem countBit_seq (s : State) : (countBit s).seq = s.seq := rfl
@[simp] theorem countBit_freq (s : State) : (countBit s).freq = s.freq := rfl
@[simp] theorem countBit_node (s : State) : (countBit s).node = s.node := rfl
@[simp] theorem countBit_pq (s : State) : (countBit s).pq = s.pq := rfl
@[simp] theorem countBit_code (s : State) : (countBit s).code = s.code := rfl
@[simp] theorem countBit_scope (s : State) : (countBit s).scope = s.scope := rfl
@[simp] theorem countBit_plan (s : State) : (countBit s).plan = s.plan := rfl
@[simp] theorem countBit_log (s : State) : (countBit s).log = s.log := rfl
@[simp] theorem countBit_host (s : State) : (countBit s).host = s.host := rfl

/-! ## setPath -/

@[simp] theorem setPath_cfg (k : Nat) (p : List Bool) (s : State) : (setPath k p s).cfg = s.cfg := rfl
@[simp] theorem setPath_phase (k : Nat) (p : List Bool) (s : State) : (setPath k p s).phase = s.phase := rfl
@[simp] theorem setPath_empty (k : Nat) (p : List Bool) (s : State) : (setPath k p s).empty = s.empty := rfl
@[simp] theorem setPath_indep (k : Nat) (p : List Bool) (s : State) : (setPath k p s).indep = s.indep := rfl
@[simp] theorem setPath_cause (k : Nat) (p : List Bool) (s : State) : (setPath k p s).cause = s.cause := rfl
@[simp] theorem setPath_fidx (k : Nat) (p : List Bool) (s : State) : (setPath k p s).fidx = s.fidx := rfl
@[simp] theorem setPath_finfo (k : Nat) (p : List Bool) (s : State) : (setPath k p s).finfo = s.finfo := rfl
@[simp] theorem setPath_nsym (k : Nat) (p : List Bool) (s : State) : (setPath k p s).nsym = s.nsym := rfl
@[simp] theorem setPath_nleaf (k : Nat) (p : List Bool) (s : State) : (setPath k p s).nleaf = s.nleaf := rfl
@[simp] theorem setPath_nnode (k : Nat) (p : List Bool) (s : State) : (setPath k p s).nnode = s.nnode := rfl
@[simp] theorem setPath_root (k : Nat) (p : List Bool) (s : State) : (setPath k p s).root = s.root := rfl
@[simp] theorem setPath_pqcnt (k : Nat) (p : List Bool) (s : State) : (setPath k p s).pqcnt = s.pqcnt := rfl
@[simp] theorem setPath_bitcnt (k : Nat) (p : List Bool) (s : State) : (setPath k p s).bitcnt = s.bitcnt := rfl
@[simp] theorem setPath_seq (k : Nat) (p : List Bool) (s : State) : (setPath k p s).seq = s.seq := rfl
@[simp] theorem setPath_freq (k : Nat) (p : List Bool) (s : State) : (setPath k p s).freq = s.freq := rfl
@[simp] theorem setPath_node (k : Nat) (p : List Bool) (s : State) :
    (setPath k p s).node = tabSet (unusedSlot s.cfg) s.node k
      { nodeAt s k with pvalid := true, plen := p.length, pbits := packBits p } := rfl
@[simp] theorem setPath_pq (k : Nat) (p : List Bool) (s : State) : (setPath k p s).pq = s.pq := rfl
@[simp] theorem setPath_code (k : Nat) (p : List Bool) (s : State) : (setPath k p s).code = s.code := rfl
@[simp] theorem setPath_scope (k : Nat) (p : List Bool) (s : State) : (setPath k p s).scope = s.scope := rfl
@[simp] theorem setPath_plan (k : Nat) (p : List Bool) (s : State) : (setPath k p s).plan = s.plan := rfl
@[simp] theorem setPath_log (k : Nat) (p : List Bool) (s : State) : (setPath k p s).log = s.log := rfl
@[simp] theorem setPath_host (k : Nat) (p : List Bool) (s : State) : (setPath k p s).host = s.host := rfl

/-! ## newNode -/

@[simp] theorem newNode_cfg (r : NodeRec) (s : State) : (newNode r s).cfg = s.cfg := rfl
@[simp] theorem newNode_phase (r : NodeRec) (s : State) : (newNode r s).phase = s.phase := rfl
@[simp] theorem newNode_empty (r : NodeRec) (s : State) : (newNode r s).empty = s.empty := rfl
@[simp] theorem newNode_indep (r : NodeRec) (s : State) : (newNode r s).indep = s.indep := rfl
@[simp] theorem newNode_cause (r : NodeRec) (s : State) : (newNode r s).cause = s.cause := rfl
@[simp] theorem newNode_fidx (r : NodeRec) (s : State) : (newNode r s).fidx = s.fidx := rfl
@[simp] theorem newNode_finfo (r : NodeRec) (s : State) : (newNode r s).finfo = s.finfo := rfl
@[simp] theorem newNode_nsym (r : NodeRec) (s : State) : (newNode r s).nsym = s.nsym := rfl
@[simp] theorem newNode_nleaf (r : NodeRec) (s : State) : (newNode r s).nleaf = s.nleaf := rfl
@[simp] theorem newNode_nnode (r : NodeRec) (s : State) : (newNode r s).nnode = s.nnode + 1 := rfl
@[simp] theorem newNode_root (r : NodeRec) (s : State) : (newNode r s).root = s.root := rfl
@[simp] theorem newNode_pqcnt (r : NodeRec) (s : State) : (newNode r s).pqcnt = s.pqcnt + 1 := rfl
@[simp] theorem newNode_bitcnt (r : NodeRec) (s : State) : (newNode r s).bitcnt = s.bitcnt := rfl
@[simp] theorem newNode_seq (r : NodeRec) (s : State) : (newNode r s).seq = s.seq := rfl
@[simp] theorem newNode_freq (r : NodeRec) (s : State) : (newNode r s).freq = s.freq := rfl
@[simp] theorem newNode_node (r : NodeRec) (s : State) :
    (newNode r s).node = tabSet (unusedSlot s.cfg) s.node s.nnode r := rfl
@[simp] theorem newNode_pq (r : NodeRec) (s : State) : (newNode r s).pq = insertIndex s.nnode s.pq := rfl
@[simp] theorem newNode_code (r : NodeRec) (s : State) : (newNode r s).code = s.code := rfl
@[simp] theorem newNode_scope (r : NodeRec) (s : State) : (newNode r s).scope = s.scope := rfl
@[simp] theorem newNode_plan (r : NodeRec) (s : State) : (newNode r s).plan = s.plan := rfl
@[simp] theorem newNode_log (r : NodeRec) (s : State) : (newNode r s).log = s.log := rfl
@[simp] theorem newNode_host (r : NodeRec) (s : State) : (newNode r s).host = s.host := rfl

/-! ## setPhase -/

@[simp] theorem setPhase_cfg (ph : Phase) (s : State) : (setPhase ph s).cfg = s.cfg := rfl
@[simp] theorem setPhase_phase (ph : Phase) (s : State) : (setPhase ph s).phase = ph := rfl
@[simp] theorem setPhase_empty (ph : Phase) (s : State) : (setPhase ph s).empty = s.empty := rfl
@[simp] theorem setPhase_indep (ph : Phase) (s : State) : (setPhase ph s).indep = s.indep := rfl
@[simp] theorem setPhase_cause (ph : Phase) (s : State) : (setPhase ph s).cause = s.cause := rfl
@[simp] theorem setPhase_fidx (ph : Phase) (s : State) : (setPhase ph s).fidx = s.fidx := rfl
@[simp] theorem setPhase_finfo (ph : Phase) (s : State) : (setPhase ph s).finfo = s.finfo := rfl
@[simp] theorem setPhase_nsym (ph : Phase) (s : State) : (setPhase ph s).nsym = s.nsym := rfl
@[simp] theorem setPhase_nleaf (ph : Phase) (s : State) : (setPhase ph s).nleaf = s.nleaf := rfl
@[simp] theorem setPhase_nnode (ph : Phase) (s : State) : (setPhase ph s).nnode = s.nnode := rfl
@[simp] theorem setPhase_root (ph : Phase) (s : State) : (setPhase ph s).root = s.root := rfl
@[simp] theorem setPhase_pqcnt (ph : Phase) (s : State) : (setPhase ph s).pqcnt = s.pqcnt := rfl
@[simp] theorem setPhase_bitcnt (ph : Phase) (s : State) : (setPhase ph s).bitcnt = s.bitcnt := rfl
@[simp] theorem setPhase_seq (ph : Phase) (s : State) : (setPhase ph s).seq = s.seq := rfl
@[simp] theorem setPhase_freq (ph : Phase) (s : State) : (setPhase ph s).freq = s.freq := rfl
@[simp] theorem setPhase_node (ph : Phase) (s : State) : (setPhase ph s).node = s.node := rfl
@[simp] theorem setPhase_pq (ph : Phase) (s : State) : (setPhase ph s).pq = s.pq := rfl
@[simp] theorem setPhase_code (ph : Phase) (s : State) : (setPhase ph s).code = s.code := rfl
@[simp] theorem setPhase_scope (ph : Phase) (s : State) : (setPhase ph s).scope = s.scope := rfl
@[simp] theorem setPhase_plan (ph : Phase) (s : State) : (setPhase ph s).plan = s.plan := rfl
@[simp] theorem setPhase_log (ph : Phase) (s : State) : (setPhase ph s).log = s.log := rfl
@[simp] theorem setPhase_host (ph : Phase) (s : State) : (setPhase ph s).host = s.host := rfl

/-! ## clearFreq -/

@[simp] theorem clearFreq_cfg (s : State) : (clearFreq s).cfg = s.cfg := rfl
@[simp] theorem clearFreq_phase (s : State) : (clearFreq s).phase = s.phase := rfl
@[simp] theorem clearFreq_empty (s : State) : (clearFreq s).empty = s.empty := rfl
@[simp] theorem clearFreq_indep (s : State) : (clearFreq s).indep = s.indep := rfl
@[simp] theorem clearFreq_cause (s : State) : (clearFreq s).cause = s.cause := rfl
@[simp] theorem clearFreq_fidx (s : State) : (clearFreq s).fidx = s.fidx := rfl
@[simp] theorem clearFreq_finfo (s : State) : (clearFreq s).finfo = s.finfo := rfl
@[simp] theorem clearFreq_nsym (s : State) : (clearFreq s).nsym = s.nsym := rfl
@[simp] theorem clearFreq_nleaf (s : State) : (clearFreq s).nleaf = s.nleaf := rfl
@[simp] theorem clearFreq_nnode (s : State) : (clearFreq s).nnode = s.nnode := rfl
@[simp] theorem clearFreq_root (s : State) : (clearFreq s).root = s.root := rfl
@[simp] theorem clearFreq_pqcnt (s : State) : (clearFreq s).pqcnt = s.pqcnt := rfl
@[simp] theorem clearFreq_bitcnt (s : State) : (clearFreq s).bitcnt = s.bitcnt := rfl
@[simp] theorem clearFreq_seq (s : State) : (clearFreq s).seq = s.seq := rfl
@[simp] theorem clearFreq_freq (s : State) : (clearFreq s).freq = [] := rfl
@[simp] theorem clearFreq_node (s : State) : (clearFreq s).node = s.node := rfl
@[simp] theorem clearFreq_pq (s : State) : (clearFreq s).pq = s.pq := rfl
@[simp] theorem clearFreq_code (s : State) : (clearFreq s).code = s.code := rfl
@[simp] theorem clearFreq_scope (s : State) : (clearFreq s).scope = s.scope := rfl
@[simp] theorem clearFreq_plan (s : State) : (clearFreq s).plan = s.plan := rfl
@[simp] theorem clearFreq_log (s : State) : (clearFreq s).log = s.log := rfl
@[simp] theorem clearFreq_host (s : State) : (clearFreq s).host = s.host := rfl

/-! ## countDone -/

@[simp] theorem countDone_cfg (s : State) : (countDone s).cfg = s.cfg := rfl
@[simp] theorem countDone_phase (s : State) : (countDone s).phase = .counted := rfl
@[simp] theorem countDone_empty (s : State) : (countDone s).empty = emptyFlag s.nsym := rfl
@[simp] theorem countDone_indep (s : State) : (countDone s).indep = s.indep := rfl
@[simp] theorem countDone_cause (s : State) : (countDone s).cause = s.cause := rfl
@[simp] theorem countDone_fidx (s : State) : (countDone s).fidx = s.fidx := rfl
@[simp] theorem countDone_finfo (s : State) : (countDone s).finfo = s.finfo := rfl
@[simp] theorem countDone_nsym (s : State) : (countDone s).nsym = s.nsym := rfl
@[simp] theorem countDone_nleaf (s : State) : (countDone s).nleaf = s.nleaf := rfl
@[simp] theorem countDone_nnode (s : State) : (countDone s).nnode = s.nnode := rfl
@[simp] theorem countDone_root (s : State) : (countDone s).root = s.root := rfl
@[simp] theorem countDone_pqcnt (s : State) : (countDone s).pqcnt = s.pqcnt := rfl
@[simp] theorem countDone_bitcnt (s : State) : (countDone s).bitcnt = s.bitcnt := rfl
@[simp] theorem countDone_seq (s : State) : (countDone s).seq = s.seq := rfl
@[simp] theorem countDone_freq (s : State) : (countDone s).freq = s.freq := rfl
@[simp] theorem countDone_node (s : State) : (countDone s).node = s.node := rfl
@[simp] theorem countDone_pq (s : State) : (countDone s).pq = s.pq := rfl
@[simp] theorem countDone_code (s : State) : (countDone s).code = s.code := rfl
@[simp] theorem countDone_scope (s : State) : (countDone s).scope = s.scope := rfl
@[simp] theorem countDone_plan (s : State) : (countDone s).plan = s.plan := rfl
@[simp] theorem countDone_log (s : State) : (countDone s).log = s.log := rfl
@[simp] theorem countDone_host (s : State) : (countDone s).host = s.host := rfl

/-! ## startBuild -/

@[simp] theorem startBuild_cfg (s : State) : (startBuild s).cfg = s.cfg := rfl
@[simp] theorem startBuild_phase (s : State) : (startBuild s).phase = s.phase := rfl
@[simp] theorem startBuild_empty (s : State) : (startBuild s).empty = s.empty := rfl
@[simp] theorem startBuild_indep (s : State) : (startBuild s).indep = s.indep := rfl
@[simp] theorem startBuild_cause (s : State) : (startBuild s).cause = s.cause := rfl
@[simp] theorem startBuild_fidx (s : State) : (startBuild s).fidx = s.fidx := rfl
@[simp] theorem startBuild_finfo (s : State) : (startBuild s).finfo = s.finfo := rfl
@[simp] theorem startBuild_nsym (s : State) : (startBuild s).nsym = s.nsym := rfl
@[simp] theorem startBuild_nleaf (s : State) : (startBuild s).nleaf = s.nleaf := rfl
@[simp] theorem startBuild_nnode (s : State) : (startBuild s).nnode = 0 := rfl
@[simp] theorem startBuild_root (s : State) : (startBuild s).root = s.root := rfl
@[simp] theorem startBuild_pqcnt (s : State) : (startBuild s).pqcnt = 0 := rfl
@[simp] theorem startBuild_bitcnt (s : State) : (startBuild s).bitcnt = s.bitcnt := rfl
@[simp] theorem startBuild_seq (s : State) : (startBuild s).seq = s.seq := rfl
@[simp] theorem startBuild_freq (s : State) : (startBuild s).freq = s.freq := rfl
@[simp] theorem startBuild_node (s : State) : (startBuild s).node = s.node := rfl
@[simp] theorem startBuild_pq (s : State) : (startBuild s).pq = [] := rfl
@[simp] theorem startBuild_code (s : State) : (startBuild s).code = s.code := rfl
@[simp] theorem startBuild_scope (s : State) : (startBuild s).scope = s.scope := rfl
@[simp] theorem startBuild_plan (s : State) : (startBuild s).plan = s.plan := rfl
@[simp] theorem startBuild_log (s : State) : (startBuild s).log = s.log := rfl
@[simp] theorem startBuild_host (s : State) : (startBuild s).host = s.host := rfl

/-! ## countLeaves -/

@[simp] theorem countLeaves_cfg (s : State) : (countLeaves s).cfg = s.cfg := rfl
@[simp] theorem countLeaves_phase (s : State) : (countLeaves s).phase = s.phase := rfl
@[simp] theorem countLeaves_empty (s : State) : (countLeaves s).empty = s.empty := rfl
@[simp] theorem countLeaves_indep (s : State) : (countLeaves s).indep = s.indep := rfl
@[simp] theorem countLeaves_cause (s : State) : (countLeaves s).cause = s.cause := rfl
@[simp] theorem countLeaves_fidx (s : State) : (countLeaves s).fidx = s.fidx := rfl
@[simp] theorem countLeaves_finfo (s : State) : (countLeaves s).finfo = s.finfo := rfl
@[simp] theorem countLeaves_nsym (s : State) : (countLeaves s).nsym = s.nsym := rfl
@[simp] theorem countLeaves_nleaf (s : State) : (countLeaves s).nleaf = s.nnode := rfl
@[simp] theorem countLeaves_nnode (s : State) : (countLeaves s).nnode = s.nnode := rfl
@[simp] theorem countLeaves_root (s : State) : (countLeaves s).root = s.root := rfl
@[simp] theorem countLeaves_pqcnt (s : State) : (countLeaves s).pqcnt = s.pqcnt := rfl
@[simp] theorem countLeaves_bitcnt (s : State) : (countLeaves s).bitcnt = s.bitcnt := rfl
@[simp] theorem countLeaves_seq (s : State) : (countLeaves s).seq = s.seq := rfl
@[simp] theorem countLeaves_freq (s : State) : (countLeaves s).freq = s.freq := rfl
@[simp] theorem countLeaves_node (s : State) : (countLeaves s).node = s.node := rfl
@[simp] theorem countLeaves_pq (s : State) : (countLeaves s).pq = s.pq := rfl
@[simp] theorem countLeaves_code (s : State) : (countLeaves s).code = s.code := rfl
@[simp] theorem countLeaves_scope (s : State) : (countLeaves s).scope = s.scope := rfl
@[simp] theorem countLeaves_plan (s : State) : (countLeaves s).plan = s.plan := rfl
@[simp] theorem countLeaves_log (s : State) : (countLeaves s).log = s.log := rfl
@[simp] theorem countLeaves_host (s : State) : (countLeaves s).host = s.host := rfl

/-! ## buildResult -/

@[simp] theorem buildResult_cfg (s : State) : (buildResult s).cfg = s.cfg := rfl
@[simp] theorem buildResult_phase (s : State) : (buildResult s).phase = .built := rfl
@[simp] theorem buildResult_empty (s : State) : (buildResult s).empty = s.empty := rfl
@[simp] theorem buildResult_indep (s : State) : (buildResult s).indep = s.indep := rfl
@[simp] theorem buildResult_cause (s : State) : (buildResult s).cause = s.cause := rfl
@[simp] theorem buildResult_fidx (s : State) : (buildResult s).fidx = s.fidx := rfl
@[simp] theorem buildResult_finfo (s : State) : (buildResult s).finfo = s.finfo := rfl
@[simp] theorem buildResult_nsym (s : State) : (buildResult s).nsym = s.nsym := rfl
@[simp] theorem buildResult_nleaf (s : State) : (buildResult s).nleaf = s.nleaf := rfl
@[simp] theorem buildResult_nnode (s : State) : (buildResult s).nnode = s.nnode := rfl
@[simp] theorem buildResult_root (s : State) :
    (buildResult s).root = if s.pqcnt = 1 then s.pq.headD s.cfg.noNode else s.cfg.noNode := rfl
@[simp] theorem buildResult_pqcnt (s : State) : (buildResult s).pqcnt = s.pqcnt := rfl
@[simp] theorem buildResult_bitcnt (s : State) : (buildResult s).bitcnt = s.bitcnt := rfl
@[simp] theorem buildResult_seq (s : State) : (buildResult s).seq = s.seq := rfl
@[simp] theorem buildResult_freq (s : State) : (buildResult s).freq = s.freq := rfl
@[simp] theorem buildResult_node (s : State) : (buildResult s).node = s.node := rfl
@[simp] theorem buildResult_pq (s : State) : (buildResult s).pq = s.pq := rfl
@[simp] theorem buildResult_code (s : State) : (buildResult s).code = s.code := rfl
@[simp] theorem buildResult_scope (s : State) : (buildResult s).scope = s.scope := rfl
@[simp] theorem buildResult_plan (s : State) : (buildResult s).plan = s.plan := rfl
@[simp] theorem buildResult_log (s : State) : (buildResult s).log = s.log := rfl
@[simp] theorem buildResult_host (s : State) : (buildResult s).host = s.host := rfl

/-! ## clearCode -/

@[simp] theorem clearCode_cfg (s : State) : (clearCode s).cfg = s.cfg := rfl
@[simp] theorem clearCode_phase (s : State) : (clearCode s).phase = s.phase := rfl
@[simp] theorem clearCode_empty (s : State) : (clearCode s).empty = s.empty := rfl
@[simp] theorem clearCode_indep (s : State) : (clearCode s).indep = s.indep := rfl
@[simp] theorem clearCode_cause (s : State) : (clearCode s).cause = s.cause := rfl
@[simp] theorem clearCode_fidx (s : State) : (clearCode s).fidx = s.fidx := rfl
@[simp] theorem clearCode_finfo (s : State) : (clearCode s).finfo = s.finfo := rfl
@[simp] theorem clearCode_nsym (s : State) : (clearCode s).nsym = s.nsym := rfl
@[simp] theorem clearCode_nleaf (s : State) : (clearCode s).nleaf = s.nleaf := rfl
@[simp] theorem clearCode_nnode (s : State) : (clearCode s).nnode = s.nnode := rfl
@[simp] theorem clearCode_root (s : State) : (clearCode s).root = s.root := rfl
@[simp] theorem clearCode_pqcnt (s : State) : (clearCode s).pqcnt = s.pqcnt := rfl
@[simp] theorem clearCode_bitcnt (s : State) : (clearCode s).bitcnt = s.bitcnt := rfl
@[simp] theorem clearCode_seq (s : State) : (clearCode s).seq = s.seq := rfl
@[simp] theorem clearCode_freq (s : State) : (clearCode s).freq = s.freq := rfl
@[simp] theorem clearCode_node (s : State) : (clearCode s).node = s.node := rfl
@[simp] theorem clearCode_pq (s : State) : (clearCode s).pq = s.pq := rfl
@[simp] theorem clearCode_code (s : State) : (clearCode s).code = [] := rfl
@[simp] theorem clearCode_scope (s : State) : (clearCode s).scope = s.scope := rfl
@[simp] theorem clearCode_plan (s : State) : (clearCode s).plan = s.plan := rfl
@[simp] theorem clearCode_log (s : State) : (clearCode s).log = s.log := rfl
@[simp] theorem clearCode_host (s : State) : (clearCode s).host = s.host := rfl

/-! ## openScope -/

@[simp] theorem openScope_cfg (s : State) : (openScope s).cfg = s.cfg := rfl
@[simp] theorem openScope_phase (s : State) : (openScope s).phase = s.phase := rfl
@[simp] theorem openScope_empty (s : State) : (openScope s).empty = s.empty := rfl
@[simp] theorem openScope_indep (s : State) : (openScope s).indep = s.indep := rfl
@[simp] theorem openScope_cause (s : State) : (openScope s).cause = s.cause := rfl
@[simp] theorem openScope_fidx (s : State) : (openScope s).fidx = s.fidx := rfl
@[simp] theorem openScope_finfo (s : State) : (openScope s).finfo = s.finfo := rfl
@[simp] theorem openScope_nsym (s : State) : (openScope s).nsym = s.nsym := rfl
@[simp] theorem openScope_nleaf (s : State) : (openScope s).nleaf = s.nleaf := rfl
@[simp] theorem openScope_nnode (s : State) : (openScope s).nnode = s.nnode := rfl
@[simp] theorem openScope_root (s : State) : (openScope s).root = s.root := rfl
@[simp] theorem openScope_pqcnt (s : State) : (openScope s).pqcnt = s.pqcnt := rfl
@[simp] theorem openScope_bitcnt (s : State) : (openScope s).bitcnt = 0 := rfl
@[simp] theorem openScope_seq (s : State) : (openScope s).seq = s.seq := rfl
@[simp] theorem openScope_freq (s : State) : (openScope s).freq = s.freq := rfl
@[simp] theorem openScope_node (s : State) : (openScope s).node = s.node := rfl
@[simp] theorem openScope_pq (s : State) : (openScope s).pq = s.pq := rfl
@[simp] theorem openScope_code (s : State) : (openScope s).code = s.code := rfl
@[simp] theorem openScope_scope (s : State) : (openScope s).scope = true := rfl
@[simp] theorem openScope_plan (s : State) : (openScope s).plan = s.plan := rfl
@[simp] theorem openScope_log (s : State) : (openScope s).log = s.log := rfl
@[simp] theorem openScope_host (s : State) : (openScope s).host = s.host := rfl

/-! ## closeScope -/

@[simp] theorem closeScope_cfg (s : State) : (closeScope s).cfg = s.cfg := rfl
@[simp] theorem closeScope_phase (s : State) : (closeScope s).phase = s.phase := rfl
@[simp] theorem closeScope_empty (s : State) : (closeScope s).empty = s.empty := rfl
@[simp] theorem closeScope_indep (s : State) : (closeScope s).indep = s.indep := rfl
@[simp] theorem closeScope_cause (s : State) : (closeScope s).cause = s.cause := rfl
@[simp] theorem closeScope_fidx (s : State) : (closeScope s).fidx = s.fidx := rfl
@[simp] theorem closeScope_finfo (s : State) : (closeScope s).finfo = s.finfo := rfl
@[simp] theorem closeScope_nsym (s : State) : (closeScope s).nsym = s.nsym := rfl
@[simp] theorem closeScope_nleaf (s : State) : (closeScope s).nleaf = s.nleaf := rfl
@[simp] theorem closeScope_nnode (s : State) : (closeScope s).nnode = s.nnode := rfl
@[simp] theorem closeScope_root (s : State) : (closeScope s).root = s.root := rfl
@[simp] theorem closeScope_pqcnt (s : State) : (closeScope s).pqcnt = s.pqcnt := rfl
@[simp] theorem closeScope_bitcnt (s : State) : (closeScope s).bitcnt = s.bitcnt := rfl
@[simp] theorem closeScope_seq (s : State) : (closeScope s).seq = s.seq := rfl
@[simp] theorem closeScope_freq (s : State) : (closeScope s).freq = s.freq := rfl
@[simp] theorem closeScope_node (s : State) : (closeScope s).node = s.node := rfl
@[simp] theorem closeScope_pq (s : State) : (closeScope s).pq = s.pq := rfl
@[simp] theorem closeScope_code (s : State) : (closeScope s).code = s.code := rfl
@[simp] theorem closeScope_scope (s : State) : (closeScope s).scope = false := rfl
@[simp] theorem closeScope_plan (s : State) : (closeScope s).plan = s.plan := rfl
@[simp] theorem closeScope_log (s : State) : (closeScope s).log = s.log := rfl
@[simp] theorem closeScope_host (s : State) : (closeScope s).host = s.host := rfl

/-! ## appendSymbol -/

@[simp] theorem appendSymbol_cfg (imm : Byte) (s : State) : (appendSymbol imm s).cfg = s.cfg := rfl
@[simp] theorem appendSymbol_phase (imm : Byte) (s : State) : (appendSymbol imm s).phase = s.phase := rfl
@[simp] theorem appendSymbol_empty (imm : Byte) (s : State) : (appendSymbol imm s).empty = s.empty := rfl
@[simp] theorem appendSymbol_indep (imm : Byte) (s : State) :
    (appendSymbol imm s).indep = indepAfterLds s.phase s.indep := rfl
@[simp] theorem appendSymbol_cause (imm : Byte) (s : State) : (appendSymbol imm s).cause = s.cause := rfl
@[simp] theorem appendSymbol_fidx (imm : Byte) (s : State) : (appendSymbol imm s).fidx = s.fidx := rfl
@[simp] theorem appendSymbol_finfo (imm : Byte) (s : State) : (appendSymbol imm s).finfo = s.finfo := rfl
@[simp] theorem appendSymbol_nsym (imm : Byte) (s : State) :
    (appendSymbol imm s).nsym = addW s.cfg.wLen s.nsym 1 := rfl
@[simp] theorem appendSymbol_nleaf (imm : Byte) (s : State) : (appendSymbol imm s).nleaf = s.nleaf := rfl
@[simp] theorem appendSymbol_nnode (imm : Byte) (s : State) : (appendSymbol imm s).nnode = s.nnode := rfl
@[simp] theorem appendSymbol_root (imm : Byte) (s : State) : (appendSymbol imm s).root = s.root := rfl
@[simp] theorem appendSymbol_pqcnt (imm : Byte) (s : State) : (appendSymbol imm s).pqcnt = s.pqcnt := rfl
@[simp] theorem appendSymbol_bitcnt (imm : Byte) (s : State) : (appendSymbol imm s).bitcnt = s.bitcnt := rfl
@[simp] theorem appendSymbol_seq (imm : Byte) (s : State) :
    (appendSymbol imm s).seq = Memory.write s.seq s.nsym imm := rfl
@[simp] theorem appendSymbol_freq (imm : Byte) (s : State) : (appendSymbol imm s).freq = s.freq := rfl
@[simp] theorem appendSymbol_node (imm : Byte) (s : State) : (appendSymbol imm s).node = s.node := rfl
@[simp] theorem appendSymbol_pq (imm : Byte) (s : State) : (appendSymbol imm s).pq = s.pq := rfl
@[simp] theorem appendSymbol_code (imm : Byte) (s : State) : (appendSymbol imm s).code = s.code := rfl
@[simp] theorem appendSymbol_scope (imm : Byte) (s : State) : (appendSymbol imm s).scope = s.scope := rfl
@[simp] theorem appendSymbol_plan (imm : Byte) (s : State) : (appendSymbol imm s).plan = s.plan := rfl
@[simp] theorem appendSymbol_log (imm : Byte) (s : State) : (appendSymbol imm s).log = s.log := rfl
@[simp] theorem appendSymbol_host (imm : Byte) (s : State) : (appendSymbol imm s).host = s.host := rfl

/-! ## seqclrBody -/

@[simp] theorem seqclrBody_cfg (s : State) : (seqclrBody s).cfg = s.cfg := rfl
@[simp] theorem seqclrBody_phase (s : State) : (seqclrBody s).phase = phaseAfterSeqclr s.phase := rfl
@[simp] theorem seqclrBody_empty (s : State) : (seqclrBody s).empty = s.empty := rfl
@[simp] theorem seqclrBody_indep (s : State) : (seqclrBody s).indep = indepAfterSeqclr s.phase s.indep := rfl
@[simp] theorem seqclrBody_cause (s : State) : (seqclrBody s).cause = s.cause := rfl
@[simp] theorem seqclrBody_fidx (s : State) : (seqclrBody s).fidx = s.fidx := rfl
@[simp] theorem seqclrBody_finfo (s : State) : (seqclrBody s).finfo = s.finfo := rfl
@[simp] theorem seqclrBody_nsym (s : State) : (seqclrBody s).nsym = 0 := rfl
@[simp] theorem seqclrBody_nleaf (s : State) : (seqclrBody s).nleaf = s.nleaf := rfl
@[simp] theorem seqclrBody_nnode (s : State) : (seqclrBody s).nnode = s.nnode := rfl
@[simp] theorem seqclrBody_root (s : State) : (seqclrBody s).root = s.root := rfl
@[simp] theorem seqclrBody_pqcnt (s : State) : (seqclrBody s).pqcnt = s.pqcnt := rfl
@[simp] theorem seqclrBody_bitcnt (s : State) : (seqclrBody s).bitcnt = s.bitcnt := rfl
@[simp] theorem seqclrBody_seq (s : State) : (seqclrBody s).seq = s.seq := rfl
@[simp] theorem seqclrBody_freq (s : State) : (seqclrBody s).freq = s.freq := rfl
@[simp] theorem seqclrBody_node (s : State) : (seqclrBody s).node = s.node := rfl
@[simp] theorem seqclrBody_pq (s : State) : (seqclrBody s).pq = s.pq := rfl
@[simp] theorem seqclrBody_code (s : State) : (seqclrBody s).code = s.code := rfl
@[simp] theorem seqclrBody_scope (s : State) : (seqclrBody s).scope = s.scope := rfl
@[simp] theorem seqclrBody_plan (s : State) : (seqclrBody s).plan = s.plan := rfl
@[simp] theorem seqclrBody_log (s : State) : (seqclrBody s).log = s.log := rfl
@[simp] theorem seqclrBody_host (s : State) : (seqclrBody s).host = s.host := rfl

/-! ## resetEngine -/

@[simp] theorem resetEngine_cfg (s : State) : (resetEngine s).cfg = s.cfg := rfl
@[simp] theorem resetEngine_phase (s : State) : (resetEngine s).phase = .load := rfl
@[simp] theorem resetEngine_empty (s : State) : (resetEngine s).empty = false := rfl
@[simp] theorem resetEngine_indep (s : State) : (resetEngine s).indep = false := rfl
@[simp] theorem resetEngine_cause (s : State) : (resetEngine s).cause = .none := rfl
@[simp] theorem resetEngine_fidx (s : State) : (resetEngine s).fidx = 0 := rfl
@[simp] theorem resetEngine_finfo (s : State) : (resetEngine s).finfo = 0#16 := rfl
@[simp] theorem resetEngine_nsym (s : State) : (resetEngine s).nsym = 0 := rfl
@[simp] theorem resetEngine_nleaf (s : State) : (resetEngine s).nleaf = 0 := rfl
@[simp] theorem resetEngine_nnode (s : State) : (resetEngine s).nnode = 0 := rfl
@[simp] theorem resetEngine_root (s : State) : (resetEngine s).root = s.cfg.noNode := rfl
@[simp] theorem resetEngine_pqcnt (s : State) : (resetEngine s).pqcnt = 0 := rfl
@[simp] theorem resetEngine_bitcnt (s : State) : (resetEngine s).bitcnt = 0 := rfl
@[simp] theorem resetEngine_seq (s : State) : (resetEngine s).seq = s.seq := rfl
@[simp] theorem resetEngine_freq (s : State) : (resetEngine s).freq = [] := rfl
@[simp] theorem resetEngine_node (s : State) : (resetEngine s).node = [] := rfl
@[simp] theorem resetEngine_pq (s : State) : (resetEngine s).pq = [] := rfl
@[simp] theorem resetEngine_code (s : State) : (resetEngine s).code = [] := rfl
@[simp] theorem resetEngine_scope (s : State) : (resetEngine s).scope = false := rfl
@[simp] theorem resetEngine_plan (s : State) : (resetEngine s).plan = s.plan := rfl
@[simp] theorem resetEngine_log (s : State) : (resetEngine s).log = s.log := rfl
@[simp] theorem resetEngine_host (s : State) : (resetEngine s).host = s.host := rfl

end Sys2Proof.Machine
end

