-- ==== Sys2Proof/Laws/Table.lean ====
section
/-! SUPPORT. Laws/Table.lean: the laws of tables addressed by entry: read after write, and the canonical form that every
operation keeps. -/

namespace Sys2Proof.Machine

section
variable {α : Type}

@[simp] theorem tabGet_nil (d : α) (a : Nat) : tabGet d [] a = d := rfl

theorem tabGet_tabErase_same (d : α) (t : Tab α) (a : Nat) : tabGet d (tabErase a t) a = d := by
  induction t with
  | nil => rfl
  | cons e t ih =>
    simp only [tabErase]
    split
    · exact ih
    · rename_i h
      simpa [tabGet, h] using ih

theorem tabGet_tabErase_other (d : α) (t : Tab α) {a b : Nat} (h : b ≠ a) :
    tabGet d (tabErase a t) b = tabGet d t b := by
  induction t with
  | nil => rfl
  | cons e t ih =>
    simp only [tabErase]
    split
    · rename_i he
      have : e.1 ≠ b := by omega
      simp [tabGet, this, ih]
    · simp only [tabGet, ih]

theorem tabGet_tabInsert_other (d : α) (t : Tab α) {a b : Nat} (v : α) (h : b ≠ a) :
    tabGet d (tabInsert a v t) b = tabGet d t b := by
  induction t with
  | nil => simp [tabInsert, tabGet, Ne.symm h]
  | cons e t ih =>
    simp only [tabInsert]
    split
    · simp [tabGet, Ne.symm h]
    · simp only [tabGet, ih]

theorem mem_tabErase (t : Tab α) (a : Nat) (e : Nat × α) : e ∈ tabErase a t ↔ e ∈ t ∧ e.1 ≠ a := by
  induction t with
  | nil => simp [tabErase]
  | cons x t ih =>
    simp only [tabErase]
    split
    · rename_i h
      rw [ih, List.mem_cons]
      constructor
      · exact fun ⟨h₁, h₂⟩ => ⟨.inr h₁, h₂⟩
      · rintro ⟨rfl | h₁, h₂⟩
        · exact absurd h h₂
        · exact ⟨h₁, h₂⟩
    · rename_i h
      simp only [List.mem_cons, ih]
      constructor
      · rintro (rfl | ⟨h₁, h₂⟩)
        · exact ⟨.inl rfl, h⟩
        · exact ⟨.inr h₁, h₂⟩
      · rintro ⟨rfl | h₁, h₂⟩
        · exact .inl rfl
        · exact .inr ⟨h₁, h₂⟩

theorem mem_tabInsert (t : Tab α) (a : Nat) (v : α) (e : Nat × α) : e ∈ tabInsert a v t ↔ e = (a, v) ∨ e ∈ t := by
  induction t with
  | nil => simp [tabInsert]
  | cons x t ih =>
    simp only [tabInsert]
    split
    · simp
    · rw [List.mem_cons, ih, List.mem_cons]
      tauto

theorem tabGet_tabInsert_same (d : α) (t : Tab α) (a : Nat) (v : α) (h : ∀ e ∈ t, e.1 ≠ a) :
    tabGet d (tabInsert a v t) a = v := by
  induction t with
  | nil => simp [tabInsert, tabGet]
  | cons e t ih =>
    simp only [tabInsert]
    split
    · simp [tabGet]
    · have he : e.1 ≠ a := h e (by simp)
      have ht : ∀ e ∈ t, e.1 ≠ a := fun x hx => h x (by simp [hx])
      simp [tabGet, he, ih ht]

theorem tabErase_sorted (t : Tab α) (a : Nat) (h : t.Pairwise (fun x y => x.1 < y.1)) :
    (tabErase a t).Pairwise (fun x y => x.1 < y.1) := by
  induction t with
  | nil => simp [tabErase]
  | cons x t ih =>
    rw [List.pairwise_cons] at h
    simp only [tabErase]
    split
    · exact ih h.2
    · exact List.pairwise_cons.2 ⟨fun e he => h.1 e ((mem_tabErase t a e).1 he).1, ih h.2⟩

theorem tabInsert_sorted (t : Tab α) (a : Nat) (v : α) (hs : t.Pairwise (fun x y => x.1 < y.1))
    (ha : ∀ e ∈ t, e.1 ≠ a) : (tabInsert a v t).Pairwise (fun x y => x.1 < y.1) := by
  induction t with
  | nil => simp [tabInsert]
  | cons x t ih =>
    have hc := List.pairwise_cons.1 hs
    simp only [tabInsert]
    split
    · rename_i hlt
      refine List.pairwise_cons.2 ⟨fun e he => ?_, hs⟩
      rcases List.mem_cons.1 he with rfl | he'
      · exact hlt
      · exact Nat.lt_trans hlt (hc.1 e he')
    · rename_i hlt
      refine List.pairwise_cons.2 ⟨fun e he => ?_, ih hc.2 (fun e he => ha e (by simp [he]))⟩
      rcases (mem_tabInsert t a v e).1 he with rfl | he'
      · have : x.1 ≠ a := ha x (by simp)
        show x.1 < a
        have : ¬ a < x.1 := hlt
        omega
      · exact hc.1 e he'

end

section
variable {α : Type} [DecidableEq α]

/-- Reading the index just written gives the value written. -/
@[simp] theorem tabGet_tabSet_same (d : α) (t : Tab α) (a : Nat) (v : α) : tabGet d (tabSet d t a v) a = v := by
  unfold tabSet
  split
  · rename_i h
    rw [tabGet_tabErase_same, h]
  · exact tabGet_tabInsert_same d _ a v fun e he => ((mem_tabErase t a e).1 he).2

/-- Reading any other index gives what it gave before. -/
theorem tabGet_tabSet_other (d : α) (t : Tab α) {a b : Nat} (v : α) (h : b ≠ a) :
    tabGet d (tabSet d t a v) b = tabGet d t b := by
  unfold tabSet
  split
  · exact tabGet_tabErase_other d t h
  · rw [tabGet_tabInsert_other d _ v h, tabGet_tabErase_other d t h]

theorem tabGet_tabSet (d : α) (t : Tab α) (a b : Nat) (v : α) :
    tabGet d (tabSet d t a v) b = if b = a then v else tabGet d t b := by
  split
  · rename_i h
    rw [h, tabGet_tabSet_same]
  · rename_i h
    exact tabGet_tabSet_other d t v h

/-- An entry of the table after a write is the one written or one that stood at another index. -/
theorem mem_tabSet (d : α) (t : Tab α) (a : Nat) (v : α) (e : Nat × α) :
    e ∈ tabSet d t a v ↔ (e = (a, v) ∧ v ≠ d) ∨ (e ∈ t ∧ e.1 ≠ a) := by
  unfold tabSet
  split
  · rename_i h
    simp [mem_tabErase, h]
  · rename_i h
    simp [mem_tabInsert, mem_tabErase, h]

/-- A write keeps the canonical form. -/
theorem tabSet_wf (d : α) (t : Tab α) (a : Nat) (v : α) (h : tabWf d t) : tabWf d (tabSet d t a v) := by
  refine ⟨?_, ?_⟩
  · unfold tabSet
    split
    · exact tabErase_sorted t a h.1
    · exact tabInsert_sorted _ a v (tabErase_sorted t a h.1) fun e he => ((mem_tabErase t a e).1 he).2
  · intro e he
    rcases (mem_tabSet d t a v e).1 he with ⟨rfl, hv⟩ | ⟨he', -⟩
    · exact hv
    · exact h.2 e he'

end

section
variable {α : Type}

theorem tabWf_nil (d : α) : tabWf d ([] : Tab α) := ⟨List.Pairwise.nil, by simp⟩

/-- In a canonical table a listed entry is what its index reads as. -/
theorem tabGet_of_mem (d : α) (t : Tab α) (h : t.Pairwise (fun x y => x.1 < y.1)) (e : Nat × α) (he : e ∈ t) :
    tabGet d t e.1 = e.2 := by
  induction t with
  | nil => cases he
  | cons x t ih =>
    have hc := List.pairwise_cons.1 h
    rcases List.mem_cons.1 he with rfl | he'
    · simp [tabGet]
    · have : x.1 ≠ e.1 := Nat.ne_of_lt (hc.1 e he')
      simp [tabGet, this, ih hc.2 he']

/-- An index that is not listed reads as the default. -/
theorem tabGet_of_not_mem (d : α) (t : Tab α) (a : Nat) (h : ∀ e ∈ t, e.1 ≠ a) : tabGet d t a = d := by
  induction t with
  | nil => rfl
  | cons x t ih =>
    have hx : x.1 ≠ a := h x (by simp)
    simp [tabGet, hx, ih fun e he => h e (by simp [he])]

/-- What a table reads as at a listed or an unlisted index. -/
theorem tabGet_cases (d : α) (t : Tab α) (a : Nat) : (a, tabGet d t a) ∈ t ∨ tabGet d t a = d := by
  induction t with
  | nil => exact .inr rfl
  | cons x t ih =>
    by_cases hx : x.1 = a
    · left
      simp only [tabGet, hx, if_true]
      rw [← hx]
      exact List.mem_cons_self
    · simp only [tabGet, hx, if_false]
      rcases ih with h | h
      · exact .inl (List.mem_cons_of_mem _ h)
      · exact .inr h

/-- Tables in canonical form that read alike are equal data. -/
theorem tab_ext (d : α) : ∀ (t u : Tab α), tabWf d t → tabWf d u → (∀ a, tabGet d t a = tabGet d u a) → t = u
  | [],     [],     _,  _,  _ => rfl
  | [],     y :: u, _,  hu, h => by
    have := h y.1
    rw [tabGet_of_mem d (y :: u) hu.1 y (by simp)] at this
    exact absurd this.symm (hu.2 y (by simp))
  | x :: t, [],     ht, _,  h => by
    have := h x.1
    rw [tabGet_of_mem d (x :: t) ht.1 x (by simp)] at this
    exact absurd this (ht.2 x (by simp))
  | x :: t, y :: u, ht, hu, h => by
    have hxt := List.pairwise_cons.1 ht.1
    have hyu := List.pairwise_cons.1 hu.1
    have key : ∀ (x y : Nat × α) (t u : Tab α), tabWf d (x :: t) → tabWf d (y :: u) →
        (∀ a, tabGet d (x :: t) a = tabGet d (y :: u) a) → ¬ x.1 < y.1 := by
      intro x y t u hx hy hg hlt
      have h₁ := hg x.1
      rw [tabGet_of_mem d _ hx.1 x (by simp), tabGet_of_not_mem d (y :: u) x.1] at h₁
      · exact hx.2 x (by simp) h₁
      · intro e he
        rcases List.mem_cons.1 he with rfl | he'
        · omega
        · have := (List.pairwise_cons.1 hy.1).1 e he'
          omega
    have h₁ := key x y t u ht hu h
    have h₂ := key y x u t hu ht fun a => (h a).symm
    have hk : x.1 = y.1 := by omega
    have hv : x.2 = y.2 := by
      have := h x.1
      rw [tabGet_of_mem d _ ht.1 x (by simp), hk, tabGet_of_mem d _ hu.1 y (by simp)] at this
      exact this
    have hxy : x = y := Prod.ext hk hv
    subst hxy
    have ht' : tabWf d t := ⟨hxt.2, fun e he => ht.2 e (by simp [he])⟩
    have hu' : tabWf d u := ⟨hyu.2, fun e he => hu.2 e (by simp [he])⟩
    rw [tab_ext d t u ht' hu' fun a => ?_]
    by_cases ha : x.1 = a
    · rw [tabGet_of_not_mem d t a, tabGet_of_not_mem d u a]
      · intro e he
        have := hyu.1 e he
        omega
      · intro e he
        have := hxt.1 e he
        omega
    · have := h a
      simpa [tabGet, ha] using this

end

/-! ## The sequence memory -/

@[simp] theorem Memory.read_write_same (m : Memory) (a : Nat) (v : Byte) : (m.write a v).read a = v :=
  tabGet_tabSet_same _ m a v

theorem Memory.read_write_other (m : Memory) {a b : Nat} (v : Byte) (h : b ≠ a) : (m.write a v).read b = m.read b :=
  tabGet_tabSet_other _ m v h

/-- Every write to SEQ keeps its canonical form. -/
theorem Memory.write_wf (m : Memory) (a : Nat) (v : Byte) (h : m.wf) : (m.write a v).wf := tabSet_wf _ m a v h

/-- SEQ after reset is in canonical form. -/
theorem Memory.reset_wf (p : Params) : Memory.wf (State.resetOf p).seq := tabWf_nil _

end Sys2Proof.Machine
end

