-- ==== Sys2Proof/Laws/Ops.lean ====
section
/-! SUPPORT. Laws/Ops.lean: what each shared operation of Machine/Ops.lean does, once: reads after writes, the priority
collection, the sink port. -/

namespace Sys2Proof.Machine

/-! ## Reads the update does not touch -/

@[simp] theorem seqAt_raise (c : Cause) (idx : Nat) (info : Word) (s : State) (x : Nat) :
    seqAt (raise c idx info s) x = seqAt s x := rfl
@[simp] theorem freqAt_raise (c : Cause) (idx : Nat) (info : Word) (s : State) (x : Nat) :
    freqAt (raise c idx info s) x = freqAt s x := rfl
@[simp] theorem nodeAt_raise (c : Cause) (idx : Nat) (info : Word) (s : State) (x : Nat) :
    nodeAt (raise c idx info s) x = nodeAt s x := rfl
@[simp] theorem codeAt_raise (c : Cause) (idx : Nat) (info : Word) (s : State) (x : Nat) :
    codeAt (raise c idx info s) x = codeAt s x := rfl
@[simp] theorem freqAt_seqWrite (i : Nat) (v : Byte) (s : State) (x : Nat) :
    freqAt (seqWrite i v s) x = freqAt s x := rfl
@[simp] theorem nodeAt_seqWrite (i : Nat) (v : Byte) (s : State) (x : Nat) :
    nodeAt (seqWrite i v s) x = nodeAt s x := rfl
@[simp] theorem codeAt_seqWrite (i : Nat) (v : Byte) (s : State) (x : Nat) :
    codeAt (seqWrite i v s) x = codeAt s x := rfl
@[simp] theorem seqAt_freqWrite (v n : Nat) (s : State) (x : Nat) : seqAt (freqWrite v n s) x = seqAt s x := rfl
@[simp] theorem nodeAt_freqWrite (v n : Nat) (s : State) (x : Nat) : nodeAt (freqWrite v n s) x = nodeAt s x := rfl
@[simp] theorem codeAt_freqWrite (v n : Nat) (s : State) (x : Nat) : codeAt (freqWrite v n s) x = codeAt s x := rfl
@[simp] theorem seqAt_nodeWrite (k : Nat) (r : NodeRec) (s : State) (x : Nat) :
    seqAt (nodeWrite k r s) x = seqAt s x := rfl
@[simp] theorem freqAt_nodeWrite (k : Nat) (r : NodeRec) (s : State) (x : Nat) :
    freqAt (nodeWrite k r s) x = freqAt s x := rfl
@[simp] theorem codeAt_nodeWrite (k : Nat) (r : NodeRec) (s : State) (x : Nat) :
    codeAt (nodeWrite k r s) x = codeAt s x := rfl
@[simp] theorem seqAt_codeWrite (v : Nat) (e : CodeEntry) (s : State) (x : Nat) :
    seqAt (codeWrite v e s) x = seqAt s x := rfl
@[simp] theorem freqAt_codeWrite (v : Nat) (e : CodeEntry) (s : State) (x : Nat) :
    freqAt (codeWrite v e s) x = freqAt s x := rfl
@[simp] theorem nodeAt_codeWrite (v : Nat) (e : CodeEntry) (s : State) (x : Nat) :
    nodeAt (codeWrite v e s) x = nodeAt s x := rfl
@[simp] theorem seqAt_pqInsert (k : Nat) (s : State) (x : Nat) : seqAt (pqInsert k s) x = seqAt s x := rfl
@[simp] theorem freqAt_pqInsert (k : Nat) (s : State) (x : Nat) : freqAt (pqInsert k s) x = freqAt s x := rfl
@[simp] theorem nodeAt_pqInsert (k : Nat) (s : State) (x : Nat) : nodeAt (pqInsert k s) x = nodeAt s x := rfl
@[simp] theorem codeAt_pqInsert (k : Nat) (s : State) (x : Nat) : codeAt (pqInsert k s) x = codeAt s x := rfl
@[simp] theorem seqAt_pqRemove (k : Nat) (s : State) (x : Nat) : seqAt (pqRemove k s) x = seqAt s x := rfl
@[simp] theorem freqAt_pqRemove (k : Nat) (s : State) (x : Nat) : freqAt (pqRemove k s) x = freqAt s x := rfl
@[simp] theorem nodeAt_pqRemove (k : Nat) (s : State) (x : Nat) : nodeAt (pqRemove k s) x = nodeAt s x := rfl
@[simp] theorem codeAt_pqRemove (k : Nat) (s : State) (x : Nat) : codeAt (pqRemove k s) x = codeAt s x := rfl
@[simp] theorem seqAt_sinkCall (c : SinkCall) (s : State) (x : Nat) : seqAt (sinkCall c s) x = seqAt s x := rfl
@[simp] theorem freqAt_sinkCall (c : SinkCall) (s : State) (x : Nat) : freqAt (sinkCall c s) x = freqAt s x := rfl
@[simp] theorem nodeAt_sinkCall (c : SinkCall) (s : State) (x : Nat) : nodeAt (sinkCall c s) x = nodeAt s x := rfl
@[simp] theorem codeAt_sinkCall (c : SinkCall) (s : State) (x : Nat) : codeAt (sinkCall c s) x = codeAt s x := rfl
@[simp] theorem seqAt_countBit (s : State) (x : Nat) : seqAt (countBit s) x = seqAt s x := rfl
@[simp] theorem freqAt_countBit (s : State) (x : Nat) : freqAt (countBit s) x = freqAt s x := rfl
@[simp] theorem nodeAt_countBit (s : State) (x : Nat) : nodeAt (countBit s) x = nodeAt s x := rfl
@[simp] theorem codeAt_countBit (s : State) (x : Nat) : codeAt (countBit s) x = codeAt s x := rfl
@[simp] theorem seqAt_setPath (k : Nat) (p : List Bool) (s : State) (x : Nat) :
    seqAt (setPath k p s) x = seqAt s x := rfl
@[simp] theorem freqAt_setPath (k : Nat) (p : List Bool) (s : State) (x : Nat) :
    freqAt (setPath k p s) x = freqAt s x := rfl
@[simp] theorem codeAt_setPath (k : Nat) (p : List Bool) (s : State) (x : Nat) :
    codeAt (setPath k p s) x = codeAt s x := rfl
@[simp] theorem seqAt_newNode (r : NodeRec) (s : State) (x : Nat) : seqAt (newNode r s) x = seqAt s x := rfl
@[simp] theorem freqAt_newNode (r : NodeRec) (s : State) (x : Nat) : freqAt (newNode r s) x = freqAt s x := rfl
@[simp] theorem codeAt_newNode (r : NodeRec) (s : State) (x : Nat) : codeAt (newNode r s) x = codeAt s x := rfl
@[simp] theorem seqAt_setPhase (ph : Phase) (s : State) (x : Nat) : seqAt (setPhase ph s) x = seqAt s x := rfl
@[simp] theorem freqAt_setPhase (ph : Phase) (s : State) (x : Nat) : freqAt (setPhase ph s) x = freqAt s x := rfl
@[simp] theorem nodeAt_setPhase (ph : Phase) (s : State) (x : Nat) : nodeAt (setPhase ph s) x = nodeAt s x := rfl
@[simp] theorem codeAt_setPhase (ph : Phase) (s : State) (x : Nat) : codeAt (setPhase ph s) x = codeAt s x := rfl
@[simp] theorem seqAt_clearFreq (s : State) (x : Nat) : seqAt (clearFreq s) x = seqAt s x := rfl
@[simp] theorem nodeAt_clearFreq (s : State) (x : Nat) : nodeAt (clearFreq s) x = nodeAt s x := rfl
@[simp] theorem codeAt_clearFreq (s : State) (x : Nat) : codeAt (clearFreq s) x = codeAt s x := rfl
@[simp] theorem seqAt_countDone (s : State) (x : Nat) : seqAt (countDone s) x = seqAt s x := rfl
@[simp] theorem freqAt_countDone (s : State) (x : Nat) : freqAt (countDone s) x = freqAt s x := rfl
@[simp] theorem nodeAt_countDone (s : State) (x : Nat) : nodeAt (countDone s) x = nodeAt s x := rfl
@[simp] theorem codeAt_countDone (s : State) (x : Nat) : codeAt (countDone s) x = codeAt s x := rfl
@[simp] theorem seqAt_startBuild (s : State) (x : Nat) : seqAt (startBuild s) x = seqAt s x := rfl
@[simp] theorem freqAt_startBuild (s : State) (x : Nat) : freqAt (startBuild s) x = freqAt s x := rfl
@[simp] theorem nodeAt_startBuild (s : State) (x : Nat) : nodeAt (startBuild s) x = nodeAt s x := rfl
@[simp] theorem codeAt_startBuild (s : State) (x : Nat) : codeAt (startBuild s) x = codeAt s x := rfl
@[simp] theorem seqAt_countLeaves (s : State) (x : Nat) : seqAt (countLeaves s) x = seqAt s x := rfl
@[simp] theorem freqAt_countLeaves (s : State) (x : Nat) : freqAt (countLeaves s) x = freqAt s x := rfl
@[simp] theorem nodeAt_countLeaves (s : State) (x : Nat) : nodeAt (countLeaves s) x = nodeAt s x := rfl
@[simp] theorem codeAt_countLeaves (s : State) (x : Nat) : codeAt (countLeaves s) x = codeAt s x := rfl
@[simp] theorem seqAt_buildResult (s : State) (x : Nat) : seqAt (buildResult s) x = seqAt s x := rfl
@[simp] theorem freqAt_buildResult (s : State) (x : Nat) : freqAt (buildResult s) x = freqAt s x := rfl
@[simp] theorem nodeAt_buildResult (s : State) (x : Nat) : nodeAt (buildResult s) x = nodeAt s x := rfl
@[simp] theorem codeAt_buildResult (s : State) (x : Nat) : codeAt (buildResult s) x = codeAt s x := rfl
@[simp] theorem seqAt_clearCode (s : State) (x : Nat) : seqAt (clearCode s) x = seqAt s x := rfl
@[simp] theorem freqAt_clearCode (s : State) (x : Nat) : freqAt (clearCode s) x = freqAt s x := rfl
@[simp] theorem nodeAt_clearCode (s : State) (x : Nat) : nodeAt (clearCode s) x = nodeAt s x := rfl
@[simp] theorem seqAt_openScope (s : State) (x : Nat) : seqAt (openScope s) x = seqAt s x := rfl
@[simp] theorem freqAt_openScope (s : State) (x : Nat) : freqAt (openScope s) x = freqAt s x := rfl
@[simp] theorem nodeAt_openScope (s : State) (x : Nat) : nodeAt (openScope s) x = nodeAt s x := rfl
@[simp] theorem codeAt_openScope (s : State) (x : Nat) : codeAt (openScope s) x = codeAt s x := rfl
@[simp] theorem seqAt_closeScope (s : State) (x : Nat) : seqAt (closeScope s) x = seqAt s x := rfl
@[simp] theorem freqAt_closeScope (s : State) (x : Nat) : freqAt (closeScope s) x = freqAt s x := rfl
@[simp] theorem nodeAt_closeScope (s : State) (x : Nat) : nodeAt (closeScope s) x = nodeAt s x := rfl
@[simp] theorem codeAt_closeScope (s : State) (x : Nat) : codeAt (closeScope s) x = codeAt s x := rfl
@[simp] theorem seqAt_seqclrBody (s : State) (x : Nat) : seqAt (seqclrBody s) x = seqAt s x := rfl
@[simp] theorem freqAt_seqclrBody (s : State) (x : Nat) : freqAt (seqclrBody s) x = freqAt s x := rfl
@[simp] theorem nodeAt_seqclrBody (s : State) (x : Nat) : nodeAt (seqclrBody s) x = nodeAt s x := rfl
@[simp] theorem codeAt_seqclrBody (s : State) (x : Nat) : codeAt (seqclrBody s) x = codeAt s x := rfl
@[simp] theorem freqAt_appendSymbol (imm : Byte) (s : State) (x : Nat) :
    freqAt (appendSymbol imm s) x = freqAt s x := rfl
@[simp] theorem nodeAt_appendSymbol (imm : Byte) (s : State) (x : Nat) :
    nodeAt (appendSymbol imm s) x = nodeAt s x := rfl
@[simp] theorem codeAt_appendSymbol (imm : Byte) (s : State) (x : Nat) :
    codeAt (appendSymbol imm s) x = codeAt s x := rfl
@[simp] theorem seqAt_resetEngine (s : State) (x : Nat) : seqAt (resetEngine s) x = seqAt s x := rfl
@[simp] theorem freqAt_clearFreq (s : State) (x : Nat) : freqAt (clearFreq s) x = 0 := rfl
@[simp] theorem codeAt_clearCode (s : State) (x : Nat) : codeAt (clearCode s) x = noCode := rfl
@[simp] theorem freqAt_resetEngine (s : State) (x : Nat) : freqAt (resetEngine s) x = 0 := rfl
@[simp] theorem nodeAt_resetEngine (s : State) (x : Nat) : nodeAt (resetEngine s) x = unusedSlot s.cfg := rfl
@[simp] theorem codeAt_resetEngine (s : State) (x : Nat) : codeAt (resetEngine s) x = noCode := rfl

/-! ## Reads of what the update wrote -/

theorem seqAt_seqWrite (i : Nat) (v : Byte) (s : State) (x : Nat) :
    seqAt (seqWrite i v s) x = if x = i then v else seqAt s x := tabGet_tabSet _ _ _ _ _

theorem freqAt_freqWrite (v n : Nat) (s : State) (x : Nat) :
    freqAt (freqWrite v n s) x = if x = v then n else freqAt s x := tabGet_tabSet _ _ _ _ _

theorem nodeAt_nodeWrite (k : Nat) (r : NodeRec) (s : State) (x : Nat) :
    nodeAt (nodeWrite k r s) x = if x = k then r else nodeAt s x := tabGet_tabSet _ _ _ _ _

theorem codeAt_codeWrite (v : Nat) (e : CodeEntry) (s : State) (x : Nat) :
    codeAt (codeWrite v e s) x = if x = v then e else codeAt s x := tabGet_tabSet _ _ _ _ _

theorem nodeAt_setPath (k : Nat) (p : List Bool) (s : State) (x : Nat) :
    nodeAt (setPath k p s) x =
      if x = k then { nodeAt s k with pvalid := true, plen := p.length, pbits := packBits p } else nodeAt s x :=
  nodeAt_nodeWrite k _ s x

theorem nodeAt_newNode (r : NodeRec) (s : State) (x : Nat) :
    nodeAt (newNode r s) x = if x = s.nnode then r else nodeAt s x := nodeAt_nodeWrite s.nnode r s x

theorem seqAt_appendSymbol (imm : Byte) (s : State) (x : Nat) :
    seqAt (appendSymbol imm s) x = if x = s.nsym then imm else seqAt s x := tabGet_tabSet _ _ _ _ _

/-! ## The priority collection -/

theorem mem_insertIndex (k j : Nat) (l : List Nat) : j ∈ insertIndex k l ↔ j = k ∨ j ∈ l := by
  induction l with
  | nil => simp [insertIndex]
  | cons x l ih =>
    simp only [insertIndex]
    split
    · simp
    · split
      · rename_i h
        simp [h]
      · rw [List.mem_cons, ih, List.mem_cons]
        tauto

theorem insertIndex_sorted (k : Nat) (l : List Nat) (h : l.Pairwise (· < ·)) :
    (insertIndex k l).Pairwise (· < ·) := by
  induction l with
  | nil => simp [insertIndex]
  | cons x l ih =>
    have hc := List.pairwise_cons.1 h
    simp only [insertIndex]
    split
    · rename_i hlt
      refine List.pairwise_cons.2 ⟨fun e he => ?_, h⟩
      rcases List.mem_cons.1 he with rfl | he'
      · exact hlt
      · exact Nat.lt_trans hlt (hc.1 e he')
    · split
      · exact h
      · refine List.pairwise_cons.2 ⟨fun e he => ?_, ih hc.2⟩
        rcases (mem_insertIndex k e l).1 he with rfl | he'
        · omega
        · exact hc.1 e he'

/-- Adding an index that is above every member puts it at the end. -/
theorem insertIndex_of_above (k : Nat) (l : List Nat) (h : ∀ j ∈ l, j < k) : insertIndex k l = l ++ [k] := by
  induction l with
  | nil => rfl
  | cons x l ih =>
    have hx : x < k := h x (by simp)
    simp only [insertIndex]
    rw [if_neg (by omega), if_neg (by omega), ih fun j hj => h j (by simp [hj])]
    rfl

/-- `before` is the order of R112. -/
theorem before_iff (s : State) (j k : Nat) :
    before s j k = true ↔
      (nodeAt s j).freq < (nodeAt s k).freq ∨ ((nodeAt s j).freq = (nodeAt s k).freq ∧ j < k) := by
  simp [before]

theorem before_irrefl (s : State) (k : Nat) : before s k k = false := by simp [before]

theorem before_trans (s : State) {i j k : Nat} (h₁ : before s i j = true) (h₂ : before s j k = true) :
    before s i k = true := by
  rw [before_iff] at *
  omega

theorem before_total (s : State) {j k : Nat} (h : j ≠ k) : before s j k = true ∨ before s k j = true := by
  rw [before_iff, before_iff]
  omega

theorem before_congr {s t : State} (h : ∀ k, (nodeAt t k).freq = (nodeAt s k).freq) (j k : Nat) :
    before t j k = before s j k := by simp [before, h]

/-- The fold that looks for the minimum: its answer is a candidate, and no candidate is before it. -/
theorem foldl_min_spec (s : State) (l : List Nat) (m : Nat) :
    let r := l.foldl (fun m j => if before s j m then j else m) m
    (r = m ∨ r ∈ l) ∧ (∀ j ∈ l, before s j r = false) ∧ before s m r = false := by
  induction l generalizing m with
  | nil => simp [before_irrefl]
  | cons x l ih =>
    simp only [List.foldl_cons]
    obtain ⟨h₁, h₂, h₃⟩ := ih (if before s x m then x else m)
    generalize l.foldl (fun m j => if before s j m then j else m) (if before s x m then x else m) = r at *
    by_cases hx : before s x m = true
    · simp only [hx, if_true] at h₁ h₃
      refine ⟨?_, ?_, ?_⟩
      · rcases h₁ with rfl | h₁
        · simp
        · simp [h₁]
      · intro j hj
        rcases List.mem_cons.1 hj with rfl | hj'
        · exact h₃
        · exact h₂ j hj'
      · cases hm : before s m r with
        | false => rfl
        | true => rw [before_trans s hx hm] at h₃; cases h₃
    · rw [if_neg hx] at h₁ h₃
      refine ⟨?_, ?_, h₃⟩
      · rcases h₁ with rfl | h₁
        · simp
        · simp [h₁]
      · intro j hj
        rcases List.mem_cons.1 hj with rfl | hj'
        · cases hjr : before s j r with
          | false => rfl
          | true =>
            exfalso
            by_cases hrm : r = m
            · subst hrm; exact hx hjr
            · rcases before_total s hrm with hb | hb
              · exact hx (before_trans s hjr hb)
              · rw [hb] at h₃; cases h₃
        · exact h₂ j hj'

/-- `PQ.extract_min()` on a nonempty PQ finds the member before every other (R113). -/
theorem pqMin_spec (s : State) (h : s.pq ≠ []) :
    pqMin s ∈ s.pq ∧ ∀ k ∈ s.pq, k ≠ pqMin s → before s (pqMin s) k = true := by
  unfold pqMin
  cases hp : s.pq with
  | nil => exact absurd hp h
  | cons x l =>
    obtain ⟨h₁, h₂, h₃⟩ := foldl_min_spec s l x
    simp only [] at h₁ h₂ h₃ ⊢
    generalize l.foldl (fun m j => if before s j m then j else m) x = r at *
    refine ⟨?_, fun k hk hne => ?_⟩
    · rcases h₁ with rfl | h₁
      · simp
      · simp [h₁]
    · rcases before_total s hne with hb | hb
      · rcases List.mem_cons.1 hk with rfl | hk'
        · rw [hb] at h₃; cases h₃
        · rw [h₂ k hk'] at hb; cases hb
      · exact hb

/-! ## The sink port -/

/-- While an answer is fixed, it is the next one. -/
theorem sinkAnswer_of_plan {s : State} {a : SinkAnswer} {as : List SinkAnswer} (h : s.plan = a :: as) (c : SinkCall) :
    sinkAnswer s c = a := by simp [sinkAnswer, h]

/-! ## The checks before a command -/

/-- What `issue` can do: run the body, raise IllegalSequence, or nothing. -/
theorem issue_cases (i : Instr) (body : State → State) (s : State) :
    (legality i s.phase = .ok ∧ issue i body s = body s) ∨
      (legality i s.phase = .seq ∧ issue i body s = raise .illegalSequence 0 (encode i) s) ∨
      (legality i s.phase = .ign ∧ issue i body s = s) := by
  unfold issue
  cases h : legality i s.phase <;> simp

theorem issue_of_ok {i : Instr} {s : State} (h : legality i s.phase = .ok) (body : State → State) :
    issue i body s = body s := by simp [issue, h]

theorem issue_of_seq {i : Instr} {s : State} (h : legality i s.phase = .seq) (body : State → State) :
    issue i body s = raise .illegalSequence 0 (encode i) s := by simp [issue, h]

theorem issue_of_ign {i : Instr} {s : State} (h : legality i s.phase = .ign) (body : State → State) :
    issue i body s = s := by simp [issue, h]

/-- `illegalWord` either does nothing, in FAULT, or raises IllegalCommand. -/
theorem illegalWord_cases (w : Word) (s : State) :
    (s.phase = .fault ∧ illegalWord w s = s) ∨
      (s.phase ≠ .fault ∧ illegalWord w s = raise .illegalCommand 0 w s) := by
  unfold illegalWord
  split <;> simp_all

end Sys2Proof.Machine
end

