-- ==== Sys2Proof/Laws/Step.lean ====
section
/-! SUPPORT. Laws/Step.lean: every command is its body behind the phase check, and a step is one of four things. -/

namespace Sys2Proof.Machine

/-- The pseudocode of each command. -/
def bodyOf : Instr → State → State
  | .nop     => nopBody
  | .clear   => clearBody
  | .lds imm => ldsBody imm
  | .seqclr  => seqclrBody
  | .count   => countBody
  | .build   => buildBody
  | .derive  => deriveBody
  | .pack    => packBody
  | .encode  => encodeBody

/-- Every command answers a next state: its body behind the phase check. -/
theorem exec_eq (i : Instr) (s : State) : exec i s = .next (issue i (bodyOf i) s) := by
  cases i <;> rfl

/-- A command the table of R78 allows has the effect of its body. -/
theorem exec_of_ok {i : Instr} {s : State} (h : legality i s.phase = .ok) : exec i s = .next (bodyOf i s) := by
  rw [exec_eq, issue_of_ok h]

/-- What a command that answers `t` did. -/
theorem exec_cases {i : Instr} {s t : State} (h : exec i s = .next t) :
    (legality i s.phase = .ok ∧ t = bodyOf i s) ∨
      (legality i s.phase = .seq ∧ t = raise .illegalSequence 0 (encode i) s) ∨
      (legality i s.phase = .ign ∧ t = s) := by
  rw [exec_eq] at h
  obtain ⟨h₁, h₂⟩ | ⟨h₁, h₂⟩ | ⟨h₁, h₂⟩ := issue_cases i (bodyOf i) s <;> rw [h₂] at h <;> cases h <;> simp [h₁]

/-- What a step that answers `t` did: waited, ran a command, took a malformed word, or took a hardware reset. -/
theorem step_cases {s t : State} (h : step s = .next t) :
    (s.host = [] ∧ t = s) ∨
      (∃ w hs i, s.host = .word w :: hs ∧ decodeWord w = some i ∧ exec i { s with host := hs } = .next t) ∨
      (∃ w hs, s.host = .word w :: hs ∧ decodeWord w = none ∧ t = illegalWord w { s with host := hs }) ∨
      (∃ hs, s.host = .reset :: hs ∧ t = resetEngine { s with host := hs }) := by
  unfold step at h
  split at h
  · rename_i hh
    cases h
    exact .inl ⟨hh, rfl⟩
  · rename_i w hs hh
    unfold present at h
    split at h
    · rename_i i hi
      exact .inr (.inl ⟨w, hs, i, hh, hi, h⟩)
    · rename_i hi
      cases h
      exact .inr (.inr (.inl ⟨w, hs, hh, hi, rfl⟩))
  · rename_i hs hh
    cases h
    exact .inr (.inr (.inr ⟨hs, hh, rfl⟩))

/-- A property of states is kept by every step when it does not look at the host's inputs and every fault entry before a
command, every reset and every body of a command keeps it. -/
theorem step_keeps (P : State → Prop) (hhost : ∀ s hs, P s → P { s with host := hs })
    (hraise : ∀ s c w, (c = .illegalCommand ∧ decodeWord w = none) ∨
      (c = .illegalSequence ∧ ∃ i : Instr, i ≠ .nop ∧ i ≠ .clear ∧ w = encode i) → s.phase ≠ .fault → P s →
      P (raise c 0 w s))
    (hreset : ∀ s, P s → P (resetEngine s))
    (hbody : ∀ i s, legality i s.phase = .ok → P s → P (bodyOf i s)) {s t : State} (hP : P s)
    (h : step s = .next t) : P t := by
  obtain ⟨h₁, rfl⟩ | ⟨w, hs, i, h₁, hi, h₂⟩ | ⟨w, hs, h₁, hi, rfl⟩ | ⟨hs, h₁, rfl⟩ := step_cases h
  · exact hP
  · have hP' := hhost s hs hP
    generalize { s with host := hs } = u at *
    obtain ⟨hl, rfl⟩ | ⟨hl, rfl⟩ | ⟨hl, rfl⟩ := exec_cases h₂
    · exact hbody i u hl hP'
    · refine hraise _ _ _ (.inr ⟨rfl, i, ?_, ?_, rfl⟩) (fun hc => ?_) hP'
      · rintro rfl
        cases hp : u.phase <;> rw [hp] at hl <;> cases hl
      · rintro rfl
        cases hp : u.phase <;> rw [hp] at hl <;> cases hl
      · rw [hc] at hl
        cases i <;> cases hl
    · exact hP'
  · have hP' := hhost s hs hP
    generalize { s with host := hs } = u at *
    obtain ⟨h₂, h₃⟩ | ⟨h₂, h₃⟩ := illegalWord_cases w u <;> rw [h₃]
    · exact hP'
    · exact hraise _ _ _ (.inl ⟨rfl, hi⟩) h₂ hP'
  · exact hreset _ (hhost s hs hP)

/-- In FAULT only NOP and CLEAR execute (R78). -/
theorem phase_ne_fault_of_ok {i : Instr} {s : State} (hl : legality i s.phase = .ok) (h : i ≠ .nop) (h' : i ≠ .clear) :
    s.phase ≠ .fault := by
  intro hp
  rw [hp] at hl
  cases i <;> first | exact h rfl | exact h' rfl | cases hl

end Sys2Proof.Machine
end

