-- ==== Sys2Proof/Laws/Build.lean ====
section
/-! SUPPORT. Laws/Build.lean: what seeding, one merge and the merge loop of BUILD can change, and the order of the
leaves. -/

namespace Sys2Proof.Machine

/-- `t` differs from `s` in NODE, PQ, PQCNT and NNODE at most. -/
structure OnlyNodes (s t : State) : Prop where
  cfg : t.cfg = s.cfg
  phase : t.phase = s.phase
  empty : t.empty = s.empty
  indep : t.indep = s.indep
  cause : t.cause = s.cause
  fidx : t.fidx = s.fidx
  finfo : t.finfo = s.finfo
  nsym : t.nsym = s.nsym
  bitcnt : t.bitcnt = s.bitcnt
  seq : t.seq = s.seq
  freq : t.freq = s.freq
  code : t.code = s.code
  scope : t.scope = s.scope
  plan : t.plan = s.plan
  log : t.log = s.log
  host : t.host = s.host
  nleaf : t.nleaf = s.nleaf
  root : t.root = s.root

theorem OnlyNodes.refl (s : State) : OnlyNodes s s := by constructor <;> rfl

theorem OnlyNodes.trans {s t u : State} (h : OnlyNodes s t) (h' : OnlyNodes t u) : OnlyNodes s u where
  cfg := h'.cfg.trans h.cfg
  phase := h'.phase.trans h.phase
  empty := h'.empty.trans h.empty
  indep := h'.indep.trans h.indep
  cause := h'.cause.trans h.cause
  fidx := h'.fidx.trans h.fidx
  finfo := h'.finfo.trans h.finfo
  nsym := h'.nsym.trans h.nsym
  bitcnt := h'.bitcnt.trans h.bitcnt
  seq := h'.seq.trans h.seq
  freq := h'.freq.trans h.freq
  code := h'.code.trans h.code
  scope := h'.scope.trans h.scope
  plan := h'.plan.trans h.plan
  log := h'.log.trans h.log
  host := h'.host.trans h.host
  nleaf := h'.nleaf.trans h.nleaf
  root := h'.root.trans h.root

theorem onlyNodes_newNode (r : NodeRec) (s : State) : OnlyNodes s (newNode r s) := by constructor <;> rfl

theorem onlyNodes_pqRemove (k : Nat) (s : State) : OnlyNodes s (pqRemove k s) := by constructor <;> rfl

theorem onlyNodes_startBuild (s : State) : OnlyNodes s (startBuild s) := by constructor <;> rfl

theorem onlyNodes_seedSymbol (s : State) (v : Nat) : OnlyNodes s (seedSymbol s v) := by
  unfold seedSymbol
  split
  · exact onlyNodes_newNode _ s
  · exact .refl s

theorem onlyNodes_foldl_seedSymbol (l : List Nat) (s : State) : OnlyNodes s (l.foldl seedSymbol s) := by
  induction l generalizing s with
  | nil => exact .refl s
  | cons v l ih => exact (onlyNodes_seedSymbol s v).trans (ih _)

theorem onlyNodes_seedLoop (s : State) : OnlyNodes s (seedLoop s) :=
  (onlyNodes_startBuild s).trans (onlyNodes_foldl_seedSymbol _ _)

theorem onlyNodes_mergeOnce (s : State) : OnlyNodes s (mergeOnce s) :=
  ((onlyNodes_pqRemove _ s).trans (onlyNodes_pqRemove _ _)).trans (onlyNodes_newNode _ _)

theorem onlyNodes_mergeLoop (n : Nat) (s : State) : OnlyNodes s (mergeLoop n s) := by
  induction n generalizing s with
  | zero => exact .refl s
  | succ n ih =>
    unfold mergeLoop
    split
    · exact (onlyNodes_mergeOnce s).trans (ih _)
    · exact .refl s

/-- `t` differs from `s` in NODE, PQ, PQCNT, NNODE, NLEAF, ROOT and PHASE at most: the frame of BUILD. -/
structure OnlyTree (s t : State) : Prop where
  cfg : t.cfg = s.cfg
  empty : t.empty = s.empty
  indep : t.indep = s.indep
  cause : t.cause = s.cause
  fidx : t.fidx = s.fidx
  finfo : t.finfo = s.finfo
  nsym : t.nsym = s.nsym
  bitcnt : t.bitcnt = s.bitcnt
  seq : t.seq = s.seq
  freq : t.freq = s.freq
  code : t.code = s.code
  scope : t.scope = s.scope
  plan : t.plan = s.plan
  log : t.log = s.log
  host : t.host = s.host

theorem buildBody_frame (s : State) : OnlyTree s (buildBody s) := by
  have h := (onlyNodes_seedLoop s)
  have h' := onlyNodes_mergeLoop s.cfg.alphabet (countLeaves (seedLoop s))
  exact {
    cfg := h'.cfg.trans h.cfg
    empty := h'.empty.trans h.empty
    indep := h'.indep.trans h.indep
    cause := h'.cause.trans h.cause
    fidx := h'.fidx.trans h.fidx
    finfo := h'.finfo.trans h.finfo
    nsym := h'.nsym.trans h.nsym
    bitcnt := h'.bitcnt.trans h.bitcnt
    seq := h'.seq.trans h.seq
    freq := h'.freq.trans h.freq
    code := h'.code.trans h.code
    scope := h'.scope.trans h.scope
    plan := h'.plan.trans h.plan
    log := h'.log.trans h.log
    host := h'.host.trans h.host
  }

@[simp] theorem buildBody_phase (s : State) : (buildBody s).phase = .built := rfl

/-- A merge makes its node in slot NNODE and leaves the others alone. -/
theorem nodeAt_mergeOnce_other (s : State) {k : Nat} (h : k ≠ s.nnode) : nodeAt (mergeOnce s) k = nodeAt s k := by
  unfold mergeOnce
  simp only [nodeAt_newNode]
  exact (if_neg h).trans rfl

@[simp] theorem mergeOnce_nnode (s : State) : (mergeOnce s).nnode = s.nnode + 1 := rfl

@[simp] theorem mergeOnce_pqcnt (s : State) : (mergeOnce s).pqcnt = s.pqcnt - 1 - 1 + 1 := rfl

/-- The merge loop never writes a slot below the NNODE it starts with. -/
theorem nodeAt_mergeLoop_below (n : Nat) (s : State) {k : Nat} (h : k < s.nnode) :
    nodeAt (mergeLoop n s) k = nodeAt s k := by
  induction n generalizing s with
  | zero => rfl
  | succ n ih =>
    unfold mergeLoop
    split
    · rw [ih (mergeOnce s) (by rw [mergeOnce_nnode]; omega), nodeAt_mergeOnce_other s (by omega)]
    · rfl

/-- With as many passes as members, the merge loop ends with at most one member (R120). -/
theorem mergeLoop_pqcnt_le (n : Nat) (s : State) (h : s.pqcnt ≤ n + 1) : (mergeLoop n s).pqcnt ≤ 1 := by
  induction n generalizing s with
  | zero => exact h
  | succ n ih =>
    unfold mergeLoop
    split
    · exact ih _ (by rw [mergeOnce_pqcnt]; omega)
    · omega

/-- Symbol `v` gets a leaf. -/
def seeded (s : State) (v : Nat) : Bool := decide (0 < freqAt s v)

@[simp] theorem seeded_newNode (r : NodeRec) (s : State) : seeded (newNode r s) = seeded s := rfl

/-- The state after seeding the symbols of `l` (in any state): one leaf per symbol of nonzero count, in the order of `l`,
from slot NNODE on. -/
theorem foldl_seedSymbol_spec (l : List Nat) (s : State) :
    let t := l.foldl seedSymbol s
    let vs := l.filter (seeded s)
    t.nnode = s.nnode + vs.length ∧ t.pqcnt = s.pqcnt + vs.length ∧
      (∀ (j : Nat) (v : Nat), vs[j]? = some v → nodeAt t (s.nnode + j) = leafRec s.cfg v (freqAt s v)) ∧
      (∀ k, k < s.nnode ∨ s.nnode + vs.length ≤ k → nodeAt t k = nodeAt s k) ∧
      ((∀ k ∈ s.pq, k < s.nnode) → t.pq = s.pq ++ List.range' s.nnode vs.length) := by
  induction l generalizing s with
  | nil => simp
  | cons v l ih =>
    simp only [List.foldl_cons]
    by_cases hv : 0 < freqAt s v
    · have hs : seedSymbol s v = newNode (leafRec s.cfg v (freqAt s v)) s := by simp [seedSymbol, hv]
      rw [hs]
      obtain ⟨h₁, h₂, h₃, h₄, h₅⟩ := ih (newNode (leafRec s.cfg v (freqAt s v)) s)
      simp only [seeded_newNode, freqAt_newNode, newNode_nnode, newNode_pqcnt, newNode_cfg, newNode_pq, nodeAt_newNode] at h₁ h₂ h₃ h₄ h₅
      rw [List.filter_cons_of_pos (by simpa [seeded] using hv), List.length_cons]
      refine ⟨by omega, by omega, ?_, ?_, ?_⟩
      · intro j u hj
        cases j with
        | zero =>
          simp only [List.getElem?_cons_zero, Option.some.injEq] at hj
          subst hj
          rw [Nat.add_zero, h₄ s.nnode (.inl (by omega)), if_pos rfl]
        | succ j =>
          rw [← h₃ j u (by simpa using hj)]
          congr 1
          omega
      · intro k hk
        rw [h₄ k (by omega), if_neg (by omega)]
      · intro hpq
        have hins := insertIndex_of_above s.nnode s.pq hpq
        rw [hins] at h₅
        rw [h₅ (fun k hk => by
          rcases List.mem_append.1 hk with hk | hk
          · have := hpq k hk; omega
          · simp at hk; omega), List.append_assoc, List.range'_succ]
        rfl
    · have hs : seedSymbol s v = s := by simp [seedSymbol, hv]
      rw [hs, List.filter_cons_of_neg (by simpa [seeded] using hv)]
      exact ih s

end Sys2Proof.Machine
end

