-- ==== Sys2Proof/Laws/Count.lean ====
section
/-! SUPPORT. Laws/Count.lean: what the counting loop of COUNT does. -/

namespace Sys2Proof.Machine

/-- How often `v` stands at the `n` indices of SEQ from `i` on. -/
def countFrom (s : State) (i n v : Nat) : Nat := (List.range' i n).countP fun j => (seqAt s j).toNat == v

theorem countFrom_succ (s : State) (i n v : Nat) :
    countFrom s i (n + 1) v = countFrom s (i + 1) n v + if (seqAt s i).toNat = v then 1 else 0 := by
  simp [countFrom, List.range'_succ, List.countP_cons]

theorem countFrom_le (s : State) (i n v : Nat) : countFrom s i n v ≤ n := by
  unfold countFrom
  exact (List.countP_le_length).trans (by simp)

theorem countFrom_zero_eq (s : State) (n v : Nat) :
    countFrom s 0 n v = (List.range n).countP fun j => (seqAt s j).toNat == v := by
  simp [countFrom, List.range_eq_range']

theorem countFrom_congr {s t : State} (h : ∀ j, seqAt t j = seqAt s j) (i n v : Nat) :
    countFrom t i n v = countFrom s i n v := by simp [countFrom, h]

/-- The loop changes FREQ, and then either completes or raises SymbolOutOfRange at some index it read. -/
theorem countLoop_cases (n i : Nat) (s : State) :
    ∃ f, countLoop n i s = countDone { s with freq := f } ∨
      ∃ j, i ≤ j ∧ j < i + n ∧ s.cfg.alphabet ≤ (seqAt s j).toNat ∧
        countLoop n i s = raise .symbolOutOfRange j (zext16 (seqAt s j)) { s with freq := f } := by
  induction n generalizing i s with
  | zero => exact ⟨s.freq, .inl rfl⟩
  | succ n ih =>
    unfold countLoop
    split
    · rename_i h
      exact ⟨s.freq, .inr ⟨i, by omega, by omega, h, rfl⟩⟩
    · obtain ⟨f, hf | ⟨j, h₁, h₂, h₃, h₄⟩⟩ := ih (i + 1)
        (freqWrite (seqAt s i).toNat (addW s.cfg.wFreq (freqAt s (seqAt s i).toNat) 1) s)
      · exact ⟨f, .inl hf⟩
      · exact ⟨f, .inr ⟨j, by omega, by omega, h₃, h₄⟩⟩

/-- One increment of FREQ that does not wrap. -/
theorem freqAt_increment (s : State) (u v : Nat) (h : freqAt s u + 1 < 2 ^ s.cfg.wFreq) :
    freqAt (freqWrite u (addW s.cfg.wFreq (freqAt s u) 1) s) v = freqAt s v + if u = v then 1 else 0 := by
  rw [freqAt_freqWrite, addW, Nat.mod_eq_of_lt h]
  by_cases hv : v = u
  · simp [hv]
  · rw [if_neg hv, if_neg (fun h => hv h.symm)]
    rfl

/-- With every symbol read inside the alphabet and no count near its width, the loop completes and adds to each entry the
number of its occurrences. -/
theorem countLoop_counts (n i : Nat) (s : State)
    (hA : ∀ j, i ≤ j → j < i + n → (seqAt s j).toNat < s.cfg.alphabet)
    (hW : ∀ v, freqAt s v + n < 2 ^ s.cfg.wFreq) :
    (countLoop n i s).phase = .counted ∧ ∀ v, freqAt (countLoop n i s) v = freqAt s v + countFrom s i n v := by
  induction n generalizing i s with
  | zero => exact ⟨rfl, fun v => rfl⟩
  | succ n ih =>
    have h₀ : ¬ s.cfg.alphabet ≤ (seqAt s i).toNat := Nat.not_le.2 (hA i (by omega) (by omega))
    have hw : freqAt s (seqAt s i).toNat + 1 < 2 ^ s.cfg.wFreq := by have := hW (seqAt s i).toNat; omega
    unfold countLoop
    rw [if_neg h₀]
    obtain ⟨h₁, h₂⟩ := ih (i + 1) (freqWrite (seqAt s i).toNat (addW s.cfg.wFreq (freqAt s (seqAt s i).toNat) 1) s)
      (fun j hj hj' => hA j (by omega) (by omega))
      (fun v => by
        rw [freqAt_increment s _ v hw, freqWrite_cfg]
        have := hW v
        split <;> omega)
    refine ⟨h₁, fun v => ?_⟩
    rw [h₂ v, freqAt_increment s _ v hw, countFrom_succ,
      countFrom_congr (s := s) fun j => seqAt_freqWrite _ _ s j]
    omega

/-- At the first symbol outside the alphabet, at index `i + m`, the loop raises SymbolOutOfRange and has counted the `m`
symbols before it. -/
theorem countLoop_stops (n m i : Nat) (s : State) (hm : m < n)
    (hA : ∀ j, i ≤ j → j < i + m → (seqAt s j).toNat < s.cfg.alphabet)
    (hbad : s.cfg.alphabet ≤ (seqAt s (i + m)).toNat)
    (hW : ∀ v, freqAt s v + m < 2 ^ s.cfg.wFreq) :
    ∃ f, countLoop n i s =
        raise .symbolOutOfRange (i + m) (zext16 (seqAt s (i + m))) { s with freq := f } ∧
      ∀ v, tabGet 0 f v = freqAt s v + countFrom s i m v := by
  induction m generalizing n i s with
  | zero =>
    obtain ⟨n, rfl⟩ : ∃ k, n = k + 1 := ⟨n - 1, by omega⟩
    refine ⟨s.freq, ?_, fun v => by simp [countFrom, freqAt]⟩
    unfold countLoop
    simp only [Nat.add_zero] at hbad ⊢
    rw [if_pos hbad]
  | succ m ih =>
    obtain ⟨n, rfl⟩ : ∃ k, n = k + 1 := ⟨n - 1, by omega⟩
    have h₀ : ¬ s.cfg.alphabet ≤ (seqAt s i).toNat := Nat.not_le.2 (hA i (by omega) (by omega))
    have hw : freqAt s (seqAt s i).toNat + 1 < 2 ^ s.cfg.wFreq := by have := hW (seqAt s i).toNat; omega
    unfold countLoop
    rw [if_neg h₀]
    obtain ⟨f, h₁, h₂⟩ := ih n (i + 1)
      (freqWrite (seqAt s i).toNat (addW s.cfg.wFreq (freqAt s (seqAt s i).toNat) 1) s) (by omega)
      (fun j hj hj' => hA j (by omega) (by omega))
      (by rw [seqAt_freqWrite, freqWrite_cfg, show i + 1 + m = i + (m + 1) by omega]; exact hbad)
      (fun v => by
        rw [freqAt_increment s _ v hw, freqWrite_cfg]
        have := hW v
        split <;> omega)
    refine ⟨f, ?_, fun v => ?_⟩
    · rw [h₁, seqAt_freqWrite, show i + 1 + m = i + (m + 1) by omega]
      rfl
    · rw [h₂ v, freqAt_increment s _ v hw, countFrom_succ,
        countFrom_congr (s := s) fun j => seqAt_freqWrite _ _ s j]
      omega

/-- What COUNT can do: count and complete, or raise SymbolOutOfRange at an index below NSYM. -/
theorem countBody_cases (s : State) :
    ∃ f, countBody s = countDone { s with freq := f } ∨
      ∃ j, j < s.nsym ∧ s.cfg.alphabet ≤ (seqAt s j).toNat ∧
        countBody s = raise .symbolOutOfRange j (zext16 (seqAt s j)) { s with freq := f } := by
  obtain ⟨f, h | ⟨j, -, h₂, h₃, h₄⟩⟩ := countLoop_cases s.nsym 0 (clearFreq s)
  · exact ⟨f, .inl h⟩
  · exact ⟨f, .inr ⟨j, by omega, h₃, h₄⟩⟩

/-- A COUNT that does not fault has read no symbol outside the alphabet. -/
theorem countLoop_in_range (n i : Nat) (s : State) (h : (countLoop n i s).phase ≠ .fault) :
    ∀ j, i ≤ j → j < i + n → (seqAt s j).toNat < s.cfg.alphabet := by
  induction n generalizing i s with
  | zero => intro j h₁ h₂; omega
  | succ n ih =>
    intro j h₁ h₂
    unfold countLoop at h
    split at h
    · exact absurd rfl h
    · rename_i hlt
      rcases Nat.eq_or_lt_of_le h₁ with rfl | hl
      · omega
      · exact ih (i + 1) _ h j hl (by omega)

end Sys2Proof.Machine
end

