-- ==== Sys2Proof/Laws/Derive.lean ====
section
/-! SUPPORT. Laws/Derive.lean: what the walk of DERIVE can change: path fields and CODE only. -/

namespace Sys2Proof.Machine

/-- The two records differ in their path fields at most. -/
abbrev sameTreeFields (r q : NodeRec) : Prop :=
  q.valid = r.valid ∧ q.kind = r.kind ∧ q.sym = r.sym ∧ q.freq = r.freq ∧ q.left = r.left ∧ q.right = r.right

theorem sameTreeFields_trans {a b c : NodeRec} (h : sameTreeFields a b) (h' : sameTreeFields b c) :
    sameTreeFields a c := by
  obtain ⟨h₁, h₂, h₃, h₄, h₅, h₆⟩ := h
  obtain ⟨g₁, g₂, g₃, g₄, g₅, g₆⟩ := h'
  exact ⟨g₁.trans h₁, g₂.trans h₂, g₃.trans h₃, g₄.trans h₄, g₅.trans h₅, g₆.trans h₆⟩

/-- `t` differs from `s` in NODE's path fields, CODE and PHASE at most: the frame of DERIVE. -/
structure OnlyPaths (s t : State) : Prop where
  cfg : t.cfg = s.cfg
  empty : t.empty = s.empty
  indep : t.indep = s.indep
  cause : t.cause = s.cause
  fidx : t.fidx = s.fidx
  finfo : t.finfo = s.finfo
  nsym : t.nsym = s.nsym
  nleaf : t.nleaf = s.nleaf
  nnode : t.nnode = s.nnode
  root : t.root = s.root
  pqcnt : t.pqcnt = s.pqcnt
  bitcnt : t.bitcnt = s.bitcnt
  seq : t.seq = s.seq
  freq : t.freq = s.freq
  pq : t.pq = s.pq
  scope : t.scope = s.scope
  plan : t.plan = s.plan
  log : t.log = s.log
  host : t.host = s.host
  tree : ∀ k, sameTreeFields (nodeAt s k) (nodeAt t k)

theorem OnlyPaths.refl (s : State) : OnlyPaths s s := by
  constructor <;> first | rfl | exact fun _ => ⟨rfl, rfl, rfl, rfl, rfl, rfl⟩

theorem OnlyPaths.trans {s t u : State} (h : OnlyPaths s t) (h' : OnlyPaths t u) : OnlyPaths s u where
  cfg := h'.cfg.trans h.cfg
  empty := h'.empty.trans h.empty
  indep := h'.indep.trans h.indep
  cause := h'.cause.trans h.cause
  fidx := h'.fidx.trans h.fidx
  finfo := h'.finfo.trans h.finfo
  nsym := h'.nsym.trans h.nsym
  nleaf := h'.nleaf.trans h.nleaf
  nnode := h'.nnode.trans h.nnode
  root := h'.root.trans h.root
  pqcnt := h'.pqcnt.trans h.pqcnt
  bitcnt := h'.bitcnt.trans h.bitcnt
  seq := h'.seq.trans h.seq
  freq := h'.freq.trans h.freq
  pq := h'.pq.trans h.pq
  scope := h'.scope.trans h.scope
  plan := h'.plan.trans h.plan
  log := h'.log.trans h.log
  host := h'.host.trans h.host
  tree := fun k => sameTreeFields_trans (h.tree k) (h'.tree k)

theorem onlyPaths_setPath (k : Nat) (p : List Bool) (s : State) : OnlyPaths s (setPath k p s) := by
  constructor <;> first | rfl | skip
  intro j
  rw [nodeAt_setPath]
  split
  · rename_i h
    subst h
    exact ⟨rfl, rfl, rfl, rfl, rfl, rfl⟩
  · exact ⟨rfl, rfl, rfl, rfl, rfl, rfl⟩

theorem onlyPaths_codeWrite (v : Nat) (e : CodeEntry) (s : State) : OnlyPaths s (codeWrite v e s) := by
  constructor <;> first | rfl | exact fun _ => ⟨rfl, rfl, rfl, rfl, rfl, rfl⟩

theorem onlyPaths_clearCode (s : State) : OnlyPaths s (clearCode s) := by
  constructor <;> first | rfl | exact fun _ => ⟨rfl, rfl, rfl, rfl, rfl, rfl⟩

theorem onlyPaths_setPhase (ph : Phase) (s : State) : OnlyPaths s (setPhase ph s) := by
  constructor <;> first | rfl | exact fun _ => ⟨rfl, rfl, rfl, rfl, rfl, rfl⟩

/-- The walk changes path fields and CODE only. -/
theorem onlyPaths_visit (n k : Nat) (p : List Bool) (s : State) : OnlyPaths s (visit n k p s) := by
  induction n generalizing k p s with
  | zero => exact .refl s
  | succ n ih =>
    unfold visit
    split
    · exact (onlyPaths_setPath k p s).trans (onlyPaths_codeWrite _ _ _)
    · exact (onlyPaths_setPath k p s).trans ((ih _ _ _).trans (ih _ _ _))

/-- Without a tree the walk does nothing (R136). -/
theorem deriveWalk_of_no_tree {s : State} (h : s.root = s.cfg.noNode) : deriveWalk s = s := by simp [deriveWalk, h]

/-- A lone leaf gets the empty path and its symbol the forced code (R135). -/
theorem deriveWalk_of_leaf {s : State} (h : s.root ≠ s.cfg.noNode) (hk : (nodeAt s s.root).kind = .leaf) :
    deriveWalk s = codeWrite (nodeAt s s.root).sym.toNat loneCode (setPath s.root [] s) := by
  simp [deriveWalk, h, hk]

/-- A tree is walked from its root (R131). -/
theorem deriveWalk_of_internal {s : State} (h : s.root ≠ s.cfg.noNode) (hk : (nodeAt s s.root).kind = .internal) :
    deriveWalk s = visit s.nnode s.root [] s := by simp [deriveWalk, h, hk]

theorem onlyPaths_deriveWalk (s : State) : OnlyPaths s (deriveWalk s) := by
  unfold deriveWalk
  split
  · exact .refl s
  · split
    · exact (onlyPaths_setPath _ _ s).trans (onlyPaths_codeWrite _ _ _)
    · exact onlyPaths_visit _ _ _ s

theorem deriveBody_frame (s : State) : OnlyPaths s (deriveBody s) :=
  (onlyPaths_clearCode s).trans ((onlyPaths_deriveWalk _).trans (onlyPaths_setPhase _ _))

@[simp] theorem deriveBody_phase (s : State) : (deriveBody s).phase = .derived := rfl

end Sys2Proof.Machine
end

