-- ==== Sys2Proof/Laws/Pack.lean ====
section
/-! SUPPORT. Laws/Pack.lean: what the emission loop of PACK does, and the sink's side of it. -/

namespace Sys2Proof.Machine

@[simp] theorem accepted_nil : accepted [] = [] := rfl

@[simp] theorem accepted_cons (b : Bool) (bs : List Bool) :
    accepted (b :: bs) = { call := .writeBit b, answer := .ok } :: accepted bs := rfl

theorem accepted_append (bs cs : List Bool) : accepted (bs ++ cs) = accepted bs ++ accepted cs := by
  simp [accepted]

@[simp] theorem acceptedBits_accepted (bs : List Bool) : acceptedBits (accepted bs) = bs := by
  induction bs with
  | nil => rfl
  | cons b bs ih => simp [acceptedBits, ih]

theorem acceptedBits_append (es fs : List SinkEvent) :
    acceptedBits (es ++ fs) = acceptedBits es ++ acceptedBits fs := by
  induction es with
  | nil => rfl
  | cons e es ih =>
    obtain ⟨c, a⟩ := e
    cases c <;> cases a <;> simp [acceptedBits, ih]

/-- The state after `k` accepted bits `bits` and the BITCNT they give. -/
def afterBits (bits : List Bool) (s : State) : State :=
  { s with plan := s.plan.drop bits.length, log := s.log ++ accepted bits, bitcnt := s.bitcnt + bits.length }

@[simp] theorem afterBits_cfg (bits : List Bool) (s : State) : (afterBits bits s).cfg = s.cfg := rfl
@[simp] theorem afterBits_phase (bits : List Bool) (s : State) : (afterBits bits s).phase = s.phase := rfl
@[simp] theorem afterBits_empty (bits : List Bool) (s : State) : (afterBits bits s).empty = s.empty := rfl
@[simp] theorem afterBits_indep (bits : List Bool) (s : State) : (afterBits bits s).indep = s.indep := rfl
@[simp] theorem afterBits_cause (bits : List Bool) (s : State) : (afterBits bits s).cause = s.cause := rfl
@[simp] theorem afterBits_fidx (bits : List Bool) (s : State) : (afterBits bits s).fidx = s.fidx := rfl
@[simp] theorem afterBits_finfo (bits : List Bool) (s : State) : (afterBits bits s).finfo = s.finfo := rfl
@[simp] theorem afterBits_nsym (bits : List Bool) (s : State) : (afterBits bits s).nsym = s.nsym := rfl
@[simp] theorem afterBits_nleaf (bits : List Bool) (s : State) : (afterBits bits s).nleaf = s.nleaf := rfl
@[simp] theorem afterBits_nnode (bits : List Bool) (s : State) : (afterBits bits s).nnode = s.nnode := rfl
@[simp] theorem afterBits_root (bits : List Bool) (s : State) : (afterBits bits s).root = s.root := rfl
@[simp] theorem afterBits_pqcnt (bits : List Bool) (s : State) : (afterBits bits s).pqcnt = s.pqcnt := rfl
@[simp] theorem afterBits_bitcnt (bits : List Bool) (s : State) : (afterBits bits s).bitcnt = s.bitcnt + bits.length := rfl
@[simp] theorem afterBits_seq (bits : List Bool) (s : State) : (afterBits bits s).seq = s.seq := rfl
@[simp] theorem afterBits_freq (bits : List Bool) (s : State) : (afterBits bits s).freq = s.freq := rfl
@[simp] theorem afterBits_node (bits : List Bool) (s : State) : (afterBits bits s).node = s.node := rfl
@[simp] theorem afterBits_pq (bits : List Bool) (s : State) : (afterBits bits s).pq = s.pq := rfl
@[simp] theorem afterBits_code (bits : List Bool) (s : State) : (afterBits bits s).code = s.code := rfl
@[simp] theorem afterBits_scope (bits : List Bool) (s : State) : (afterBits bits s).scope = s.scope := rfl
@[simp] theorem afterBits_plan (bits : List Bool) (s : State) : (afterBits bits s).plan = s.plan.drop bits.length := rfl
@[simp] theorem afterBits_log (bits : List Bool) (s : State) : (afterBits bits s).log = s.log ++ accepted bits := rfl
@[simp] theorem afterBits_host (bits : List Bool) (s : State) : (afterBits bits s).host = s.host := rfl
@[simp] theorem seqAt_afterBits (bits : List Bool) (s : State) (x : Nat) : seqAt (afterBits bits s) x = seqAt s x := rfl
@[simp] theorem freqAt_afterBits (bits : List Bool) (s : State) (x : Nat) : freqAt (afterBits bits s) x = freqAt s x := rfl
@[simp] theorem nodeAt_afterBits (bits : List Bool) (s : State) (x : Nat) : nodeAt (afterBits bits s) x = nodeAt s x := rfl
@[simp] theorem codeAt_afterBits (bits : List Bool) (s : State) (x : Nat) : codeAt (afterBits bits s) x = codeAt s x := rfl

/-- One accepted bit. -/
theorem countBit_sinkCall (b : Bool) (s : State) (hb : s.bitcnt + 1 < 2 ^ s.cfg.wBits)
    (ha : sinkAnswer s (.writeBit b) = .ok) : countBit (sinkCall (.writeBit b) s) = afterBits [b] s := by
  simp [countBit, sinkCall, afterBits, ha, addW, Nat.mod_eq_of_lt hb]

theorem afterBits_nil (s : State) : afterBits [] s = s := by simp [afterBits]

theorem afterBits_afterBits (bs cs : List Bool) (s : State) :
    afterBits cs (afterBits bs s) = afterBits (bs ++ cs) s := by
  simp [afterBits, accepted_append, Nat.add_assoc]

/-- The inner loop of PACK: either every bit of the code was accepted, or the first `k` were and the next one was
refused. -/
theorem emitBits_cases (bits j : Nat) (s : State) (hb : s.bitcnt + j < 2 ^ s.cfg.wBits) :
    emitBits bits j s = (.ok, afterBits (unpackBits j bits) s) ∨
      ∃ k b, k < j ∧ (unpackBits j bits)[k]? = some b ∧
        sinkAnswer (afterBits ((unpackBits j bits).take k) s) (.writeBit b) = .fail ∧
        emitBits bits j s = (.fail, sinkCall (.writeBit b) (afterBits ((unpackBits j bits).take k) s)) := by
  induction j generalizing s with
  | zero => left; simp [emitBits, afterBits_nil]
  | succ j ih =>
    unfold emitBits
    rw [unpackBits_succ]
    cases ha : sinkAnswer s (.writeBit (bits.testBit j)) with
    | ok =>
      simp only []
      rw [countBit_sinkCall _ _ (by omega) ha]
      obtain h | ⟨k, b, hk, hget, hans, h⟩ := ih (afterBits [bits.testBit j] s) (by simp [afterBits]; omega)
      · left
        rw [h, afterBits_afterBits]
        rfl
      · right
        refine ⟨k + 1, b, by omega, by simpa using hget, ?_, ?_⟩
        · rw [afterBits_afterBits] at hans
          simpa using hans
        · rw [h, afterBits_afterBits]
          simp
    | fail =>
      right
      refine ⟨0, bits.testBit j, by omega, by simp, ?_, ?_⟩
      · simpa [afterBits_nil] using ha
      · simp [afterBits_nil]

/-! ## The outer loop -/

/-- The codes of the `m` symbols of SEQ from index `i` on. -/
def bitsFrom (s : State) (i m : Nat) : List Bool :=
  (List.range' i m).flatMap fun j => codeBits s (seqAt s j).toNat

@[simp] theorem bitsFrom_zero (s : State) (i : Nat) : bitsFrom s i 0 = [] := rfl

theorem bitsFrom_succ (s : State) (i m : Nat) :
    bitsFrom s i (m + 1) = codeBits s (seqAt s i).toNat ++ bitsFrom s (i + 1) m := by
  simp [bitsFrom, List.range'_succ]

/-- The error PACK reports for a symbol it cannot pack (R148, R149). -/
def symbolError (s : State) (i : Nat) : PackError where
  cause := if s.cfg.alphabet ≤ (seqAt s i).toNat then .symbolOutOfRange else .symbolNotCoded
  idx   := i
  info  := zext16 (seqAt s i)

/-- The outer loop of PACK from index `i` with `n` symbols left: `m` symbols are packed whole; then the sequence is at its
end, or the next symbol cannot be packed, or the sink accepts `k` bits of its code and refuses the next. -/
theorem packLoop_cases (M n i : Nat) (s : State) (hM : ∀ v, (codeAt s v).len ≤ M)
    (hb : s.bitcnt + n * M < 2 ^ s.cfg.wBits) :
    ∃ m, m ≤ n ∧ (∀ j, i ≤ j → j < i + m → codable s (seqAt s j) = true) ∧
      ((m = n ∧ packLoop n i s = (none, afterBits (bitsFrom s i n) s)) ∨
        (m < n ∧ codable s (seqAt s (i + m)) = false ∧
          packLoop n i s = (some (symbolError s (i + m)), afterBits (bitsFrom s i m) s)) ∨
        ∃ k b, m < n ∧ codable s (seqAt s (i + m)) = true ∧ k < (codeAt s (seqAt s (i + m)).toNat).len ∧
          (codeBits s (seqAt s (i + m)).toNat)[k]? = some b ∧
          sinkAnswer (afterBits (bitsFrom s i m ++ (codeBits s (seqAt s (i + m)).toNat).take k) s) (.writeBit b) =
            .fail ∧
          packLoop n i s = (some { cause := .sinkFailure, idx := i + m, info := 0#16 },
            sinkCall (.writeBit b)
              (afterBits (bitsFrom s i m ++ (codeBits s (seqAt s (i + m)).toNat).take k) s))) := by
  induction n generalizing i s with
  | zero =>
    refine ⟨0, le_refl 0, fun j h₁ h₂ => by omega, .inl ⟨rfl, ?_⟩⟩
    simp [packLoop, afterBits_nil]
  | succ n ih =>
    unfold packLoop
    by_cases h₁ : s.cfg.alphabet ≤ (seqAt s i).toNat
    · refine ⟨0, by omega, fun j _ _ => by omega, .inr (.inl ⟨by omega, ?_, ?_⟩)⟩
      · simp [codable, h₁]
      · simp [h₁, symbolError, afterBits_nil]
    rw [if_neg h₁]
    by_cases h₂ : (codeAt s (seqAt s i).toNat).len = 0
    · refine ⟨0, by omega, fun j _ _ => by omega, .inr (.inl ⟨by omega, ?_, ?_⟩)⟩
      · simp [codable, h₂]
      · simp [h₁, h₂, symbolError, afterBits_nil]
    rw [if_neg h₂]
    have hc : codable s (seqAt s i) = true := by simp [codable, h₂, Nat.not_le.1 h₁]
    have hlen := hM (seqAt s i).toNat
    have hbn : s.bitcnt + M + n * M < 2 ^ s.cfg.wBits := by
      rw [Nat.succ_mul] at hb
      omega
    obtain h | ⟨k, b, hk, hget, hans, h⟩ :=
      emitBits_cases (codeAt s (seqAt s i).toNat).bits (codeAt s (seqAt s i).toNat).len s (by omega)
    · rw [h]
      simp only []
      have hcb : unpackBits (codeAt s (seqAt s i).toNat).len (codeAt s (seqAt s i).toNat).bits =
        codeBits s (seqAt s i).toNat := rfl
      rw [hcb]
      obtain ⟨m, hm, hcod, hcase⟩ := ih (i + 1) (afterBits (codeBits s (seqAt s i).toNat) s) hM
        (by simp [afterBits, codeBits]; omega)
      refine ⟨m + 1, by omega, fun j hj hj' => ?_, ?_⟩
      · rcases Nat.eq_or_lt_of_le hj with rfl | hlt
        · exact hc
        · exact hcod j hlt (by omega)
      have hi : i + 1 + m = i + (m + 1) := by omega
      rw [hi] at hcase
      have hbits : ∀ m, bitsFrom (afterBits (codeBits s (seqAt s i).toNat) s) (i + 1) m = bitsFrom s (i + 1) m :=
        fun _ => rfl
      obtain ⟨rfl, hcase⟩ | ⟨hlt, hbad, hcase⟩ | ⟨k, b, hlt, hgood, hk, hget, hans, hcase⟩ := hcase
      · refine .inl ⟨rfl, ?_⟩
        rw [hcase, hbits, afterBits_afterBits, ← bitsFrom_succ]
      · refine .inr (.inl ⟨by omega, hbad, ?_⟩)
        rw [hcase, hbits, afterBits_afterBits, ← bitsFrom_succ]
        rfl
      · refine .inr (.inr ⟨k, b, by omega, hgood, hk, hget, ?_, ?_⟩)
        · rw [hbits, afterBits_afterBits, ← List.append_assoc, ← bitsFrom_succ] at hans
          exact hans
        · rw [hcase, hbits, afterBits_afterBits, ← List.append_assoc, ← bitsFrom_succ]
          rfl
    · refine ⟨0, by omega, fun j _ _ => by omega, .inr (.inr ⟨k, b, by omega, hc, hk, hget, ?_, ?_⟩)⟩
      · simpa [codeBits] using hans
      · rw [h]
        simp [codeBits]

/-! ## The calls on the sink, whatever it answers -/

/-- From `s` to `t` the calls `es` were made, all `write_bit`, none after a refused one; besides the sink's side only
BITCNT may differ. -/
structure Writes (s t : State) (es : List SinkEvent) : Prop where
  log     : t.log = s.log ++ es
  plan    : t.plan = s.plan.drop es.length
  answers : (es.map SinkEvent.answer).take s.plan.length = s.plan.take es.length
  bits    : ∀ e ∈ es, e.call ≠ .flush
  before  : ∀ e ∈ es.dropLast, e.answer = .ok
  frame   : t = { s with log := t.log, plan := t.plan, bitcnt := t.bitcnt }

theorem Writes.nil (s : State) : Writes s s [] := by constructor <;> simp

/-- An answer of the sink is the next fixed one, if there is one. -/
theorem take_sinkAnswer (s : State) (c : SinkCall) : [sinkAnswer s c].take s.plan.length = s.plan.take 1 := by
  cases h : s.plan with
  | nil => rfl
  | cons a as => simp [sinkAnswer, h]

/-- One more call after calls that were all answered `ok`. -/
theorem Writes.append {s t u : State} {es fs : List SinkEvent} (h : Writes s t es) (hok : ∀ e ∈ es, e.answer = .ok)
    (h' : Writes t u fs) : Writes s u (es ++ fs) where
  log := by rw [h'.log, h.log, List.append_assoc]
  plan := by rw [h'.plan, h.plan, List.drop_drop, List.length_append]
  answers := by
    have h₁ := h.answers
    have h₂ := h'.answers
    rw [h.plan] at h₂
    by_cases hl : es.length ≤ s.plan.length
    · rw [List.map_append, List.take_append, h₁, List.length_map, List.length_append, List.take_add]
      rw [List.length_drop] at h₂
      rw [h₂]
    · rw [List.map_append, List.take_append_of_le_length (by simp; omega), h₁, List.take_of_length_le (by omega),
        List.take_of_length_le (by simp; omega)]
  bits := fun e he => (List.mem_append.1 he).elim (h.bits e) (h'.bits e)
  before := by
    intro e he
    by_cases hf : fs = []
    · subst hf
      rw [List.append_nil] at he
      exact h.before e he
    · rw [List.dropLast_append_of_ne_nil hf] at he
      exact (List.mem_append.1 he).elim (hok e) (h'.before e)
  frame := by
    have h₁ := h.frame
    have h₂ := h'.frame
    rw [h₁] at h₂
    exact h₂

/-- One `write_bit`. -/
theorem writes_sinkCall (b : Bool) (s : State) :
    Writes s (sinkCall (.writeBit b) s) [⟨.writeBit b, sinkAnswer s (.writeBit b)⟩] where
  log := rfl
  plan := by simp
  answers := take_sinkAnswer s _
  bits := by simp
  before := by simp
  frame := rfl

theorem writes_countBit {s t : State} {es : List SinkEvent} (h : Writes s t es) : Writes s (countBit t) es where
  log := h.log
  plan := h.plan
  answers := h.answers
  bits := h.bits
  before := h.before
  frame := by
    have h₁ := h.frame
    generalize t.log = l at h₁
    generalize t.plan = p at h₁
    generalize t.bitcnt = b at h₁
    subst h₁
    rfl

/-- The inner loop of PACK makes `write_bit` calls only. -/
theorem emitBits_writes (bits j : Nat) (s : State) :
    ∃ es, Writes s (emitBits bits j s).2 es ∧ ((emitBits bits j s).1 = .ok → ∀ e ∈ es, e.answer = .ok) := by
  induction j generalizing s with
  | zero => exact ⟨[], .nil s, by simp⟩
  | succ j ih =>
    have h₁ := writes_sinkCall (bits.testBit j) s
    unfold emitBits
    cases ha : sinkAnswer s (.writeBit (bits.testBit j)) with
    | ok =>
      rw [ha] at h₁
      obtain ⟨es, h₂, h₃⟩ := ih (countBit (sinkCall (.writeBit (bits.testBit j)) s))
      refine ⟨_, (writes_countBit h₁).append (by simp) h₂, fun hok e he => ?_⟩
      rcases List.mem_append.1 he with he | he
      · rw [List.mem_singleton.1 he]
      · exact h₃ hok e he
    | fail =>
      rw [ha] at h₁
      exact ⟨_, h₁, by simp⟩

/-- The outer loop of PACK makes `write_bit` calls only, and reports an index it has read. -/
theorem packLoop_writes (n i : Nat) (s : State) :
    ∃ es, Writes s (packLoop n i s).2 es ∧ ((packLoop n i s).1 = none → ∀ e ∈ es, e.answer = .ok) ∧
      ∀ err, (packLoop n i s).1 = some err → i ≤ err.idx ∧ err.idx < i + n ∧
        ((err.cause = .sinkFailure ∧ err.info = 0#16) ∨
          ((err.cause = .symbolOutOfRange ∨ err.cause = .symbolNotCoded) ∧ err.info = zext16 (seqAt s err.idx))) := by
  induction n generalizing i s with
  | zero => exact ⟨[], .nil s, by simp, by simp [packLoop]⟩
  | succ n ih =>
    unfold packLoop
    split
    · refine ⟨[], .nil s, by simp, fun err h => ?_⟩
      cases h
      exact ⟨Nat.le_refl _, by show i < _; omega, .inr ⟨.inl rfl, rfl⟩⟩
    split
    · refine ⟨[], .nil s, by simp, fun err h => ?_⟩
      cases h
      exact ⟨Nat.le_refl _, by show i < _; omega, .inr ⟨.inr rfl, rfl⟩⟩
    obtain ⟨es, h₁, h₂⟩ := emitBits_writes (codeAt s (seqAt s i).toNat).bits (codeAt s (seqAt s i).toNat).len s
    generalize emitBits (codeAt s (seqAt s i).toNat).bits (codeAt s (seqAt s i).toNat).len s = r at *
    obtain ⟨a, s'⟩ := r
    cases a with
    | ok =>
      obtain ⟨fs, h₃, h₄, h₅⟩ := ih (i + 1) s'
      refine ⟨es ++ fs, h₁.append (h₂ rfl) h₃, fun hn e he => ?_, fun err herr => ?_⟩
      · exact (List.mem_append.1 he).elim (h₂ rfl e) (h₄ hn e)
      · obtain ⟨h₆, h₇, h₈⟩ := h₅ err herr
        have hs : ∀ x, seqAt s' x = seqAt s x := fun x => by
          have hf : s' = _ := h₁.frame
          rw [hf]
          rfl
        rw [hs] at h₈
        exact ⟨by omega, by omega, h₈⟩
    | fail =>
      refine ⟨es, h₁, by simp, fun err herr => ?_⟩
      cases herr
      exact ⟨Nat.le_refl _, by show i < _; omega, .inl ⟨rfl, rfl⟩⟩

/-- PACK from the outcome of its loop. -/
theorem packBody_of_loop {s t : State} {err : Option PackError}
    (h : packLoop s.nsym 0 (openScope s) = (err, t)) :
    packBody s = packEnd err (sinkAnswer t .flush) (closeScope (sinkCall .flush t)) := by
  unfold packBody packFlush
  rw [h]

/-- What PACK can do, whatever the sink answers: `write_bit` calls `es`, then one flush answered `r`, then the fault the
loop reports, the failure of the flush, or DONE. -/
theorem packBody_cases (s : State) :
    ∃ es t r, Writes (openScope s) t es ∧ r = sinkAnswer t .flush ∧
      ((∃ err : PackError, err.idx < s.nsym ∧
          ((err.cause = .sinkFailure ∧ err.info = 0#16) ∨
            ((err.cause = .symbolOutOfRange ∨ err.cause = .symbolNotCoded) ∧ err.info = zext16 (seqAt s err.idx))) ∧
          packBody s = raise err.cause err.idx err.info (closeScope (sinkCall .flush t))) ∨
        ((∀ e ∈ es, e.answer = .ok) ∧ r = .fail ∧
          packBody s = raise .sinkFailure s.nsym 0#16 (closeScope (sinkCall .flush t))) ∨
        ((∀ e ∈ es, e.answer = .ok) ∧ r = .ok ∧
          packBody s = setPhase .done (closeScope (sinkCall .flush t)))) := by
  obtain ⟨es, h₁, h₂, h₃⟩ := packLoop_writes s.nsym 0 (openScope s)
  unfold packBody
  simp only []
  generalize packLoop s.nsym 0 (openScope s) = q at *
  obtain ⟨err, t⟩ := q
  refine ⟨es, t, _, h₁, rfl, ?_⟩
  have hn : t.nsym = s.nsym := by
    have hf : t = _ := h₁.frame
    rw [hf]
    rfl
  cases err with
  | some err =>
    obtain ⟨-, h₄, h₅⟩ := h₃ err rfl
    exact .inl ⟨err, by omega, h₅, rfl⟩
  | none =>
    right
    unfold packFlush
    cases hr : sinkAnswer t .flush with
    | ok => exact .inr ⟨h₂ rfl, rfl, rfl⟩
    | fail => exact .inl ⟨h₂ rfl, rfl, by simp [packEnd, hn]⟩

/-- `t` differs from `s` in PHASE, CAUSE, FIDX, FINFO, BITCNT, SCOPE and the sink's side at most: the frame of PACK. -/
structure OnlyPacked (s t : State) : Prop where
  cfg : t.cfg = s.cfg
  empty : t.empty = s.empty
  indep : t.indep = s.indep
  nsym : t.nsym = s.nsym
  nleaf : t.nleaf = s.nleaf
  nnode : t.nnode = s.nnode
  root : t.root = s.root
  pqcnt : t.pqcnt = s.pqcnt
  seq : t.seq = s.seq
  freq : t.freq = s.freq
  node : t.node = s.node
  pq : t.pq = s.pq
  code : t.code = s.code
  host : t.host = s.host

theorem Writes.onlyPacked {s t : State} {es : List SinkEvent} (h : Writes s t es) : OnlyPacked s t := by
  constructor <;> rw [h.frame]

theorem packEnd_frame (err : Option PackError) (r : SinkAnswer) (s : State) : OnlyPacked s (packEnd err r s) := by
  cases err <;> cases r <;> constructor <;> rfl

@[simp] theorem packEnd_scope (err : Option PackError) (r : SinkAnswer) (s : State) :
    (packEnd err r s).scope = s.scope := by cases err <;> cases r <;> rfl

@[simp] theorem packEnd_log (err : Option PackError) (r : SinkAnswer) (s : State) :
    (packEnd err r s).log = s.log := by cases err <;> cases r <;> rfl

@[simp] theorem packEnd_plan (err : Option PackError) (r : SinkAnswer) (s : State) :
    (packEnd err r s).plan = s.plan := by cases err <;> cases r <;> rfl

@[simp] theorem packEnd_bitcnt (err : Option PackError) (r : SinkAnswer) (s : State) :
    (packEnd err r s).bitcnt = s.bitcnt := by cases err <;> cases r <;> rfl

@[simp] theorem packBody_scope (s : State) : (packBody s).scope = false := by simp [packBody, packFlush]

theorem packBody_frame (s : State) : OnlyPacked s (packBody s) := by
  obtain ⟨es, h, -⟩ := packLoop_writes s.nsym 0 (openScope s)
  have h₁ := h.onlyPacked
  have h₂ := packEnd_frame (packLoop s.nsym 0 (openScope s)).1
    (sinkAnswer (packLoop s.nsym 0 (openScope s)).2 .flush)
    (closeScope (sinkCall .flush (packLoop s.nsym 0 (openScope s)).2))
  exact {
    cfg := h₂.cfg.trans h₁.cfg
    empty := h₂.empty.trans h₁.empty
    indep := h₂.indep.trans h₁.indep
    nsym := h₂.nsym.trans h₁.nsym
    nleaf := h₂.nleaf.trans h₁.nleaf
    nnode := h₂.nnode.trans h₁.nnode
    root := h₂.root.trans h₁.root
    pqcnt := h₂.pqcnt.trans h₁.pqcnt
    seq := h₂.seq.trans h₁.seq
    freq := h₂.freq.trans h₁.freq
    node := h₂.node.trans h₁.node
    pq := h₂.pq.trans h₁.pq
    code := h₂.code.trans h₁.code
    host := h₂.host.trans h₁.host
  }

/-- The frame of PACK in the terms of Safety.lean. -/
theorem OnlyPacked.same {s t : State} (h : OnlyPacked s t) :
    sameSeq s t ∧ sameFreq s t ∧ sameTree s t ∧ sameCode s t ∧ sameFlags s t ∧ sameWorld s t :=
  ⟨⟨h.nsym, fun _ => by rw [seqAt, h.seq]; rfl⟩, fun _ => by rw [freqAt, h.freq]; rfl,
    ⟨fun _ => by rw [nodeAt, h.node, h.cfg]; rfl, h.pq, h.nleaf, h.nnode, h.root, h.pqcnt⟩,
    fun _ => by rw [codeAt, h.code]; rfl, ⟨h.empty, h.indep⟩, ⟨h.cfg, h.host⟩⟩

/-! ## The sequence and the bits of its codes -/

@[simp] theorem seqList_length (s : State) : (seqList s).length = s.nsym := by simp [seqList]

theorem seqList_getElem (s : State) (i : Nat) (h : i < (seqList s).length) : (seqList s)[i] = seqAt s i := by
  simp [seqList]

theorem mem_seqList (s : State) (b : Byte) : b ∈ seqList s ↔ ∃ i < s.nsym, seqAt s i = b := by simp [seqList]

theorem bitsUpTo_eq (s : State) {m : Nat} (h : m ≤ s.nsym) : bitsUpTo s m = bitsFrom s 0 m := by
  rw [bitsUpTo, seqList, ← List.map_take, List.take_range, Nat.min_eq_left h, List.range_eq_range', List.flatMap_map,
    bitsFrom]

theorem bitsUpTo_succ (s : State) {m : Nat} (h : m < s.nsym) :
    bitsUpTo s (m + 1) = bitsUpTo s m ++ codeBits s (seqAt s m).toNat := by
  rw [bitsUpTo_eq s (by omega), bitsUpTo_eq s (by omega)]
  simp [bitsFrom, List.range'_concat]

theorem bitsUpTo_prefix (s : State) {m n : Nat} (h : m ≤ n) : bitsUpTo s m <+: bitsUpTo s n := by
  obtain ⟨l, hl⟩ : (seqList s).take m <+: (seqList s).take n := List.take_prefix_take_left h
  rw [bitsUpTo, bitsUpTo, ← hl, List.flatMap_append]
  exact List.prefix_append _ _

/-- The first symbol that cannot be packed, found from what stands before it. -/
theorem firstUncodable_eq (s : State) {m : Nat} (hm : m ≤ s.nsym) (h : ∀ j < m, codable s (seqAt s j) = true)
    (h' : m = s.nsym ∨ codable s (seqAt s m) = false) : firstUncodable s = m := by
  unfold firstUncodable
  rcases Nat.eq_or_lt_of_le hm with he | hlt
  · rw [List.findIdx_eq_length.2]
    · simp [he]
    · intro x hx
      obtain ⟨i, hi, rfl⟩ := (mem_seqList s x).1 hx
      simp [h i (by omega)]
  · have h₁ : codable s (seqAt s m) = false := h'.resolve_left (by omega)
    rw [List.findIdx_eq (by simpa using hlt)]
    refine ⟨?_, fun j hj => ?_⟩
    · rw [seqList_getElem]
      simp [h₁]
    · rw [seqList_getElem]
      simp [h j hj]

/-- Every symbol before the first that cannot be packed can be packed. -/
theorem codable_of_lt_firstUncodable (s : State) {j : Nat} (h : j < firstUncodable s) :
    codable s (seqAt s j) = true := by
  have hj : j < (seqList s).length := Nat.lt_of_lt_of_le h List.findIdx_le_length
  have := List.not_of_lt_findIdx h
  rw [seqList_getElem s j hj] at this
  simpa using this

theorem firstUncodable_le (s : State) : firstUncodable s ≤ s.nsym := by
  have h : firstUncodable s ≤ (seqList s).length := List.findIdx_le_length
  rwa [seqList_length] at h

/-- The first symbol that cannot be packed cannot be packed. -/
theorem not_codable_firstUncodable (s : State) (h : firstUncodable s < s.nsym) :
    codable s (seqAt s (firstUncodable s)) = false := by
  have hl : firstUncodable s < (seqList s).length := by simpa using h
  have h₁ : (!codable s (seqList s)[firstUncodable s]) = true :=
    List.findIdx_getElem (xs := seqList s) (p := fun b => !codable s b) (w := hl)
  rw [seqList_getElem s _ hl] at h₁
  simpa using h₁

/-- The loop of PACK, with the codes up to the first symbol `f` that cannot be packed: all are accepted, or the sink
refuses the bit `b` after the `m` codes before it and `k` bits of the code of symbol `m < f`. -/
theorem packLoop_outcome (s : State) (M : Nat) (hM : ∀ v, (codeAt s v).len ≤ M) (hb : s.nsym * M < 2 ^ s.cfg.wBits) :
    packLoop s.nsym 0 (openScope s) =
        (if firstUncodable s = s.nsym then none else some (symbolError s (firstUncodable s)),
          afterBits (bitsUpTo s (firstUncodable s)) (openScope s)) ∨
      ∃ m k b, m < firstUncodable s ∧ k < (codeBits s (seqAt s m).toNat).length ∧
        (codeBits s (seqAt s m).toNat)[k]? = some b ∧
        sinkAnswer (afterBits (bitsUpTo s m ++ (codeBits s (seqAt s m).toNat).take k) (openScope s)) (.writeBit b) =
          .fail ∧
        packLoop s.nsym 0 (openScope s) = (some { cause := .sinkFailure, idx := m, info := 0#16 },
          sinkCall (.writeBit b) (afterBits (bitsUpTo s m ++ (codeBits s (seqAt s m).toNat).take k) (openScope s))) := by
  obtain ⟨m, hm, hc, hcase⟩ := packLoop_cases M s.nsym 0 (openScope s) hM (by simpa using hb)
  have e : bitsFrom (openScope s) 0 m = bitsUpTo s m := (bitsUpTo_eq s hm).symm
  have hc' : ∀ j < m, codable s (seqAt s j) = true := fun j hj => hc j (Nat.zero_le _) (by omega)
  simp only [Nat.zero_add] at hcase
  obtain ⟨h₁, h₂⟩ | ⟨h₁, h₂, h₃⟩ | ⟨k, b, h₁, h₂, h₃, h₄, h₅, h₆⟩ := hcase
  · left
    rw [firstUncodable_eq s hm hc' (.inl h₁), if_pos h₁, h₂, ← e, h₁]
  · left
    rw [firstUncodable_eq s hm hc' (.inr h₂), if_neg (by omega), h₃, ← e]
    rfl
  · right
    refine ⟨m, k, b, ?_, ?_, h₄, by rw [← e]; exact h₅, by rw [h₆, ← e]; rfl⟩
    · rcases Nat.lt_or_ge m (firstUncodable s) with h | h
      · exact h
      · exfalso
        have hf : firstUncodable s < s.nsym := by omega
        have h₇ := not_codable_firstUncodable s hf
        rcases Nat.eq_or_lt_of_le h with h | h
        · have h₂' : codable s (seqAt s m) = true := h₂
          rw [h, h₂'] at h₇
          cases h₇
        · exact absurd (hc' _ h) (by simp [h₇])
    · simpa [codeBits] using h₃

end Sys2Proof.Machine
end

