-- ==== Sys2Proof/Laws/Encode.lean ====
section
/-! SUPPORT. Laws/Encode.lean: what ENCODE can do. -/

namespace Sys2Proof.Machine

/-- What ENCODE can do: fault in its COUNT part, or run all four parts. -/
theorem encodeBody_cases (s : State) :
    (∃ f j, j < s.nsym ∧ s.cfg.alphabet ≤ (seqAt s j).toNat ∧ encodeBody s = countBody s ∧
        countBody s = raise .symbolOutOfRange j (zext16 (seqAt s j)) { s with freq := f }) ∨
      ∃ f, countBody s = countDone { s with freq := f } ∧
        encodeBody s = packBody (deriveBody (buildBody (countBody s))) := by
  obtain ⟨f, h | ⟨j, h₁, h₂, h₃⟩⟩ := countBody_cases s
  · refine .inr ⟨f, h, ?_⟩
    unfold encodeBody
    simp only []
    rw [if_neg]
    rw [h]
    simp
  · refine .inl ⟨f, j, h₁, h₂, ?_, h₃⟩
    unfold encodeBody
    simp only []
    rw [if_pos]
    rw [h₃]
    rfl

end Sys2Proof.Machine
end

