-- ==== Sys2Proof/Laws/Sums.lean ====
section
/-! SUPPORT. Laws/Sums.lean: sums and counts over lists of indices. -/

namespace Sys2Proof.Machine

/-- One element of a sum taken out. -/
theorem sum_map_erase (l : List Nat) (f : Nat → Nat) {x : Nat} (h : x ∈ l) :
    (l.map f).sum = f x + ((l.erase x).map f).sum := by
  rw [((List.perm_cons_erase h).map f).sum_eq]
  simp

/-- A member is at most the sum. -/
theorem le_sum_map (l : List Nat) (f : Nat → Nat) {x : Nat} (h : x ∈ l) : f x ≤ (l.map f).sum := by
  have := sum_map_erase l f h
  omega

/-- Two different members that meet `p` are two members that meet `p`. -/
theorem countP_two {α : Type} (p : α → Bool) {l : List α} (hn : l.Nodup) {a b : α} (ha : a ∈ l) (hb : b ∈ l)
    (hab : a ≠ b) (pa : p a = true) (pb : p b = true) : 2 ≤ l.countP p := by
  have h : ∀ l : List α, l.Nodup → a ∈ l → 1 ≤ l.countP p := fun l _ ha => List.countP_pos_iff.2 ⟨a, ha, pa⟩
  induction l with
  | nil => cases ha
  | cons c l ih =>
    have hn' := List.nodup_cons.1 hn
    rw [List.countP_cons]
    rcases List.mem_cons.1 ha with rfl | ha'
    · rcases List.mem_cons.1 hb with rfl | hb'
      · exact absurd rfl hab
      · have : 0 < l.countP p := List.countP_pos_iff.2 ⟨b, hb', pb⟩
        rw [if_pos pa]; omega
    · rcases List.mem_cons.1 hb with rfl | hb'
      · have := h l hn'.2 ha'
        rw [if_pos pb]; omega
      · have := ih hn'.2 ha' hb'
        omega

/-- A sum with one term that is not 0. -/
theorem sum_range_ite (n j : Nat) (w : Nat → Nat) (hj : j < n) :
    ((List.range n).map fun i => if i = j then w i else 0).sum = w j := by
  induction n with
  | zero => omega
  | succ n ih =>
    rw [List.range_succ, List.map_append, List.sum_append]
    by_cases hn : j = n
    · subst hn
      have : ((List.range j).map fun i => if i = j then w i else 0).sum = 0 := by
        apply List.sum_eq_zero
        intro x hx
        obtain ⟨v, hv, rfl⟩ := List.mem_map.1 hx
        have := List.mem_range.1 hv
        rw [if_neg]; omega
      rw [this]; simp
    · rw [ih (by omega)]; simp [Ne.symm hn]

/-- Summing over the children of the members of `ks` is summing over all indices, each as often as it is a child. -/
theorem double_count (n : Nat) (ks : List Nat) (l r w : Nat → Nat) (hk : ∀ k ∈ ks, l k < n ∧ r k < n ∧ l k ≠ r k) :
   (ks.map fun k => w (l k) + w (r k)).sum = ((List.range n).map fun j =>
       (ks.countP fun k => l k == j || r k == j) * w j).sum := by
  induction ks with
  | nil => simp
  | cons k ks ih =>
    rw [List.map_cons, List.sum_cons, ih (fun k' h => hk k' (List.mem_cons_of_mem _ h))]
    obtain ⟨h1, h2, h3⟩ := hk k List.mem_cons_self
    have : w (l k) + w (r k) = ((List.range n).map fun j => (if
        (l k == j || r k == j) = true then 1 else 0) * w j).sum := by
      rw [← sum_range_ite n (l k) w h1, ← sum_range_ite n (r k) w h2, ← List.sum_map_add]
      congr 1
      apply List.map_congr_left
      intro j _
      by_cases e1 : j = l k
      · subst e1; simp [h3]
      · by_cases e2 : j = r k
        · subst e2; simp [e1]
        · simp [e1, e2, Ne.symm e1, Ne.symm e2]
    rw [this, ← List.sum_map_add]
    congr 1
    apply List.map_congr_left
    intro j _
    simp only [List.countP_cons, Nat.add_mul]
    omega

/-- The first `m` indices are the first `n` and the `m - n` from `n` on. -/
theorem range_split {n m : Nat} (h : n ≤ m) : List.range m = List.range n ++ List.range' n (m - n) := by
  have := List.range'_append (s := 0) (m := n) (n := m - n) (step := 1)
  rw [Nat.zero_add, Nat.one_mul, show n + (m - n) = m by omega] at this
  rw [List.range_eq_range', List.range_eq_range', this]

/-- Every member of `l` is counted once, under its own value. -/
theorem sum_countP_values (A : Nat) : ∀ l : List Nat, (∀ b ∈ l, b < A) →
    ((List.range A).map fun v => l.countP fun b => b == v).sum = l.length := by
    intro l
    induction l with
    | nil => intro _; simp
    | cons b l ih =>
      intro hb
      have := ih (fun c hc => hb c (List.mem_cons_of_mem _ hc))
      have hb := hb b List.mem_cons_self
      rw [List.length_cons, ← this]
      simp only [List.countP_cons]
      rw [List.sum_map_add]
      congr 1
      have := sum_range_ite A b (fun _ => 1) hb
      refine Eq.trans ?_ this
      congr 1
      apply List.map_congr_left
      intro v _
      by_cases h : v = b
      · simp [h]
      · simp [h, Ne.symm h]

/-- The same for a function on the first `n` indices. -/
theorem sum_countP_range (A n : Nat) (f : Nat → Nat) (hf : ∀ j < n, f j < A) : ((List.range A).map fun v =>
    (List.range n).countP fun j => f j == v).sum = n := by
  have := sum_countP_values A ((List.range n).map f) (by
    intro b hb
    obtain ⟨j, hj, rfl⟩ := List.mem_map.1 hb
    exact hf j (List.mem_range.1 hj))
  simp only [List.countP_map, List.length_map, List.length_range] at this
  exact this

end Sys2Proof.Machine
end

