-- ==== Sys2Proof/Laws/Merge.lean ====
section
/-! SUPPORT. Laws/Merge.lean: what seeding leaves, what one merge does, and what holds between two merges of BUILD
(42_build.md R112 to R120). -/

namespace Sys2Proof.Machine

/-- What holds between two merges, for `L` leaves and a total weight of `tot`. -/
structure MergeInv (L tot : Nat) (s : State) : Prop where
  sorted : s.pq.Pairwise (· < ·)
  lt : ∀ k ∈ s.pq, k < s.nnode
  cnt : s.pqcnt = s.pq.length
  nodes : s.nnode + s.pqcnt = 2 * L
  leaves : L ≤ s.nnode
  last : L < s.nnode → s.nnode - 1 ∈ s.pq
  first : L = s.nnode → s.pq = List.range' 0 L
  internal : ∀ k < s.nnode, L ≤ k → internalOk s k ∧ (nodeAt s k).pvalid = false ∧ (nodeAt s k).plen = 0 ∧
      (nodeAt s k).pbits = 0
  parent : ∀ j < s.nnode, parentCount s j = if j ∈ s.pq then 0 else 1
  total : (s.pq.map fun k => (nodeAt s k).freq).sum = tot
  leafkind : ∀ k < L, (nodeAt s k).kind = .leaf
  pos : ∀ k < s.nnode, 1 ≤ (nodeAt s k).freq

/-- What one merge makes of `s`, having removed `x` and then `y`. -/
structure MergeFacts (s t : State) (x y : Nat) : Prop where
  hx : x ∈ s.pq
  hy : y ∈ s.pq
  hyx : y ≠ x
  xmin : ∀ k ∈ s.pq, k ≠ x → before s x k = true
  ymin : ∀ k ∈ s.pq, k ≠ x → k ≠ y → before s y k = true
  node : ∀ k, nodeAt t k = if k = s.nnode then internalRec ((nodeAt s x).freq + (nodeAt s y).freq) y x else nodeAt s k
  pq : t.pq = (s.pq.erase x).erase y ++ [s.nnode]
  nnode : t.nnode = s.nnode + 1
  pqcnt : t.pqcnt = s.pqcnt - 1 - 1 + 1

/-- A merge does what `MergeFacts` says, when no sum of two weights wraps. -/
theorem merge_facts (s : State) (hs : s.pq.Pairwise (· < ·)) (hl : 1 < s.pq.length) (hlt : ∀ k ∈ s.pq, k < s.nnode)
   (hn : ∀ x ∈ s.pq, ∀ y ∈ s.pq, x ≠ y → (nodeAt s x).freq + (nodeAt s y).freq < 2 ^ s.cfg.wFreq) : ∃ x y,
       MergeFacts s (mergeOnce s) x y := by
  obtain ⟨hx, hxm⟩ := pqMin_spec s (by intro h; simp [h] at hl)
  have hl1 : (pqRemove (pqMin s) s).pq.length = s.pq.length - 1 := by simp [List.length_erase_of_mem hx]
  obtain ⟨hy, hym⟩ := pqMin_spec (pqRemove (pqMin s) s) (by intro h; rw [h] at hl1; simp at hl1; omega)
  have hnd : s.pq.Nodup := hs.imp (fun h => Nat.ne_of_lt h)
  have hy' : pqMin (pqRemove (pqMin s) s) ∈ s.pq.erase (pqMin s) := hy
  have hyp := List.mem_of_mem_erase hy'
  have hyx := (hnd.mem_erase_iff.1 hy').1
  refine ⟨pqMin s, pqMin (pqRemove (pqMin s) s), hx, hyp, hyx, hxm, ?_, ?_, ?_, rfl, rfl⟩
  · intro k hk h1 h2
    exact hym k ((hnd.mem_erase_iff).2 ⟨h1, hk⟩) h2
  · intro k
    have hadd : addW s.cfg.wFreq (nodeAt s (pqMin s)).freq (nodeAt s (pqMin (pqRemove (pqMin s) s))).freq =
        (nodeAt s (pqMin s)).freq + (nodeAt s (pqMin (pqRemove (pqMin s) s))).freq := Nat.mod_eq_of_lt
        (hn _ hx _ hyp hyx.symm)
    rw [← hadd]
    exact nodeAt_newNode _ _ _
  · refine insertIndex_of_above _ _ ?_
    intro j hj
    exact hlt j (List.mem_of_mem_erase (List.mem_of_mem_erase hj))

/-- The members after a merge. -/
theorem MergeFacts.mem {s t x y} (h : MergeFacts s t x y) (hs : s.pq.Pairwise (· < ·)) (j : Nat) : j ∈ t.pq ↔
    (j ∈ s.pq ∧ j ≠ x ∧ j ≠ y) ∨ j = s.nnode := by
  have hnd : s.pq.Nodup := hs.imp (fun h => Nat.ne_of_lt h)
  rw [h.pq, List.mem_append, List.mem_singleton, (hnd.erase x).mem_erase_iff, hnd.mem_erase_iff]
  tauto

/-- Old nodes are unchanged. -/
theorem MergeFacts.old {s t x y} (h : MergeFacts s t x y) {k : Nat} (hk : k < s.nnode) : nodeAt t k = nodeAt s k := by
  rw [h.node, if_neg (by omega)]

/-- A merge gives its two members a parent. -/
theorem merge_parent {s t x y} (h : MergeFacts s t x y) (j : Nat) :
    parentCount t j = parentCount s j + if (j = x ∨ j = y) then 1 else 0 := by
  unfold parentCount
  rw [h.nnode, List.range_succ, List.countP_append]
  congr 1
  · apply List.countP_congr
    intro k hk
    rw [h.old (List.mem_range.1 hk)]
  · rw [List.countP_cons, List.countP_nil, h.node s.nnode, if_pos rfl]
    simp only [internalRec, decide_true, Bool.true_and, Bool.or_eq_true, beq_iff_eq, Nat.zero_add]
    by_cases h1 : j = x
    · rw [if_pos (.inr h1.symm), if_pos (.inl h1)]
    · by_cases h2 : j = y
      · rw [if_pos (.inl h2.symm), if_pos (.inr h2)]
      · rw [if_neg (by rintro (h | h); exact h2 h.symm; exact h1 h.symm), if_neg (by tauto)]

/-- No sum of two members' weights wraps when the total does not. -/
theorem merge_pairs {L tot s} (h : MergeInv L tot s) (hn : tot < 2 ^ s.cfg.wFreq) : ∀ x ∈ s.pq, ∀ y ∈ s.pq, x ≠ y →
    (nodeAt s x).freq + (nodeAt s y).freq < 2 ^ s.cfg.wFreq := by
  intro x hx y hy hxy
  have h1 := sum_map_erase s.pq (fun k => (nodeAt s k).freq) hx
  have hnd : s.pq.Nodup := h.sorted.imp (fun h => Nat.ne_of_lt h)
  have h2 := sum_map_erase (s.pq.erase x) (fun k => (nodeAt s k).freq) (hnd.mem_erase_iff.2 ⟨hxy.symm, hy⟩)
  have := h.total
  omega

/-- A merge keeps what holds between merges. -/
theorem mergeOnce_keeps (L tot : Nat) (s : State) (h : MergeInv L tot s) (hn : tot < 2 ^ s.cfg.wFreq) (hc :
    1 < s.pqcnt) : MergeInv L tot (mergeOnce s) := by
  obtain ⟨x, y, m⟩ := merge_facts s h.sorted (h.cnt ▸ hc) h.lt (merge_pairs h hn)
  have hxl := h.lt x m.hx
  have hyl := h.lt y m.hy
  have hnd : s.pq.Nodup := h.sorted.imp (fun h => Nat.ne_of_lt h)
  have hye : y ∈ s.pq.erase x := hnd.mem_erase_iff.2 ⟨m.hyx, m.hy⟩
  have hlen : ((s.pq.erase x).erase y).length = s.pq.length - 1 - 1 := by
    rw [List.length_erase_of_mem hye, List.length_erase_of_mem m.hx]
  have hcount := h.cnt
  generalize mergeOnce s = t at *
  have hmem := m.mem h.sorted
  have hold : ∀ k < s.nnode, nodeAt t k = nodeAt s k := fun k hk => m.old hk
  have hnew : nodeAt t s.nnode = internalRec ((nodeAt s x).freq + (nodeAt s y).freq) y x := by rw [m.node, if_pos rfl]
  have hbef := m.xmin y m.hy m.hyx
  rw [before_iff] at hbef
  have hL := h.leaves
  constructor
  · rw [m.pq, List.pairwise_append]
    refine ⟨(h.sorted.sublist List.erase_sublist).sublist List.erase_sublist, List.pairwise_singleton _ _, ?_⟩
    intro a ha b hb
    rw [List.mem_singleton.1 hb]
    exact h.lt a (List.mem_of_mem_erase (List.mem_of_mem_erase ha))
  · intro k hk
    rw [m.nnode]
    rcases (hmem k).1 hk with ⟨hk, -, -⟩ | rfl
    · have := h.lt k hk; omega
    · omega
  · rw [m.pq, m.pqcnt, List.length_append, hlen, List.length_singleton]; omega
  · rw [m.nnode, m.pqcnt]; have := h.nodes; omega
  · rw [m.nnode]; omega
  · intro _; rw [m.nnode, hmem]; right; omega
  · intro hL'; rw [m.nnode] at hL'; omega
  · intro k hk hLk
    rw [m.nnode] at hk
    by_cases hkn : k = s.nnode
    · rw [hkn, internalOk, hnew]
      show (true = true ∧ NodeKind.internal = .internal ∧ (0#8 = 0#8) ∧ y < s.nnode ∧ x < s.nnode ∧ y ≠ x ∧
         (nodeAt s x).freq + (nodeAt s y).freq = (nodeAt t y).freq + (nodeAt t x).freq ∧
          (nodeAt t x).freq ≤ (nodeAt t y).freq) ∧ false = false ∧ 0 = 0 ∧ 0 = 0
      rw [hold x hxl, hold y hyl]
      exact ⟨⟨rfl, rfl, rfl, hyl, hxl, m.hyx, by omega, by omega⟩, rfl, rfl, rfl⟩
    · obtain ⟨hi, h2⟩ := h.internal k (by omega) hLk
      have h3 := hi.2.2.2.1
      have h4 := hi.2.2.2.2.1
      rw [internalOk, hold k (by omega), hold (nodeAt s k).left (by omega), hold (nodeAt s k).right (by omega)]
      exact ⟨hi, h2⟩
  · intro j hj
    rw [m.nnode] at hj
    rw [merge_parent m]
    by_cases hjn : j = s.nnode
    · rw [if_pos ((hmem _).2 (.inr hjn)), if_neg (by omega)]
      unfold parentCount
      rw [List.countP_eq_zero.2]
      intro k hk
      have hk := List.mem_range.1 hk
      by_cases hLk : L ≤ k
      · have hi := (h.internal k hk hLk).1
        have h3 := hi.2.2.2.1
        have h4 := hi.2.2.2.2.1
        simp only [Bool.and_eq_true, Bool.or_eq_true, beq_iff_eq]
        omega
      · rw [h.leafkind k (by omega)]; simp
    · rw [h.parent j (by omega)]
      by_cases h1 : j = x
      · rw [if_pos (h1 ▸ m.hx), if_pos (.inl h1), if_neg]
        rw [hmem]; omega
      · by_cases h2 : j = y
        · rw [if_pos (h2 ▸ m.hy), if_pos (.inr h2), if_neg]
          rw [hmem]; omega
        · rw [if_neg (by omega : ¬ (j = x ∨ j = y)), Nat.add_zero]
          by_cases hj : j ∈ s.pq
          · rw [if_pos hj, if_pos ((hmem j).2 (.inl ⟨hj, h1, h2⟩))]
          · rw [if_neg hj, if_neg]
            rw [hmem]; rintro (⟨h, -⟩ | h)
            · exact hj h
            · exact hjn h
  · rw [m.pq, List.map_append, List.sum_append, List.map_singleton, hnew, List.sum_singleton]
    have : ((s.pq.erase x).erase y).map (fun k => (nodeAt t k).freq) = ((s.pq.erase x).erase y).map (fun k =>
        (nodeAt s k).freq) := by
      apply List.map_congr_left
      intro k hk
      rw [hold k (h.lt k (List.mem_of_mem_erase (List.mem_of_mem_erase hk)))]
    rw [this]
    have h1 := sum_map_erase s.pq (fun k => (nodeAt s k).freq) m.hx
    have h2 := sum_map_erase (s.pq.erase x) (fun k => (nodeAt s k).freq) hye
    have := h.total
    show _ + ((nodeAt s x).freq + (nodeAt s y).freq) = _
    omega
  · intro k hk; rw [hold k (by omega)]; exact h.leafkind k hk
  · intro k hk
    rw [m.nnode] at hk
    by_cases hkn : k = s.nnode
    · rw [hkn, hnew]; have := h.pos x hxl; show 1 ≤ (nodeAt s x).freq + (nodeAt s y).freq; omega
    · rw [hold k (by omega)]; exact h.pos k (by omega)

/-- The counted symbols. -/
def syms (s : State) : List Nat := (List.range s.cfg.alphabet).filter (seeded s)

/-- The counted symbols are listed in ascending order. -/
theorem syms_sorted (s : State) : (syms s).Pairwise (· < ·) := List.pairwise_lt_range.filter _

/-- Which symbols are counted. -/
theorem mem_syms (s : State) (v : Nat) : v ∈ syms s ↔ v < s.cfg.alphabet ∧ 0 < freqAt s v := by
  simp [syms, seeded]

/-- The counts of the counted symbols are all the counts. -/
theorem freqSum_syms (s : State) : ((syms s).map (freqAt s)).sum = freqSum s := by
  unfold syms freqSum
  induction List.range s.cfg.alphabet with
  | nil => rfl
  | cons v l ih =>
    rw [List.filter_cons]
    split
    · simp [ih]
    · rename_i h
      have : freqAt s v = 0 := by simpa [seeded] using h
      simp [ih, this]

/-- What seeding makes of `s`: one leaf per counted symbol. -/
structure SeedFacts (s t : State) : Prop where
  nnode : t.nnode = (syms s).length
  pqcnt : t.pqcnt = (syms s).length
  leaf : ∀ (j v : Nat), (syms s)[j]? = some v → nodeAt t j = leafRec s.cfg v (freqAt s v)
  other : ∀ k, (syms s).length ≤ k → nodeAt t k = nodeAt s k
  pq : t.pq = List.range' 0 (syms s).length

/-- Seeding does what `SeedFacts` says. -/
theorem seed_facts (s : State) : SeedFacts s (seedLoop s) := by
  obtain ⟨h₁, h₂, h₃, h₄, h₅⟩ := foldl_seedSymbol_spec (List.range s.cfg.alphabet) (startBuild s)
  constructor
  · exact h₁.trans (Nat.zero_add _)
  · exact h₂.trans (Nat.zero_add _)
  · intro j v hj
    have := h₃ j v hj
    rwa [startBuild_nnode, Nat.zero_add] at this
  · intro k hk
    exact h₄ k (.inr (by rw [startBuild_nnode, Nat.zero_add]; exact hk))
  · exact h₅ (by intro k hk; cases hk)

/-- The leaves that seeding makes. -/
theorem seed_leaf (s : State) (k : Nat) (hk : k < (syms s).length) :
   nodeAt (seedLoop s) k = leafRec s.cfg (syms s)[k] (freqAt s (syms s)[k]) :=
  (seed_facts s).leaf k _ (List.getElem?_eq_getElem hk)

/-- What holds between merges holds after seeding. -/
theorem seed_inv (s : State) : MergeInv (syms s).length (freqSum s) (countLeaves (seedLoop s)) := by
  have f := seed_facts s
  have hleaf : ∀ k, k < (syms s).length → nodeAt (countLeaves (seedLoop s)) k = leafRec s.cfg ((syms s).getD k 0)
      (freqAt s ((syms s).getD k 0)) := by
    intro k hk
    have := seed_leaf s k hk
    rw [List.getD_eq_getElem _ _ hk]
    exact this
  have hpc : ∀ j, parentCount (countLeaves (seedLoop s)) j = 0 := by
    intro j
    unfold parentCount
    rw [List.countP_eq_zero.2]
    intro k hk
    have hk := List.mem_range.1 hk
    rw [hleaf k (by rw [← f.nnode]; exact hk)]
    simp [leafRec]
  have ct : (countLeaves (seedLoop s)).nnode = (syms s).length := f.nnode
  have cp : (countLeaves (seedLoop s)).pq = List.range' 0 (syms s).length := f.pq
  have cc : (countLeaves (seedLoop s)).pqcnt = (syms s).length := f.pqcnt
  generalize countLeaves (seedLoop s) = t at *
  constructor
  · rw [cp]; exact List.pairwise_lt_range'
  · intro k hk; rw [cp, List.mem_range'_1] at hk; omega
  · rw [cp, cc]; simp
  · omega
  · omega
  · omega
  · intro _; exact cp
  · omega
  · intro j hj
    rw [hpc, if_pos]
    rw [cp, List.mem_range'_1]; omega
  · rw [cp, ← freqSum_syms]
    congr 1
    apply List.ext_getElem
    · simp
    · intro i h1 h2
      simp at h1
      rw [List.getElem_map, List.getElem_map, List.getElem_range', hleaf _ (by simpa using h1)]
      simp only [leafRec]
      rw [show (0 + 1 * i) = i by omega, List.getD_eq_getElem _ _ h1]
  · intro k hk; rw [hleaf k hk]; rfl
  · intro k hk
    have hk' : k < (syms s).length := by omega
    rw [hleaf k hk', List.getD_eq_getElem _ _ hk']
    exact ((mem_syms s _).1 (List.getElem_mem hk')).2

/-- The merge loop keeps it. -/
theorem mergeLoop_inv (n L tot : Nat) (s : State) (h : MergeInv L tot s) (hn : tot < 2 ^ s.cfg.wFreq) :
    MergeInv L tot (mergeLoop n s) := by
  induction n generalizing s with
  | zero => exact h
  | succ n ih =>
    unfold mergeLoop
    split
    · rename_i hc
      exact ih _ (mergeOnce_keeps L tot s h hn hc) (by rw [(onlyNodes_mergeOnce s).cfg]; exact hn)
    · exact h

/-- The merge loop never empties PQ. -/
theorem mergeLoop_pos (n : Nat) (s : State) (h : 0 < s.pqcnt) : 0 < (mergeLoop n s).pqcnt := by
  induction n generalizing s with
  | zero => exact h
  | succ n ih =>
    unfold mergeLoop
    split
    · apply ih; rw [mergeOnce_pqcnt]; omega
    · exact h

/-- Without members there is nothing to merge. -/
theorem mergeLoop_zero (n : Nat) (s : State) (h : s.pqcnt = 0) : mergeLoop n s = s := by
  cases n <;> simp [mergeLoop, h]

/-- There are at most `A` counted symbols. -/
theorem syms_length_le (s : State) : (syms s).length ≤ s.cfg.alphabet := by
  exact (List.length_filter_le (seeded s) (List.range s.cfg.alphabet)).trans (by simp)

/-- The merge loop leaves unused slots alone. -/
theorem merge_other (L tot n : Nat) (s : State) (h : MergeInv L tot s) (hn : tot < 2 ^ s.cfg.wFreq) : ∀ k,
    (mergeLoop n s).nnode ≤ k → nodeAt (mergeLoop n s) k = nodeAt s k := by
  induction n generalizing s with
  | zero => intro k _; rfl
  | succ n ih =>
    unfold mergeLoop
    split
    · rename_i hc
      intro k hk
      have h2 := mergeOnce_keeps L tot s h hn hc
      have hle : ∀ n (s : State), s.nnode ≤ (mergeLoop n s).nnode := by
        intro n
        induction n with
        | zero => intro s; exact Nat.le_refl _
        | succ n ih =>
          intro s
          unfold mergeLoop
          split
          · have := ih (mergeOnce s); rw [mergeOnce_nnode] at this; omega
          · exact Nat.le_refl _
      have := hle n (mergeOnce s)
      rw [mergeOnce_nnode] at this
      rw [ih _ h2 (by rw [(onlyNodes_mergeOnce s).cfg]; exact hn) k hk, nodeAt_mergeOnce_other s (by omega)]
    · intro k _; rfl

/-- What BUILD's two loops make of `s`. -/
structure Built (s t : State) : Prop where
  inv : MergeInv (syms s).length (freqSum s) t
  one : t.pqcnt ≤ 1
  some : 0 < (syms s).length → t.pqcnt = 1
  leaf : ∀ k (h : k < (syms s).length), nodeAt t k = leafRec s.cfg (syms s)[k] (freqAt s (syms s)[k])
  other : ∀ k, t.nnode ≤ k → nodeAt t k = nodeAt s k
  nleaf : t.nleaf = (syms s).length

/-- The state after the loops of BUILD. -/
theorem built (s : State) (hn : freqSum s < 2 ^ s.cfg.wFreq) : Built s (mergeLoop s.cfg.alphabet (countLeaves
    (seedLoop s))) := by
  have f := seed_facts s
  have hc : (countLeaves (seedLoop s)).cfg = s.cfg := (onlyNodes_seedLoop s).cfg
  have hcn : (countLeaves (seedLoop s)).pqcnt = (syms s).length := f.pqcnt
  have hnn : (countLeaves (seedLoop s)).nnode = (syms s).length := f.nnode
  have hinv := mergeLoop_inv s.cfg.alphabet _ _ _ (seed_inv s) (by rw [hc]; exact hn)
  constructor
  · exact hinv
  · exact mergeLoop_pqcnt_le _ _ (hcn.trans_le ((syms_length_le s).trans (Nat.le_succ _)))
  · intro h
    have h1 := mergeLoop_pos s.cfg.alphabet (countLeaves (seedLoop s)) (by omega)
    have h2 := mergeLoop_pqcnt_le s.cfg.alphabet (countLeaves (seedLoop s))
        (hcn.trans_le ((syms_length_le s).trans (Nat.le_succ _)))
    omega
  · intro k h
    rw [nodeAt_mergeLoop_below _ _ (by rw [hnn]; exact h)]
    exact seed_leaf s k h
  · intro k hk
    rw [merge_other _ _ _ _ (seed_inv s) (by rw [hc]; exact hn) k hk]
    exact f.other k (by have := hinv.leaves; omega)
  · rw [(onlyNodes_mergeLoop _ _).nleaf]; exact f.nnode

end Sys2Proof.Machine
end

