-- ==== Sys2Proof/Laws/Optimal.lean ====
section
/-! SUPPORT. Laws/Optimal.lean: code lengths: the inequality of Kraft for words of which none is a prefix of another,
    and
the exchange step behind the optimality of the greedy merge (42_build.md R123). No rule of the machine depends on it. -/

namespace Sys2Proof.Machine

/-- Neither of the two words is a prefix of the other. -/
def Apart (p q : List Bool) : Prop := ¬ p <+: q ∧ ¬ q <+: p

/-- The tails of the words that start with `b`. -/
def tailsOf (b : Bool) (ws : List (List Bool)) : List (List Bool) :=
  ws.filterMap fun w => match w with
    | []     => none
    | c :: t => if c = b then some t else none

/-- Kraft's inequality for words of which none is a prefix of another, both sides multiplied by `2^m`. -/
theorem kraft_of_apart (m : Nat) (ws : List (List Bool)) (hp : ws.Pairwise Apart) (hm : ∀ w ∈ ws, w.length ≤ m) :
    (ws.map fun w => 2 ^ (m - w.length)).sum ≤ 2 ^ m := by
  induction m generalizing ws with
  | zero =>
    match ws with
    | []           => simp
    | [w]          => simp
    | w :: v :: ws =>
      have h := ((List.pairwise_cons.1 hp).1 v (by simp)).1
      have hw := hm w (by simp)
      rw [List.length_eq_zero_iff.1 (by omega : w.length = 0)] at h
      exact absurd List.nil_prefix h
  | succ m ih =>
    by_cases he : [] ∈ ws
    · have : ws = [[]] := by
        match ws with
        | []           => simp at he
        | [w]          => simpa using he
        | w :: v :: ws =>
          exfalso
          rcases List.mem_cons.1 he with rfl | he
          · exact ((List.pairwise_cons.1 hp).1 v (by simp)).1 List.nil_prefix
          · exact ((List.pairwise_cons.1 hp).1 [] he).2 List.nil_prefix
      simp [this]
    · have hpart : ∀ b, (tailsOf b ws).Pairwise Apart ∧ ∀ w ∈ tailsOf b ws, w.length ≤ m := by
        intro b
        constructor
        · rw [tailsOf, List.pairwise_filterMap]
          refine hp.imp ?_
          intro p q hpq t ht t' ht'
          match p, q with
          | [], _            => simp at ht
          | _ :: _, []       => simp at ht'
          | c :: p, d :: q =>
            simp only [Option.ite_none_right_eq_some, Option.some.injEq] at ht ht'
            obtain ⟨rfl, rfl⟩ := ht
            obtain ⟨rfl, rfl⟩ := ht'
            simpa [Apart, List.cons_prefix_cons] using hpq
        · intro w hw
          obtain ⟨v, hv, hvw⟩ := List.mem_filterMap.1 hw
          match v with
          | []     => simp at hvw
          | c :: v =>
            simp only [Option.ite_none_right_eq_some, Option.some.injEq] at hvw
            have := hm _ hv
            rw [List.length_cons, hvw.2] at this
            omega
      have hsum : ∀ ws : List (List Bool), [] ∉ ws → (ws.map fun w => 2 ^ (m + 1 - w.length)).sum =
          ((tailsOf false ws).map fun w => 2 ^ (m - w.length)).sum +
            ((tailsOf true ws).map fun w => 2 ^ (m - w.length)).sum := by
        intro ws
        induction ws with
        | nil => simp [tailsOf]
        | cons w ws ihw =>
          intro h
          have hw := ihw fun h' => h (List.mem_cons_of_mem _ h')
          match w with
          | []         => simp at h
          | false :: w =>
            simp only [tailsOf] at hw ⊢
            simp [hw, Nat.add_assoc]
          | true :: w  =>
            simp only [tailsOf] at hw ⊢
            simp [hw, Nat.add_left_comm]
      rw [hsum ws he, Nat.pow_succ]
      have h₀ := ih _ (hpart false).1 (hpart false).2
      have h₁ := ih _ (hpart true).1 (hpart true).2
      omega

/-- The lengths `f` meet Kraft's inequality on `l`, multiplied by `2^m`. -/
def Kraft (m : Nat) (l : List Nat) (f : Nat → Nat) : Prop :=
  (∀ i ∈ l, f i ≤ m) ∧ (l.map fun i => 2 ^ (m - f i)).sum ≤ 2 ^ m

/-- The weighted length. -/
def cost (l : List Nat) (w f : Nat → Nat) : Nat := (l.map fun i => w i * f i).sum

/-- Exchanging two lengths so that the lighter of the two members gets the longer one costs nothing. -/
theorem kraft_swap {m : Nat} {l : List Nat} (hn : l.Nodup) {w f : Nat → Nat} {x p : Nat} (hx : x ∈ l) (hp : p ∈ l)
    (hw : w x ≤ w p) (hf : f x ≤ f p) (hk : Kraft m l f) :
    let g := fun i => if i = x then f p else if i = p then f x else f i
    Kraft m l g ∧ cost l w g ≤ cost l w f := by
  intro g
  by_cases hxp : x = p
  · have : g = f := by
      funext i
      simp only [g, ← hxp]
      split
      · rename_i h; rw [h]
      · rfl
    rw [this]
    exact ⟨hk, Nat.le_refl _⟩
  · have hpe : p ∈ l.erase x := hn.mem_erase_iff.2 ⟨Ne.symm hxp, hp⟩
    have hgx : g x = f p := by simp [g]
    have hgp : g p = f x := by simp [g, Ne.symm hxp]
    have hrest : ∀ i ∈ (l.erase x).erase p, g i = f i := by
      intro i hi
      obtain ⟨h₁, h₂⟩ := (hn.erase x).mem_erase_iff.1 hi
      have h₃ := (hn.mem_erase_iff.1 h₂).1
      simp [g, h₁, h₃]
    have hsum : ∀ F : Nat → Nat → Nat, (((l.erase x).erase p).map fun i => F i (g i)).sum =
        (((l.erase x).erase p).map fun i => F i (f i)).sum := by
      intro F
      congr 1
      exact List.map_congr_left fun i hi => by rw [hrest i hi]
    refine ⟨⟨?_, ?_⟩, ?_⟩
    · intro i hi
      simp only [g]
      split
      · exact hk.1 p hp
      · split
        · exact hk.1 x hx
        · exact hk.1 i hi
    · have h₁ := hk.2
      rw [sum_map_erase l _ hx, sum_map_erase _ _ hpe] at h₁ ⊢
      rw [hsum fun _ a => 2 ^ (m - a), hgx, hgp]
      omega
    · unfold cost
      rw [sum_map_erase l (fun i => w i * g i) hx, sum_map_erase _ (fun i => w i * g i) hpe,
        sum_map_erase l (fun i => w i * f i) hx, sum_map_erase _ (fun i => w i * f i) hpe, hsum fun i a => w i * a,
            hgx, hgp]
      obtain ⟨a, ha⟩ := Nat.exists_eq_add_of_le hw
      obtain ⟨b, hb⟩ := Nat.exists_eq_add_of_le hf
      rw [ha, hb]
      have : w x * (f x + b) + (w x + a) * f x + a * b = w x * f x + (w x + a) * (f x + b) := by ring
      omega

/-- A longest member. -/
theorem exists_longest (f : Nat → Nat) {l : List Nat} {x : Nat} (hx : x ∈ l) : ∃ p ∈ l, ∀ i ∈ l, f i ≤ f p := by
  induction l generalizing x with
  | nil => cases hx
  | cons a l ih =>
    cases l with
    | nil => exact ⟨a, by simp, by simp⟩
    | cons b l =>
      obtain ⟨p, hp, hmax⟩ := ih (x := b) (by simp)
      by_cases h : f p ≤ f a
      · refine ⟨a, by simp, fun i hi => ?_⟩
        rcases List.mem_cons.1 hi with rfl | hi
        · exact Nat.le_refl _
        · exact (hmax i hi).trans h
      · refine ⟨p, List.mem_cons_of_mem _ hp, fun i hi => ?_⟩
        rcases List.mem_cons.1 hi with rfl | hi
        · omega
        · exact hmax i hi

/-- The heart of the optimality of the greedy merge (R123): for the two lightest members, any lengths can be replaced by
lengths of the merged set whose cost is less by at least the weight of the merged member. -/
theorem kraft_merge {m : Nat} {l : List Nat} (hn : l.Nodup) {w f : Nat → Nat} {x y : Nat} (hx : x ∈ l) (hy : y ∈ l)
    (hyx : y ≠ x) (hxm : ∀ k ∈ l, w x ≤ w k) (hym : ∀ k ∈ l, k ≠ x → w y ≤ w k) (hk : Kraft m l f) :
    ∃ g d, (∀ i ∈ (l.erase x).erase y, g i ≤ m) ∧ d ≤ m ∧
      (((l.erase x).erase y).map fun i => 2 ^ (m - g i)).sum + 2 ^ (m - d) ≤ 2 ^ m ∧
      cost ((l.erase x).erase y) w g + (w x + w y) * d + (w x + w y) ≤ cost l w f := by
  obtain ⟨p, hp, hpmax⟩ := exists_longest f hx
  obtain ⟨hk₁, hc₁⟩ := kraft_swap hn hx hp (hxm p hp) (hpmax x hx) hk
  generalize hg : (fun i => if i = x then f p else if i = p then f x else f i) = g₁ at hk₁ hc₁
  have hlong₁ : ∀ i ∈ l, g₁ i ≤ g₁ x := by
    intro i hi
    have h := hpmax i hi
    have h' := hpmax x hx
    rw [← hg]
    simp only [if_true]
    split
    · exact Nat.le_refl _
    · split <;> assumption
  have hye : y ∈ l.erase x := hn.mem_erase_iff.2 ⟨hyx, hy⟩
  obtain ⟨q, hq, hqmax⟩ := exists_longest g₁ hye
  obtain ⟨hqx, hql⟩ := hn.mem_erase_iff.1 hq
  obtain ⟨hk₂, hc₂⟩ := kraft_swap hn hy hql (hym q hql hqx) (hqmax y hye) hk₁
  generalize hg₂ : (fun i => if i = y then g₁ q else if i = q then g₁ y else g₁ i) = g at hk₂ hc₂
  have hgx : g x = g₁ x := by rw [← hg₂]; simp [Ne.symm hyx, Ne.symm hqx]
  have hgy : g y = g₁ q := by rw [← hg₂]; simp
  have hgr : ∀ i ∈ l.erase x, g i ≤ g y := by
    intro i hi
    have h := hqmax i hi
    have h' := hqmax y hye
    rw [hgy, ← hg₂]
    simp only
    split
    · exact Nat.le_refl _
    · split <;> assumption
  have hxy : g y ≤ g x := by rw [hgx, hgy]; exact hlong₁ q hql
  obtain ⟨hb, hs⟩ := hk₂
  have hym' := hb y hy
  rw [sum_map_erase l _ hx, sum_map_erase _ _ hye] at hs
  have hcost : cost l w g = w x * g x + (w y * g y + cost ((l.erase x).erase y) w g) := by
    unfold cost
    rw [sum_map_erase l _ hx, sum_map_erase _ _ hye]
  have hdvd : 2 ^ (m - g y) ∣ (((l.erase x).erase y).map fun i => 2 ^ (m - g i)).sum := by
    apply List.dvd_sum
    intro a ha
    obtain ⟨i, hi, rfl⟩ := List.mem_map.1 ha
    have := hgr i (List.mem_of_mem_erase hi)
    exact Nat.pow_dvd_pow 2 (by omega)
  obtain ⟨a, ha⟩ := hdvd
  have hpow : 2 ^ m = 2 ^ (m - g y) * 2 ^ (g y) := by rw [← Nat.pow_add]; congr 1; omega
  have hxpos : 0 < 2 ^ (m - g x) := Nat.two_pow_pos _
  rw [ha] at hs
  generalize hD : 2 ^ (m - g y) = D at *
  have hDpos : 0 < D := by rw [← hD]; exact Nat.two_pow_pos _
  have hlt : a + 1 < 2 ^ (g y) := by
    have : D * (a + 1) < D * 2 ^ (g y) := by rw [← hpow, Nat.mul_add]; omega
    exact Nat.lt_of_mul_lt_mul_left this
  have hgy1 : 1 ≤ g y := by
    rcases Nat.eq_zero_or_pos (g y) with h | h
    · rw [h] at hlt; simp at hlt
    · exact h
  refine ⟨g, g y - 1, fun i hi => hb i (List.mem_of_mem_erase (List.mem_of_mem_erase hi)), by omega, ?_, ?_⟩
  · have : 2 ^ (m - (g y - 1)) = D * 2 := by
      rw [← hD, ← Nat.pow_succ]; congr 1; omega
    rw [this, ha, ← Nat.mul_add, hpow]
    exact Nat.mul_le_mul_left _ hlt
  · have h₁ : w x * g y ≤ w x * g x := Nat.mul_le_mul_left _ hxy
    have h₂ : (w x + w y) * (g y - 1) + (w x + w y) = w x * g y + w y * g y := by
      rw [← Nat.mul_succ, Nat.succ_eq_add_one, Nat.sub_add_cancel hgy1, Nat.add_mul]
    omega

end Sys2Proof.Machine
end

