-- ==== Sys2Proof/Laws/PerInstr.lean ====
section
/-! SUPPORT. Laws/PerInstr.lean: the lemma families "for every command". -/

namespace Sys2Proof.Laws

open Sys2Proof.Machine

/-- A command's word has `rsv` = 0, selects the command's own row of R73, decodes to the command, and is legal: NOP and
CLEAR are executed in every phase, every other command is ignored in FAULT (R71, R73, R75, R78). -/
def EncodeFields.Statement (i : Instr) : Prop :=
  i.wf = true ∧ rsvField (encode i) = 0#4 ∧ opField (encode i) = opcode i ∧ immField (encode i) = immOf i ∧
    (opcodeRow i).selects (encode i) = true ∧ decodeWord (encode i) = some i ∧
    ((i = .nop ∨ i = .clear) ∧ (∀ ph, legality i ph = .ok) ∨ i ≠ .nop ∧ i ≠ .clear ∧ legality i .fault = .ign)

theorem EncodeFields.nop : EncodeFields.Statement .nop := by
  refine ⟨rfl, rfl, rfl, rfl, rfl, rfl, .inl ⟨by simp, fun ph => ?_⟩⟩
  cases ph <;> rfl

theorem EncodeFields.clear : EncodeFields.Statement .clear := by
  refine ⟨rfl, rfl, rfl, rfl, rfl, rfl, .inl ⟨by simp, fun ph => ?_⟩⟩
  cases ph <;> rfl

theorem EncodeFields.lds (imm : Byte) : EncodeFields.Statement (.lds imm) := by
  refine ⟨?_, ?_, ?_, ?_, ?_, ?_, .inr ⟨by simp, by simp, rfl⟩⟩ <;> revert imm <;> decide

theorem EncodeFields.seqclr : EncodeFields.Statement .seqclr := by
  exact ⟨rfl, rfl, rfl, rfl, rfl, rfl, .inr ⟨by simp, by simp, rfl⟩⟩

theorem EncodeFields.count : EncodeFields.Statement .count := by
  exact ⟨rfl, rfl, rfl, rfl, rfl, rfl, .inr ⟨by simp, by simp, rfl⟩⟩

theorem EncodeFields.build : EncodeFields.Statement .build := by
  exact ⟨rfl, rfl, rfl, rfl, rfl, rfl, .inr ⟨by simp, by simp, rfl⟩⟩

theorem EncodeFields.derive : EncodeFields.Statement .derive := by
  exact ⟨rfl, rfl, rfl, rfl, rfl, rfl, .inr ⟨by simp, by simp, rfl⟩⟩

theorem EncodeFields.pack : EncodeFields.Statement .pack := by
  exact ⟨rfl, rfl, rfl, rfl, rfl, rfl, .inr ⟨by simp, by simp, rfl⟩⟩

theorem EncodeFields.encode : EncodeFields.Statement .encode := by
  exact ⟨rfl, rfl, rfl, rfl, rfl, rfl, .inr ⟨by simp, by simp, rfl⟩⟩

end Sys2Proof.Laws
end

