-- ==== Sys2Proof/Laws/Tree.lean ====
section
/-! SUPPORT. Laws/Tree.lean: what `treeOk` and `pathsOk` say of the nodes: one parent each, subtrees, sums over a tree,
and the path of every node. -/

namespace Sys2Proof.Machine

/-- Node `j` is a child of the internal node `k` in use. -/
def IsChild (s : State) (k j : Nat) : Prop :=
  k < s.nnode ∧ (nodeAt s k).kind = .internal ∧ ((nodeAt s k).left = j ∨ (nodeAt s k).right = j)

/-- Node `j` is in the subtree of node `k`. -/
inductive Below (s : State) (k : Nat) : Nat → Prop where
  | self : Below s k k
  | child {i j : Nat} : Below s k i → IsChild s i j → Below s k j

/-- Subtrees nest. -/
theorem Below.trans {s : State} {a b c : Nat} (h : Below s a b) (h' : Below s b c) : Below s a c := by
  induction h' with
  | self => exact h
  | child _ hc ih => exact ih.child hc

/-- The two children of an internal node. -/
theorem isChild_of_internal {s : State} {k : Nat} (hk : k < s.nnode) (hi : (nodeAt s k).kind = .internal) :
    IsChild s k (nodeAt s k).left ∧ IsChild s k (nodeAt s k).right := ⟨⟨hk, hi, .inl rfl⟩, ⟨hk, hi, .inr rfl⟩⟩

section
variable {s : State} (h : treeOk s)
include h

/-- The first NLEAF slots are leaves. -/
theorem tree_kind_leaf {k : Nat} (hk : k < s.nleaf) : (nodeAt s k).kind = .leaf := (h.2.2.2.1 k hk).2.1

/-- The slots from NLEAF on are internal nodes. -/
theorem tree_kind_internal {k : Nat} (hk : k < s.nnode) (hl : s.nleaf ≤ k) : (nodeAt s k).kind = .internal :=
  (h.2.2.2.2.2.2.1 k hk hl).2.1

/-- There are at least as many nodes as leaves. -/
theorem tree_nleaf_le : s.nleaf ≤ s.nnode := by have := h.1; omega

/-- Only slots from NLEAF on have children. -/
theorem isChild_iff {k j : Nat} : IsChild s k j ↔
    (k < s.nnode ∧ s.nleaf ≤ k) ∧ ((nodeAt s k).left = j ∨ (nodeAt s k).right = j) := by
  constructor
  · rintro ⟨h1, h2, h3⟩
    refine ⟨⟨h1, ?_⟩, h3⟩
    by_contra hl
    rw [tree_kind_leaf h (by omega)] at h2
    cases h2
  · rintro ⟨⟨h1, h2⟩, h3⟩
    exact ⟨h1, tree_kind_internal h h1 h2, h3⟩

/-- A child is made before its parent. -/
theorem child_lt {k j : Nat} (hc : IsChild s k j) : j < k := by
  obtain ⟨⟨h1, h2⟩, h3⟩ := (isChild_iff h).1 hc
  have := h.2.2.2.2.2.2.1 k h1 h2
  have h4 := this.2.2.2.1
  have h5 := this.2.2.2.2.1
  omega

/-- A node of a subtree is made no later than its top. -/
theorem below_le {k j : Nat} (hb : Below s k j) : j ≤ k := by
  induction hb with
  | self => exact Nat.le_refl _
  | child _ hc ih => have := child_lt h hc; omega

omit h in
/-- `parentCount` counts parents. -/
theorem parentCount_pos_iff {j : Nat} : 0 < parentCount s j ↔ ∃ k, IsChild s k j := by
  unfold parentCount
  rw [List.countP_pos_iff]
  simp only [List.mem_range, Bool.and_eq_true, decide_eq_true_eq, Bool.or_eq_true, beq_iff_eq, IsChild]

/-- A node has one parent. -/
theorem parent_unique {k k' j : Nat} (hc : IsChild s k j) (hc' : IsChild s k' j) : k = k' := by
  by_contra hne
  have hj : j < s.nnode := by have := child_lt h hc; have := hc.1; omega
  have h1 := h.2.2.2.2.2.2.2 j hj
  have h2 : 2 ≤ parentCount s j := by
    unfold parentCount
    refine countP_two _ List.nodup_range (List.mem_range.2 hc.1) (List.mem_range.2 hc'.1) hne ?_ ?_
    · simpa using hc.2
    · simpa using hc'.2
  split at h1 <;> omega

/-- The root has no parent. -/
theorem root_no_parent {k : Nat} (hc : IsChild s k s.root) : False := by
  have hr : s.root < s.nnode := by have := child_lt h hc; have := hc.1; omega
  have h1 := h.2.2.2.2.2.2.2 s.root hr
  rw [if_pos rfl] at h1
  have := parentCount_pos_iff.2 ⟨k, hc⟩
  omega

/-- Every other node has one. -/
theorem parent_exists {j : Nat} (hj : j < s.nnode) (hr : j ≠ s.root) : ∃ k, IsChild s k j := by
  have h1 := h.2.2.2.2.2.2.2 j hj
  rw [if_neg hr] at h1
  exact parentCount_pos_iff.1 (by omega)

/-- The root is a node in use when there is a leaf. -/
theorem root_lt (hl : 0 < s.nleaf) : s.root < s.nnode := by
  rw [h.2.1, if_neg (by omega)]; have := h.1; omega

/-- The root is the last node. -/
theorem le_root {j : Nat} (hj : j < s.nnode) : j ≤ s.root := by
  rw [h.2.1, if_neg]
  · omega
  · have := h.1; omega

/-- Every node in use is in the tree of the root. -/
theorem below_root {j : Nat} (hj : j < s.nnode) : Below s s.root j := by
  have : ∀ n j, s.root - j = n → j < s.nnode → Below s s.root j := by
    intro n
    induction n using Nat.strong_induction_on with
    | _ n ih =>
      intro j hn hj
      by_cases hr : j = s.root
      · rw [hr]; exact .self
      · obtain ⟨k, hk⟩ := parent_exists h hj hr
        have h1 := child_lt h hk
        have h2 := le_root h hk.1
        exact (ih (s.root - k) (by omega) k rfl hk.1).child hk
  exact this _ j rfl hj

/-- Of two nodes above a third one, one is above the other. -/
theorem below_chain {a b j : Nat} (ha : Below s a j) (hb : Below s b j) : Below s a b ∨ Below s b a := by
  induction ha with
  | self => exact .inr hb
  | child hai hc ih =>
    cases hb with
    | self => exact .inl (hai.child hc)
    | child hbi hc' =>
      rw [parent_unique h hc' hc] at hbi
      exact ih hbi

/-- Two different children of one node have nothing in common. -/
theorem below_disjoint {k a b j : Nat} (ha : IsChild s k a) (hb : IsChild s k b) (hab : a ≠ b) (hja : Below s a j)
    (hjb : Below s b j) : False := by
  have key : ∀ {a b}, IsChild s k a → IsChild s k b → a ≠ b → Below s a b → False := by
    intro a b ha hb hab hbel
    cases hbel with
    | self => exact hab rfl
    | child hi hc =>
      rw [parent_unique h hc hb] at hi
      have := below_le h hi
      have := child_lt h ha
      omega
  rcases below_chain h hja hjb with hx | hx
  · exact key ha hb hab hx
  · exact key hb ha hab.symm hx

omit h in
/-- The subtree of an internal node is the node and the subtrees of its children. -/
theorem below_iff {k j : Nat} (hk : k < s.nnode) (hi : (nodeAt s k).kind = .internal) :
    Below s k j ↔ j = k ∨ Below s (nodeAt s k).left j ∨ Below s (nodeAt s k).right j := by
  constructor
  · intro hb
    induction hb with
    | self => exact .inl rfl
    | child _ hc ih =>
      rename_i i j _
      rcases ih with rfl | hb | hb
      · rcases hc.2.2 with rfl | rfl
        · exact .inr (.inl .self)
        · exact .inr (.inr .self)
      · exact .inr (.inl (hb.child hc))
      · exact .inr (.inr (hb.child hc))
  · rintro (rfl | hb | hb)
    · exact .self
    · exact (Below.self.child (isChild_of_internal hk hi).1).trans hb
    · exact (Below.self.child (isChild_of_internal hk hi).2).trans hb

omit h in
/-- A leaf has nothing below it. -/
theorem below_leaf {k j : Nat} (hi : (nodeAt s k).kind = .leaf) (hb : Below s k j) : j = k := by
  induction hb with
  | self => rfl
  | child _ hc ih => subst ih; rw [hc.2.1] at hi; cases hi

/-- The two children differ. -/
theorem children_ne {k : Nat} (hk : k < s.nnode) (hi : (nodeAt s k).kind = .internal) :
    (nodeAt s k).left ≠ (nodeAt s k).right := by
  by_cases hl : s.nleaf ≤ k
  · exact (h.2.2.2.2.2.2.1 k hk hl).2.2.2.2.2.1
  · rw [tree_kind_leaf h (by omega)] at hi; cases hi

/-- Different leaves stand for different symbols. -/
theorem leaf_sym_inj {j k : Nat} (hj : j < s.nleaf) (hk : k < s.nleaf) (he : (nodeAt s j).sym.toNat =
    (nodeAt s k).sym.toNat) :
    j = k := by
  rcases Nat.lt_trichotomy j k with hlt | he | hlt
  · have := h.2.2.2.2.1 k hk j hlt; omega
  · exact he
  · have := h.2.2.2.2.1 j hj k hlt; omega

/-- The leaves are the first NLEAF slots. -/
theorem kind_leaf_iff {k : Nat} (hk : k < s.nnode) : (nodeAt s k).kind = .leaf ↔ k < s.nleaf := by
  constructor
  · intro hi
    by_contra hl
    rw [tree_kind_internal h hk (by omega)] at hi; cases hi
  · exact tree_kind_leaf h

end

/-- The internal nodes of a tree, in order of creation. -/
def internals (s : State) : List Nat := List.range' s.nleaf (s.nnode - s.nleaf)

/-- Which slots `internals` lists. -/
theorem mem_internals {s : State} (h : treeOk s) {k : Nat} : k ∈ internals s ↔ s.nleaf ≤ k ∧ k < s.nnode := by
  have := tree_nleaf_le h
  rw [internals, List.mem_range'_1]; omega

/-- Every node but the root is a child once. -/
theorem tree_children_sum {s : State} (h : treeOk s) (hl : 0 < s.nleaf) (w : Nat → Nat) :
    ((internals s).map fun k => w (nodeAt s k).left + w (nodeAt s k).right).sum + w s.root =
      ((List.range s.nleaf).map w).sum + ((internals s).map w).sum := by
  have hle := tree_nleaf_le h
  have hn := h.1
  have hr := root_lt h hl
  have hsplit : List.range s.nnode = List.range s.nleaf ++ internals s := range_split hle
  rw [double_count s.nnode _ (fun k => (nodeAt s k).left) (fun k => (nodeAt s k).right)]
  · rw [← List.sum_append, ← List.map_append, ← hsplit, ← sum_range_ite s.nnode s.root w hr, ← List.sum_map_add]
    congr 1
    apply List.map_congr_left
    intro j hj
    have hp := h.2.2.2.2.2.2.2 j (List.mem_range.1 hj)
    have : parentCount s j = (internals s).countP fun k => (nodeAt s k).left == j || (nodeAt s k).right == j := by
      unfold parentCount
      rw [hsplit, List.countP_append]
      have e1 : ((List.range s.nleaf).countP fun k => decide ((nodeAt s k).kind = .internal) &&
          ((nodeAt s k).left == j || (nodeAt s k).right == j)) = 0 := by
        rw [List.countP_eq_zero]
        intro k hk
        rw [tree_kind_leaf h (List.mem_range.1 hk)]; simp
      rw [e1, Nat.zero_add]
      apply List.countP_congr
      intro k hk
      have hk := (mem_internals h).1 hk
      rw [tree_kind_internal h hk.2 hk.1]; simp
    rw [← this, hp]
    split <;> simp
  · intro k hk
    have hk := (mem_internals h).1 hk
    have := h.2.2.2.2.2.2.1 k hk.2 hk.1
    have h3 := this.2.2.2.1
    have h4 := this.2.2.2.2.1
    exact ⟨by omega, by omega, this.2.2.2.2.2.1⟩

/-- If every internal node weighs what its children weigh, the leaves weigh what the root weighs. -/
theorem tree_sum {s : State} (h : treeOk s) (hl : 0 < s.nleaf) (w : Nat → Nat) (hw : ∀ k < s.nnode, s.nleaf ≤ k →
    w k = w (nodeAt s k).left + w (nodeAt s k).right) :
   ((List.range s.nleaf).map w).sum = w s.root := by
  have h1 := tree_children_sum h hl w
  have : ((internals s).map fun k => w (nodeAt s k).left + w (nodeAt s k).right) = (internals s).map w := by
    apply List.map_congr_left
    intro k hk
    have hk := (mem_internals h).1 hk
    exact (hw k hk.2 hk.1).symm
  rw [this] at h1
  omega

/-- The weighted length of the paths is the sum of the weights of the internal nodes. -/
theorem tree_cost {s : State} (h : treeOk s) (hp : pathsOk s) (hl : 0 < s.nleaf) :
    ((List.range s.nleaf).map fun k => (nodeAt s k).freq * (nodeAt s k).plen).sum = ((internals s).map fun k =>
        (nodeAt s k).freq).sum := by
  have h1 := tree_children_sum h hl (fun k => (nodeAt s k).freq * (nodeAt s k).plen)
  have : ((internals s).map fun k => (nodeAt s (nodeAt s k).left).freq * (nodeAt s (nodeAt s k).left).plen +
      (nodeAt s (nodeAt s k).right).freq * (nodeAt s (nodeAt s k).right).plen).sum = ((internals s).map fun k =>
      (nodeAt s k).freq).sum + ((internals s).map fun k => (nodeAt s k).freq * (nodeAt s k).plen).sum := by
    rw [← List.sum_map_add]
    congr 1
    apply List.map_congr_left
    intro k hk
    have hk := (mem_internals h).1 hk
    have hi := h.2.2.2.2.2.2.1 k hk.2 hk.1
    obtain ⟨p1, -, p3, -⟩ := hp.2.2 k hk.2 hk.1
    rw [p1, p3, hi.2.2.2.2.2.2.1]
    ring
  rw [this, hp.2.1 hl] at h1
  omega

/-! ## The index that means no node -/

/-- `2^ceilLog2 n` is at least `n`. -/
theorem ceilLog2_spec (n : Nat) (h : 2 ≤ n) : n ≤ 2 ^ ceilLog2 n := by
  unfold ceilLog2
  rw [if_neg (by omega)]
  have := Nat.lt_log2_self (n := n - 1)
  omega

/-- `NONE` is not the index of a slot (R7). -/
theorem noNode_ge (p : Params) (hw : p.wf) : 2 * p.alphabet - 1 ≤ p.noNode := by
  have := ceilLog2_spec (2 * p.alphabet) (by have := hw.1; omega)
  unfold Params.noNode Params.nidxW
  omega

/-- A tree with a leaf has a root other than `NONE`. -/
theorem root_ne {s : State} (h : treeOk s) (hw : s.cfg.wf) (hl : 0 < s.nleaf) (hA : s.nleaf ≤ s.cfg.alphabet) :
    s.root ≠ s.cfg.noNode := by
  have := noNode_ge s.cfg hw
  have := root_lt h hl
  have := h.1
  omega

/-! ## Paths -/

section
variable {s : State} (h : treeOk s) (hp : pathsOk s)
include h hp

omit h in
/-- The root has the empty path. -/
theorem path_root (hl : 0 < s.nleaf) : pathOf s s.root = [] := by
  rw [pathOf, hp.2.1 hl]; rfl

/-- A child has its parent's path with 0 or 1 added. -/
theorem path_children {k : Nat} (hk : k < s.nnode) (hi : (nodeAt s k).kind = .internal) :
    pathOf s (nodeAt s k).left = pathOf s k ++ [false] ∧ pathOf s (nodeAt s k).right = pathOf s k ++ [true] := by
  have hl : s.nleaf ≤ k := by
    by_contra hl
    rw [tree_kind_leaf h (by omega)] at hi; cases hi
  obtain ⟨h1, h2, h3, h4⟩ := hp.2.2 k hk hl
  unfold pathOf
  rw [h1, h2, h3, h4]
  exact ⟨unpackBits_append _ _ false, unpackBits_append _ _ true⟩

/-- The same for any child. -/
theorem path_child {k j : Nat} (hc : IsChild s k j) : ∃ b : Bool, pathOf s j = pathOf s k ++ [b] ∧ j = (if b then
    (nodeAt s k).right else (nodeAt s k).left) := by
  obtain ⟨h1, h2⟩ := path_children h hp hc.1 hc.2.1
  rcases hc.2.2 with rfl | rfl
  · exact ⟨false, h1, rfl⟩
  · exact ⟨true, h2, rfl⟩

/-- Different nodes have different paths. -/
theorem path_inj {j j' : Nat} (hj : j < s.nnode) (hj' : j' < s.nnode) (he : pathOf s j = pathOf s j') : j = j' := by
  have hl : 0 < s.nleaf := by have := h.1; omega
  have hb := below_root h hj
  induction hb generalizing j' with
  | self =>
    by_contra hne
    obtain ⟨k, hc⟩ := parent_exists h hj' (Ne.symm hne)
    obtain ⟨b, h1, -⟩ := path_child h hp hc
    rw [path_root hp hl, h1] at he
    simp at he
  | child hb hc ih =>
    rename_i i j
    obtain ⟨b, h1, h2⟩ := path_child h hp hc
    by_cases hr : j' = s.root
    · rw [hr, path_root hp hl, h1] at he; simp at he
    · obtain ⟨k, hc'⟩ := parent_exists h hj' hr
      obtain ⟨b', h1', h2'⟩ := path_child h hp hc'
      rw [h1, h1'] at he
      obtain ⟨e1, e2⟩ := List.append_inj' he rfl
      have := ih hc.1 hc'.1 e1
      subst this
      simp at e2
      subst e2
      rw [h2, h2']

/-- Every prefix of a node's path is the path of a node above it. -/
theorem path_prefix {j : Nat} (hj : j < s.nnode) (q : List Bool) (hq : q <+: pathOf s j) : ∃ a, Below s a j ∧
    a < s.nnode ∧ pathOf s a = q := by
  have hl : 0 < s.nleaf := by have := h.1; omega
  have hb := below_root h hj
  induction hb with
  | self =>
    rw [path_root hp hl] at hq
    exact ⟨s.root, .self, hj, by rw [path_root hp hl]; exact (List.prefix_nil.1 hq).symm⟩
  | child hb hc ih =>
    rename_i i j
    obtain ⟨b, h1, h2⟩ := path_child h hp hc
    rw [h1, List.prefix_concat_iff] at hq
    rcases hq with hq | hq
    · exact ⟨j, .self, hj, by rw [h1, hq]⟩
    · obtain ⟨a, h1, h2, h3⟩ := ih hc.1 hq
      exact ⟨a, h1.child hc, h2, h3⟩

/-- No leaf's path is a prefix of another leaf's path. -/
theorem leaf_prefix {a b : Nat} (ha : a < s.nleaf) (hb : b < s.nleaf) (hq : pathOf s a <+: pathOf s b) : a = b := by
  have hle := tree_nleaf_le h
  obtain ⟨c, h1, h2, h3⟩ := path_prefix h hp (by omega) _ hq
  have := path_inj h hp h2 (by omega) h3
  subst this
  exact (below_leaf (tree_kind_leaf h ha) h1).symm
end

end Sys2Proof.Machine
end

