-- ==== Sys2Proof/Laws/Walk.lean ====
section
/-! SUPPORT. Laws/Walk.lean: what the walk of DERIVE leaves at every node and in CODE (43_derive.md R131 to R137). -/

namespace Sys2Proof.Machine

/-- Node `k` has been given the path `p`. -/
structure HasPath (t : State) (k : Nat) (p : List Bool) : Prop where
  pvalid : (nodeAt t k).pvalid = true
  plen : (nodeAt t k).plen = p.length
  pbits : (nodeAt t k).pbits = packBits p

/-- What a walk from node `k` with path `p`, in a state whose tree is that of `s`, leaves behind. -/
structure Visited (s u t : State) (k : Nat) (p : List Bool) : Prop where
  root : HasPath t k p
  paths : ∀ j, Below s k j → ∃ q, HasPath t j q ∧
    ((nodeAt s j).kind = .internal →
      HasPath t (nodeAt s j).left (q ++ [false]) ∧ HasPath t (nodeAt s j).right (q ++ [true])) ∧
    ((nodeAt s j).kind = .leaf → codeAt t (nodeAt s j).sym.toNat = codeOfPath q)
  other : ∀ j, ¬ Below s k j → nodeAt t j = nodeAt u j
  codes : ∀ v, (∀ j, Below s k j → (nodeAt s j).kind = .leaf → (nodeAt s j).sym.toNat ≠ v) → codeAt t v = codeAt u v

/-- The walk from node `k` leaves what `Visited` says. -/
theorem visit_visited {s : State} (h : treeOk s) (n k : Nat) (p : List Bool) (u : State) (hn : k < n)
    (hk : k < s.nnode) (hu : ∀ j, sameTreeFields (nodeAt s j) (nodeAt u j)) : Visited s u (visit n k p u) k p := by
  induction n generalizing k p u with
  | zero => omega
  | succ n ih =>
    have hkind := (hu k).2.1
    unfold visit
    cases hs : (nodeAt s k).kind with
    | leaf =>
      rw [hs] at hkind
      simp only [hkind]
      rw [(hu k).2.2.1]
      have hp : HasPath (codeWrite (nodeAt s k).sym.toNat (codeOfPath p) (setPath k p u)) k p := by
        constructor <;> simp [nodeAt_codeWrite, nodeAt_setPath]
      constructor
      · exact hp
      · intro j hj
        have := below_leaf hs hj
        subst this
        refine ⟨p, hp, (fun h => by rw [hs] at h; cases h), fun _ => ?_⟩
        rw [codeAt_codeWrite, if_pos rfl]
      · intro j hj
        rw [nodeAt_codeWrite, nodeAt_setPath, if_neg]
        rintro rfl
        exact hj .self
      · intro v hv
        rw [codeAt_codeWrite, if_neg (fun e => hv k .self hs e.symm), codeAt_setPath]
    | internal =>
      rw [hs] at hkind
      simp only [hkind]
      rw [(hu k).2.2.2.2.1, (hu k).2.2.2.2.2]
      obtain ⟨cl, cr⟩ := isChild_of_internal hk hs
      have hll := child_lt h cl
      have hrl := child_lt h cr
      have hne := children_ne h hk hs
      have hu1 : ∀ j, sameTreeFields (nodeAt s j) (nodeAt (setPath k p u) j) :=
        fun j => sameTreeFields_trans (hu j) ((onlyPaths_setPath k p u).tree j)
      have v1 := ih (nodeAt s k).left (p ++ [false]) (setPath k p u) (by omega) (by omega) hu1
      have hu2 : ∀ j, sameTreeFields (nodeAt s j) (nodeAt (visit n (nodeAt s k).left (p ++ [false])
          (setPath k p u)) j) :=
        fun j => sameTreeFields_trans (hu1 j) ((onlyPaths_visit _ _ _ _).tree j)
      have v2 := ih (nodeAt s k).right (p ++ [true]) _ (by omega) (by omega) hu2
      generalize visit n (nodeAt s k).left (p ++ [false]) (setPath k p u) = u1 at *
      generalize visit n (nodeAt s k).right (p ++ [true]) u1 = t at *
      have keepL : ∀ j, Below s (nodeAt s k).left j → nodeAt t j = nodeAt u1 j := fun j hj =>
        v2.other j fun hj' => below_disjoint h cl cr hne hj hj'
      have hpath : ∀ j q, nodeAt t j = nodeAt u1 j → HasPath u1 j q → HasPath t j q := fun j q he hq =>
        ⟨by rw [he]; exact hq.1, by rw [he]; exact hq.2, by rw [he]; exact hq.3⟩
      have keepK : nodeAt t k = nodeAt (setPath k p u) k := by
        rw [v2.other k (fun hb => by have := below_le h hb; omega),
          v1.other k (fun hb => by have := below_le h hb; omega)]
      have hroot : HasPath t k p := by constructor <;> simp [keepK, nodeAt_setPath]
      constructor
      · exact hroot
      · intro j hj
        rcases (below_iff hk hs).1 hj with rfl | hj | hj
        · exact ⟨p, hroot, fun _ => ⟨hpath _ _ (keepL _ .self) v1.root, v2.root⟩, fun hl => by rw [hs] at hl; cases hl⟩
        · obtain ⟨q, hq, hi, hl⟩ := v1.paths j hj
          refine ⟨q, hpath _ _ (keepL j hj) hq, fun hik => ?_, fun hlk => ?_⟩
          · have hjn : j < s.nnode := by have := below_le h hj; omega
            obtain ⟨c1, c2⟩ := isChild_of_internal hjn hik
            exact ⟨hpath _ _ (keepL _ (hj.child c1)) (hi hik).1, hpath _ _ (keepL _ (hj.child c2)) (hi hik).2⟩
          · rw [← hl hlk]
            apply v2.codes
            intro j' hj' hlk' he
            have h1 : j < s.nleaf := (kind_leaf_iff h (by have := below_le h hj; omega)).1 hlk
            have h2 : j' < s.nleaf := (kind_leaf_iff h (by have := below_le h hj'; omega)).1 hlk'
            have := leaf_sym_inj h h2 h1 he
            subst this
            exact below_disjoint h cl cr hne hj hj'
        · exact v2.paths j hj
      · intro j hj
        have hj' := fun hb => hj ((below_iff hk hs).2 hb)
        rw [v2.other j (fun hb => hj' (.inr (.inr hb))), v1.other j (fun hb => hj' (.inr (.inl hb))), nodeAt_setPath,
          if_neg (fun e => hj' (.inl e))]
      · intro v hv
        rw [v2.codes v (fun j hj => hv j ((below_iff hk hs).2 (.inr (.inr hj)))),
          v1.codes v (fun j hj => hv j ((below_iff hk hs).2 (.inr (.inl hj)))), codeAt_setPath]

/-- The path of a node that has been given `p` reads as `p`. -/
theorem HasPath.path {t k p} (h : HasPath t k p) : pathOf t k = p := by
  rw [pathOf, h.plen, h.pbits, unpackBits_packBits]

/-- What DERIVE, started on the tree of `s`, leaves in `t`. -/
structure Derived (s t : State) : Prop where
  root : 0 < s.nleaf → HasPath t s.root []
  paths : ∀ j < s.nnode, ∃ q, HasPath t j q ∧
    ((nodeAt s j).kind = .internal →
      HasPath t (nodeAt s j).left (q ++ [false]) ∧ HasPath t (nodeAt s j).right (q ++ [true])) ∧
    ((nodeAt s j).kind = .leaf → codeAt t (nodeAt s j).sym.toNat = if s.nleaf = 1 then loneCode else codeOfPath q)
  other : ∀ j, s.nnode ≤ j → nodeAt t j = nodeAt s j
  codes : ∀ v, (∀ j < s.nleaf, (nodeAt s j).sym.toNat ≠ v) → codeAt t v = noCode

/-- DERIVE leaves what `Derived` says. -/
theorem derived {s : State} (h : treeOk s) (hw : s.cfg.wf) (hA : s.nleaf ≤ s.cfg.alphabet) : Derived s
    (deriveBody s) := by
  have hn := h.1
  have hsub : deriveBody s = setPhase .derived (deriveWalk (clearCode s)) := rfl
  by_cases h0 : s.nleaf = 0
  · have hr : (clearCode s).root = (clearCode s).cfg.noNode := by
      show s.root = s.cfg.noNode
      rw [h.2.1, if_pos h0]
    rw [hsub, deriveWalk_of_no_tree hr]
    exact ⟨fun h => by omega, fun j hj => by omega, fun j hj => rfl, fun v hv => rfl⟩
  · have hr := root_ne h hw (by omega) hA
    have hrl := root_lt h (by omega)
    by_cases h1 : s.nleaf = 1
    · have hroot : s.root = 0 := by rw [h.2.1, if_neg h0]; omega
      have hk : (nodeAt s s.root).kind = .leaf := tree_kind_leaf h (by omega)
      rw [hsub, deriveWalk_of_leaf (s := clearCode s) hr hk]
      have hp : HasPath (setPhase .derived (codeWrite (nodeAt s s.root).sym.toNat loneCode (setPath s.root []
          (clearCode s)))) s.root [] := by
        constructor <;> simp [nodeAt_setPath]
      refine ⟨fun _ => hp, fun j hj => ?_, fun j hj => ?_, fun v hv => ?_⟩
      · have : j = s.root := by omega
        subst this
        refine ⟨[], hp, fun h => (by rw [hk] at h; cases h), fun _ => ?_⟩
        rw [if_pos h1]
        rw [codeAt_setPhase, codeAt_codeWrite]; exact if_pos rfl
      · rw [nodeAt_setPhase, nodeAt_codeWrite, nodeAt_setPath]
        exact if_neg (by show j ≠ s.root; omega)
      · rw [codeAt_setPhase, codeAt_codeWrite]
        exact if_neg (fun e => hv s.root (by omega) e.symm)
    · have hk : (nodeAt s s.root).kind = .internal := tree_kind_internal h hrl (by rw [h.2.1, if_neg h0]; omega)
      rw [hsub, deriveWalk_of_internal (s := clearCode s) hr hk]
      have v := visit_visited h s.nnode s.root [] (clearCode s) hrl hrl (onlyPaths_clearCode s).tree
      refine ⟨fun _ => ⟨v.root.1, v.root.2, v.root.3⟩, fun j hj => ?_, fun j hj => ?_, fun u hu => ?_⟩
      · obtain ⟨q, h1, h2, h3⟩ := v.paths j (below_root h hj)
        refine ⟨q, ⟨h1.1, h1.2, h1.3⟩, fun hi => ⟨⟨(h2 hi).1.1, (h2 hi).1.2, (h2 hi).1.3⟩, ⟨(h2 hi).2.1, (h2 hi).2.2,
            (h2 hi).2.3⟩⟩, fun hl => ?_⟩
        rw [if_neg (by assumption)]
        exact h3 hl
      · exact v.other j (fun hb => by have := below_le h hb; omega)
      · exact v.codes u (fun j hj hl => hu j ((kind_leaf_iff h (by have := below_le h hj; omega)).1 hl))

end Sys2Proof.Machine
end

