-- ==== Sys2Proof/Tests/Slice0.lean ====
section
/-! SUPPORT. Tests/Slice0.lean: the model's own tests. Every expected value is written out from spec/95_test_vectors.md
(the vector is named in the comment) or from the encoding of 30_encoding.md R71, and the second half shows, for every
statement that has hypotheses, a state and operands that meet them. -/

set_option maxRecDepth 100000
set_option synthInstance.maxSize 4000
set_option synthInstance.maxHeartbeats 400000

namespace Sys2Proof.Tests

open Sys2Proof Sys2Proof.Machine

/-! ## Helpers -/

/-- A LOAD state with `bytes` in SEQ and the sink's next answers `plan`. The bytes are not 0, so the list is canonical. -/
def loaded (p : Params) (bytes : List Byte) (plan : List SinkAnswer) : State :=
  { State.resetOf p with
    seq := (bytes.zipIdx.map fun e => (e.2, e.1)), nsym := bytes.length, plan := plan }

/-- The outcome is a next state of which `f` is true. -/
def next (o : Host.Outcome State Fault Refusal) (f : State → Bool) : Bool :=
  match o with
  | .next t    => f t
  | .fault _   => false
  | .refused _ => false

/-- The sink calls of a state as one Bool and one answer each: `W1` is `w true`. -/
def w (b : Bool) : SinkEvent := { call := .writeBit b, answer := .ok }

/-- "aaabbc" (V1). -/
def aaabbc : List Byte := [0x61, 0x61, 0x61, 0x62, 0x62, 0x63]

/-- The tables of V1 after DERIVE, as the vector lists them, with `bytes` in SEQ. -/
def derivedV1 (bytes : List Byte) (indep : Bool) (plan : List SinkAnswer) : State :=
  { loaded Params.default bytes plan with
    phase := .derived, indep := indep, freq := [(0x61, 3), (0x62, 2), (0x63, 1)], nleaf := 3, nnode := 5, root := 4,
    pq := [4], pqcnt := 1,
    node := [(0, ⟨true, .leaf, 0x61, 3, 255, 255, true, 1, 1⟩), (1, ⟨true, .leaf, 0x62, 2, 255, 255, true, 2, 0⟩),
      (2, ⟨true, .leaf, 0x63, 1, 255, 255, true, 2, 1⟩), (3, ⟨true, .internal, 0, 3, 1, 2, true, 1, 0⟩),
      (4, ⟨true, .internal, 0, 6, 3, 0, true, 0, 0⟩)],
    code := [(0x61, ⟨1, 1⟩), (0x62, ⟨2, 0⟩), (0x63, ⟨2, 1⟩)] }

/-- The BUILT state of "abb" with `a` = 1, `b` = 2 in an instance with `A` = 4, `W_LEN` = 3 (so `NONE` = 7): V26 with the
two symbols exchanged. -/
def smallBuilt : State :=
  { loaded ⟨4, 3⟩ [1, 2, 2] (List.replicate 10 .ok) with
    phase := .built, freq := [(1, 1), (2, 2)], nleaf := 2, nnode := 3, root := 2, pq := [2], pqcnt := 1,
    node := [(0, ⟨true, .leaf, 1, 1, 7, 7, false, 0, 0⟩), (1, ⟨true, .leaf, 2, 2, 7, 7, false, 0, 0⟩),
      (2, ⟨true, .internal, 0, 3, 1, 0, false, 0, 0⟩)] }

/-- The same after DERIVE: code of 1 is "1", code of 2 is "0". -/
def smallDerived : State :=
  { smallBuilt with
    phase := .derived, code := [(1, ⟨1, 1⟩), (2, ⟨1, 0⟩)],
    node := [(0, ⟨true, .leaf, 1, 1, 7, 7, true, 1, 1⟩), (1, ⟨true, .leaf, 2, 2, 7, 7, true, 1, 0⟩),
      (2, ⟨true, .internal, 0, 3, 1, 0, true, 0, 0⟩)] }

/-- The same after PACK. -/
def smallDone : State :=
  { smallDerived with
    phase := .done, bitcnt := 3, plan := List.replicate 6 .ok,
    log := [w true, w false, w false, ⟨.flush, .ok⟩] }

/-- The COUNTED state before `smallBuilt`. -/
def smallCounted : State :=
  { loaded ⟨4, 3⟩ [1, 2, 2] (List.replicate 10 .ok) with phase := .counted, freq := [(1, 1), (2, 2)] }

/-- The lone symbol 1, twice, in phase BUILT (V33). -/
def loneBuilt : State :=
  { loaded ⟨4, 3⟩ [1, 1] (List.replicate 10 .ok) with
    phase := .built, freq := [(1, 2)], nleaf := 1, nnode := 1, root := 0, pq := [0], pqcnt := 1,
    node := [(0, ⟨true, .leaf, 1, 2, 7, 7, false, 0, 0⟩)] }

/-- The same after DERIVE. -/
def loneDerived : State :=
  { loneBuilt with
    phase := .derived, code := [(1, ⟨1, 0⟩)], node := [(0, ⟨true, .leaf, 1, 2, 7, 7, true, 0, 0⟩)] }

/-- Nothing counted, in phase BUILT (V34). -/
def emptyBuilt : State := { State.resetOf ⟨4, 3⟩ with phase := .built, empty := true }

/-- Nothing counted, in phase DERIVED. -/
def emptyDerived : State := { emptyBuilt with phase := .derived }

/-- A second sequence with a symbol that has no code, as in V49: SEQ = 1 3, in phase DERIVED with INDEP = 1. -/
def uncodableDerived : State :=
  { smallDerived with seq := [(0, 1), (1, 3)], nsym := 2, indep := true }

/-- The same with a symbol outside the alphabet in place of the uncoded one (V50). -/
def outOfRangeDerived : State := { uncodableDerived with seq := [(0, 1), (1, 4)] }

/-- Symbol 1 counted twice, nothing else, in phase COUNTED (R118 a). -/
def loneCounted : State := { loaded ⟨4, 3⟩ [1, 1] [] with phase := .counted, freq := [(1, 2)] }

/-- Nothing counted, in phase COUNTED (R118 b, V18). -/
def emptyCounted : State := { State.resetOf ⟨4, 3⟩ with phase := .counted, empty := true }

/-- Three symbols counted, in phase COUNTED: two internal nodes will be made. -/
def threeCounted : State :=
  { loaded ⟨4, 3⟩ [1, 2, 3] [] with phase := .counted, freq := [(1, 1), (2, 1), (3, 1)] }

/-- The leaves of `smallBuilt` before the first merge. -/
def smallSeeded : State :=
  { smallCounted with
    nleaf := 2, nnode := 2, pq := [0, 1], pqcnt := 2,
    node := [(0, ⟨true, .leaf, 1, 1, 7, 7, false, 0, 0⟩), (1, ⟨true, .leaf, 2, 2, 7, 7, false, 0, 0⟩)] }

/-- Phase LOAD with nothing loaded and one word presented. -/
def presenting (v : Word) : State := { State.reset with host := [.word v] }

/-- A LOAD state with a stale entry above NSYM. -/
def staleLoaded : State :=
  { loaded ⟨4, 3⟩ [1, 2, 2] (List.replicate 13 .ok) with seq := [(0, 1), (1, 2), (2, 2), (3, 3)] }

/-- Phase FAULT as in V71, with the host presenting `hs`. -/
def faulted (hs : List HostInput) : State :=
  { loaded Params.default [0x61, 0x62, 0x80, 0x61] [] with
    phase := .fault, cause := .symbolOutOfRange, fidx := 2, finfo := 0x0080#16, freq := [(0x61, 1), (0x62, 1)],
    host := hs }

/-- Phase FAULT with cause `c`, three symbols loaded. -/
def faultedBy (c : Cause) (idx : Nat) (info : Word) : State :=
  { loaded ⟨4, 3⟩ [1, 2, 2] [] with phase := .fault, cause := c, fidx := idx, finfo := info }

/-! ## WellFormed: the parameters of R7 and the command terms -/

theorem test_wf_default : Params.default.wf := by decide
theorem test_wf_largest : (Params.mk 256 1).wf := by decide
theorem test_ill_formed_alphabet_too_small : ¬ (Params.mk 1 32).wf := by decide
theorem test_ill_formed_alphabet_too_large : ¬ (Params.mk 257 32).wf := by decide
theorem test_ill_formed_no_length : ¬ (Params.mk 128 0).wf := by decide
theorem test_wf_lds : (Instr.lds 0xFF).wf = true := by decide

/-- R7's derived constants for the default configuration. -/
theorem test_derived_parameters :
    Params.default.nMax = 4294967295 ∧ Params.default.nidxW = 8 ∧ Params.default.noNode = 255 ∧
      Params.default.nodeMax = 255 ∧ Params.default.maxLen = 127 ∧ Params.default.lenW = 7 ∧
      Params.default.wBits = 40 := by decide

/-! ## Decode: one word per command written out as op, rsv, imm (R71), and illegal words (vectors 2.1) -/

theorem test_decode_nop : decodeWord 0b0000000000000000#16 = some .nop := by decide
theorem test_decode_clear : decodeWord 0b0001000000000000#16 = some .clear := by decide
theorem test_decode_lds : decodeWord 0b0010000001100001#16 = some (.lds 0x61) := by decide
theorem test_decode_lds_max : decodeWord 0b0010000011111111#16 = some (.lds 0xFF) := by decide
theorem test_decode_seqclr : decodeWord 0b0011000000000000#16 = some .seqclr := by decide
theorem test_decode_count : decodeWord 0b0100000000000000#16 = some .count := by decide
theorem test_decode_build : decodeWord 0b0101000000000000#16 = some .build := by decide
theorem test_decode_derive : decodeWord 0b0110000000000000#16 = some .derive := by decide
theorem test_decode_pack : decodeWord 0b0111000000000000#16 = some .pack := by decide
theorem test_decode_encode : decodeWord 0b1000000000000000#16 = some .encode := by decide

theorem test_illegal_words :
    [0x0001#16, 0x1001#16, 0x0100#16, 0x2161#16, 0x2F00#16, 0x4001#16, 0x80FF#16, 0x9000#16, 0xF000#16,
      0xFFFF#16].map decodeWord = List.replicate 10 none := by decide

theorem test_table_word : decodeTableWord 16 0x2061 = some (.lds 0x61) ∧ decodeTableWord 16 0x9000 = none := by decide

/-- P1: the words of the script. -/
theorem test_assemble_p1 :
    assemble [['C', 'L', 'E', 'A', 'R', ' ', ';', ' ', 'x'], ['L', 'D', 'S', 'T', 'R', ' ', '"', 'a', 'a', 'b', '"'],
      ['E', 'N', 'C', 'O', 'D', 'E']] = some [0x1000#16, 0x2061#16, 0x2061#16, 0x2062#16, 0x8000#16] := by decide

/-- P5 and R82: `LDBYTES 0x61, 98` and `LDS 'a'`; 256 is no value. -/
theorem test_assemble_values :
    assemble [['L', 'D', 'B', 'Y', 'T', 'E', 'S', ' ', '0', 'x', '6', '1', ',', ' ', '9', '8'],
      ['L', 'D', 'S', ' ', '\'', 'a', '\'']] = some [0x2061#16, 0x2062#16, 0x2061#16] ∧
    assembleLine ['L', 'D', 'S', ' ', '2', '5', '6'] = none := by decide

/-! ## One step of every command -/

/-- V5: NOP in FAULT. -/
theorem test_nop_in_fault : next (step (faulted [.word 0x0000])) (· == faulted []) = true := by decide

/-- V72: CLEAR leaves FAULT; every register and table is as after reset. -/
theorem test_clear_leaves_fault :
    next (step (faulted [.word 0x1000])) (fun t => { t with seq := [] } == State.reset) = true := by decide

/-- V11: LDS in DERIVED. -/
theorem test_lds_in_derived :
    next (exec (.lds 0x61) (derivedV1 aaabbc false [])) (fun t =>
      t.nsym == 7 && seqAt t 6 == 0x61 && t.indep && t.phase == .derived) = true := by decide

/-- V13: the fourth LDS with `W_LEN` = 2. -/
theorem test_lds_overflow :
    next (exec (.lds 0x61) (loaded ⟨128, 2⟩ [0x61, 0x61, 0x61] [])) (fun t =>
      t.cause == .seqOverflow && t.fidx == 3 && t.finfo == 0x2061#16 && t.nsym == 3 && t.phase == .fault) = true := by
  decide

/-- V16: SEQCLR in DONE. -/
theorem test_seqclr_in_done :
    next (exec .seqclr { derivedV1 aaabbc false [] with phase := .done, bitcnt := 9 }) (fun t =>
      t == { derivedV1 aaabbc true [] with nsym := 0, bitcnt := 9 }) = true := by decide

/-- V14: SEQCLR in LOAD. -/
theorem test_seqclr_in_load :
    next (exec .seqclr (loaded Params.default aaabbc [])) (fun t =>
      t.nsym == 0 && !t.indep && t.phase == .load) = true := by decide

/-- V21: the first symbol out of range stops COUNT. -/
theorem test_count_out_of_range :
    next (exec .count (loaded Params.default [0x61, 0x62, 0x80, 0x61] [])) (fun t => t == faulted []) = true := by decide

/-- V24: with `A` = 256 no symbol is out of range. -/
theorem test_count_full_alphabet :
    next (exec .count (loaded ⟨256, 32⟩ [0x80] [])) (fun t => t.freq == [(0x80, 1)] && t.phase == .counted) = true := by
  decide

/-- V7: counts 2, 3, 3, 2. -/
theorem test_build_v7 :
    next (exec .build { State.reset with phase := .counted, freq := [(0x61, 2), (0x62, 3), (0x63, 3), (0x64, 2)] })
      (fun t => t.root == 6 && t.nnode == 7 && t.nleaf == 4 && t.pqcnt == 1 &&
        nodeAt t 4 == ⟨true, .internal, 0, 4, 3, 0, false, 0, 0⟩ && nodeAt t 5 == ⟨true, .internal, 0, 6, 2, 1, false, 0, 0⟩ &&
        nodeAt t 6 == ⟨true, .internal, 0, 10, 5, 4, false, 0, 0⟩) = true := by decide

/-- V30: a leaf and an internal node tie. -/
theorem test_build_v30 :
    next (exec .build
      { State.reset with phase := .counted, freq := [(0x61, 1), (0x62, 1), (0x63, 2), (0x64, 3), (0x65, 5)] })
      (fun t => t.root == 8 && nodeAt t 6 == ⟨true, .internal, 0, 4, 5, 2, false, 0, 0⟩ &&
        nodeAt t 8 == ⟨true, .internal, 0, 12, 7, 4, false, 0, 0⟩) = true := by decide

/-- V1: DERIVE. -/
theorem test_derive_v1 :
    next (exec .derive { derivedV1 aaabbc false [] with
        phase := .built, code := [],
        node := [(0, ⟨true, .leaf, 0x61, 3, 255, 255, false, 0, 0⟩), (1, ⟨true, .leaf, 0x62, 2, 255, 255, false, 0, 0⟩),
          (2, ⟨true, .leaf, 0x63, 1, 255, 255, false, 0, 0⟩), (3, ⟨true, .internal, 0, 3, 1, 2, false, 0, 0⟩),
          (4, ⟨true, .internal, 0, 6, 3, 0, false, 0, 0⟩)] })
      (· == derivedV1 aaabbc false []) = true := by decide

/-- V33: the lone symbol. -/
theorem test_derive_lone : next (exec .derive loneBuilt) (· == loneDerived) = true := by decide

/-- V52: the fifth `write_bit` fails. -/
theorem test_pack_sink_failure :
    next (exec .pack (derivedV1 aaabbc false [.ok, .ok, .ok, .ok, .fail, .ok])) (fun t =>
      t.log == [w true, w true, w true, w false, ⟨.writeBit false, .fail⟩, ⟨.flush, .ok⟩] && t.bitcnt == 4 &&
        t.cause == .sinkFailure && t.fidx == 3 && t.finfo == 0#16 && !t.scope) = true := by decide

/-- V57: a symbol without code, and the flush fails too. -/
theorem test_pack_not_coded :
    next (exec .pack (derivedV1 [0x61, 0x62, 0x64] true [.ok, .ok, .ok, .fail])) (fun t =>
      t.log == [w true, w false, w false, ⟨.flush, .fail⟩] && t.bitcnt == 3 && t.cause == .symbolNotCoded &&
        t.fidx == 2 && t.finfo == 0x0064#16) = true := by decide

/-- V1 through ENCODE (P1). -/
theorem test_encode_v1 :
    next (exec .encode (loaded Params.default aaabbc (List.replicate 10 .ok))) (fun t =>
      t == { derivedV1 aaabbc false [] with
        phase := .done, bitcnt := 9,
        log := [w true, w true, w true, w false, w false, w false, w false, w false, w true, ⟨.flush, .ok⟩] }) = true := by
  decide

/-- V2: ENCODE of the empty input; STATUS = 0x000C. -/
theorem test_encode_empty :
    next (exec .encode (loaded Params.default [] [.ok])) (fun t =>
      statusWord t == 0x000C#16 && t.log == [⟨.flush, .ok⟩] && t.root == 255 && t.bitcnt == 0 && t.node == [] &&
        t.code == []) = true := by decide

/-- V70: IllegalCommand is found before IllegalSequence. -/
theorem test_illegal_before_sequence :
    next (step { smallCounted with host := [.word 0x2161] }) (fun t =>
      t.cause == .illegalCommand && t.finfo == 0x2161#16 && t.fidx == 0 && t.phase == .fault) = true := by decide

/-- V60: PACK in LOAD. -/
theorem test_pack_out_of_sequence :
    next (step { State.reset with host := [.word 0x7000] }) (fun t =>
      t.cause == .illegalSequence && t.finfo == 0x7000#16 && t.log == []) = true := by decide

/-- V71: words ignored in FAULT. -/
theorem test_ignored_in_fault : next (step (faulted [.word 0x9000])) (· == faulted []) = true := by decide

/-- V35: the read port. -/
theorem test_read_port :
    let s := derivedV1 aaabbc false []
    s.rd 3 3 = .node ⟨true, .internal, 0, 3, 1, 2, true, 1, 0⟩ ∧ s.rd 3 5 = .node ⟨false, .leaf, 0, 0, 255, 255, false, 0, 0⟩ ∧
      s.rd 3 255 = .node ⟨false, .leaf, 0, 0, 0, 0, false, 0, 0⟩ ∧ s.rd 4 0x62 = .code ⟨2, 0⟩ ∧ s.rd 4 0x64 = .code ⟨0, 0⟩ ∧
      s.rd 2 0x61 = .freq 3 ∧ s.rd 1 5 = .seq 0x63 ∧ s.rd 1 6 = .seq 0 ∧ s.rd 0 7 = .csr 4 ∧ s.rd 0 12 = .csr 0 := by
  decide

/-- V41: the reference sink's bytes. -/
theorem test_reference_bytes :
    refSinkBytes 3 [true, false, false, true, false, false, false, true, false, true, true, true, false, true, false, true,
      false, false, true, false, false, false, true] = [0x91#8, 0x75#8, 0x22#8] := by decide

/-- R180 on V1: the reference decoder with padding. -/
theorem test_reference_decoder :
    refDecode (derivedV1 aaabbc false []) 6
      [true, true, true, false, false, false, false, false, true, false, true] = some aaabbc := by decide

theorem test_fetch_word :
    next (step (State.reset.withFetchWord 16 0x2061)) (fun t => t.nsym == 1 && seqAt t 0 == 0x61) = true := by decide

/-! ## Witnesses: states and operands that meet the hypotheses of each statement -/

theorem inv_reset : Invariant State.reset := by decide
theorem inv_smallLoaded : Invariant (loaded ⟨4, 3⟩ [1, 2, 2] (List.replicate 13 .ok)) := by decide
theorem inv_smallCounted : Invariant smallCounted := by decide
theorem inv_smallBuilt : Invariant smallBuilt := by decide
theorem inv_smallDerived : Invariant smallDerived := by decide
theorem inv_smallDone : Invariant smallDone := by decide
theorem inv_loneBuilt : Invariant loneBuilt := by decide
theorem inv_loneDerived : Invariant loneDerived := by decide
theorem inv_emptyBuilt : Invariant emptyBuilt := by decide
theorem inv_emptyDerived : Invariant emptyDerived := by decide
theorem inv_uncodableDerived : Invariant uncodableDerived := by decide

theorem inv_outOfRangeDerived : Invariant outOfRangeDerived := by decide
theorem inv_loneCounted : Invariant loneCounted := by decide
theorem inv_emptyCounted : Invariant emptyCounted := by decide
theorem inv_threeCounted : Invariant threeCounted := by decide
theorem inv_staleLoaded : Invariant staleLoaded := by decide

theorem witness_LdstrExpandsToOneLdsPerCharacter :
    ∀ c ∈ [' ', '!', '#', '~'], 0x20 ≤ c.toNat ∧ c.toNat ≤ 0x7E ∧ c ≠ '"' := by simp

theorem witness_StepRunsTheDecodedCommand :
    (presenting 0x2061).host = [.word 0x2061] ∧ decodeWord 0x2061 = some (.lds 0x61) := by decide

/-- One word per clause, at the ends of the clauses' ranges; `0x21FF` is LDS with a nonzero `rsv`. -/
theorem witness_MalformedWordRaisesIllegalCommand :
    (presenting 0x2100).phase ≠ .fault ∧ (0x21FF#16).toNat / 256 % 16 ≠ 0 ∧ (0x2F00#16).toNat / 256 % 16 ≠ 0 ∧
      ((0x1001#16).toNat % 256 ≠ 0 ∧ (0x1001#16).toNat / 4096 ≠ 2) ∧
      ((0x30FF#16).toNat % 256 ≠ 0 ∧ (0x30FF#16).toNat / 4096 ≠ 2) ∧
      9 ≤ (0x9000#16).toNat / 4096 ∧ 9 ≤ (0xF000#16).toNat / 4096 := by decide

theorem witness_FaultIgnoresEveryWordButClear :
    (faulted [.word 0x1001]).host = [.word 0x1001] ∧ (faulted [.word 0x1001]).phase = .fault ∧ 0x1001#16 ≠ 0x1000#16 := by
  decide

/-- The phases of the table's `seq` entries, each met by a state that meets the invariant or by LOAD. -/
theorem witness_OutOfSequenceCommandRaises :
    State.reset.phase = .load ∧ smallCounted.phase = .counted ∧ smallBuilt.phase = .built ∧
      smallDerived.phase = .derived ∧ smallDone.phase = .done := by decide

theorem witness_EngineWaitsWithoutInput : State.reset.host = [] := by decide

theorem witness_HardwareResetGivesResetState : (faulted [.reset]).host = [.reset] := by decide

theorem witness_FaultIsStickyUntilClearOrReset :
    (faulted []).phase = .fault ∧
      next (step (faulted [.word 0x5000])) (fun t => t.phase == .fault && t.cause == .symbolOutOfRange) = true ∧
      next (step (faulted [.word 0x1000])) (fun t => t.phase == .load && t.cause == .none) = true ∧
      next (step (faulted [.reset])) (fun t => t.phase == .load && t.cause == .none) = true := by decide

/-- Each clause at the first index outside its range, in a state where the index just below reads nonzero or holds an
unused slot. -/
theorem witness_ReadOutsideRangeIsZero :
    5 ≤ (5#4).toNat ∧ 5 ≤ (15#4).toNat ∧ smallDone.rd 5 0 = .reserved ∧ smallDone.rd 0 10 = .csr 0 ∧
      smallDone.rd 0 9 = .csr 3 ∧ smallDone.rd 1 3 = .seq 0 ∧ smallDone.rd 1 2 = .seq 2 ∧ smallDone.rd 2 4 = .freq 0 ∧
      smallDone.rd 3 7 = .node ⟨false, .leaf, 0, 0, 0, 0, false, 0, 0⟩ ∧
      smallDone.rd 3 6 = .node ⟨false, .leaf, 0, 0, 7, 7, false, 0, 0⟩ ∧ smallDone.rd 4 4 = .code ⟨0, 0⟩ := by decide

/-- One state per value of PHASE (R26). -/
theorem witness_StatusRegisterLayout :
    State.reset.phase = .load ∧ smallCounted.phase = .counted ∧ smallBuilt.phase = .built ∧
      smallDerived.phase = .derived ∧ smallDone.phase = .done ∧ (faulted []).phase = .fault ∧
      (statusWord (faulted [])).extractLsb' 0 3 = 7#3 ∧ (statusWord smallDone).extractLsb' 0 3 = 4#3 := by decide

/-- One state per value of CAUSE (R29). -/
theorem inv_faultedBy :
    ∀ s ∈ [faultedBy .symbolOutOfRange 0 1, faultedBy .symbolNotCoded 0 1, faultedBy .sinkFailure 3 0,
      faultedBy .seqOverflow 7 0x2001, faultedBy .illegalCommand 0 0x9000, faultedBy .illegalSequence 0 0x5000],
      Invariant s ∧ s.cfg.wLen ≤ 56 := by decide

theorem witness_ReadInsideRangeIsCurrentContent : Invariant smallDone ∧ smallDone.cfg.wLen ≤ 56 := by decide

theorem witness_LdsAppendsTheSymbol :
    ((loaded Params.default aaabbc []).phase = .load ∧ (loaded Params.default aaabbc []).nsym < Params.default.nMax) ∧
      smallDerived.phase = .derived ∧ smallDerived.nsym < smallDerived.cfg.nMax := by decide

theorem witness_LdsAtCapacityRaisesSeqOverflow :
    ((loaded ⟨128, 2⟩ [0x61, 0x61, 0x61] []).phase = .load ∧ (loaded ⟨128, 2⟩ [0x61, 0x61, 0x61] []).nsym = 2 ^ 2 - 1) ∧
      { smallDerived with nsym := 7 }.phase = .derived ∧ { smallDerived with nsym := 7 }.nsym = smallDerived.cfg.nMax := by
  decide

theorem witness_SeqclrEmptiesTheSequence :
    staleLoaded.phase = .load ∧ smallDerived.phase = .derived ∧ smallDone.phase = .done := by decide

/-- Symbol 3 is the largest of the alphabet. -/
theorem witness_CountCountsEverySymbol :
    (loaded ⟨4, 3⟩ [3, 1] []).phase = .load ∧ (loaded ⟨4, 3⟩ [3, 1] []).nsym ≤ (Params.mk 4 3).nMax ∧
      ∀ i < 2, (seqAt (loaded ⟨4, 3⟩ [3, 1] []) i).toNat < 4 := by decide

theorem witness_CountStopsAtFirstOutOfRange :
    (loaded ⟨4, 3⟩ [1, 3, 4, 1] []).phase = .load ∧ (loaded ⟨4, 3⟩ [1, 3, 4, 1] []).nsym ≤ (Params.mk 4 3).nMax ∧
      2 < (loaded ⟨4, 3⟩ [1, 3, 4, 1] []).nsym ∧ 4 ≤ (seqAt (loaded ⟨4, 3⟩ [1, 3, 4, 1] []) 2).toNat ∧
      ∀ j < 2, (seqAt (loaded ⟨4, 3⟩ [1, 3, 4, 1] []) j).toNat < 4 := by decide

theorem witness_MergeJoinsTheTwoLightest :
    smallSeeded.pq.Pairwise (· < ·) ∧ 2 ≤ smallSeeded.pq.length ∧ smallSeeded.pqcnt = smallSeeded.pq.length ∧
      (∀ k ∈ smallSeeded.pq, k < smallSeeded.nnode) ∧
      ∀ x ∈ smallSeeded.pq, ∀ y ∈ smallSeeded.pq, x ≠ y →
        (nodeAt smallSeeded x).freq + (nodeAt smallSeeded y).freq ≤ smallSeeded.cfg.nMax := by decide

theorem witness_BuildSeedsLeavesInSymbolOrder : smallCounted.cfg.wf ∧ smallCounted.phase = .counted := by decide

theorem witness_BuildMakesTheTree : Invariant threeCounted ∧ threeCounted.phase = .counted := by decide

theorem witness_BuildOfOneOrNoSymbol :
    (emptyCounted.cfg.wf ∧ emptyCounted.phase = .counted ∧ ∀ v < 4, freqAt emptyCounted v = 0) ∧
      loneCounted.cfg.wf ∧ loneCounted.phase = .counted ∧ 0 < freqAt loneCounted 1 ∧
      ∀ u < 4, u ≠ 1 → freqAt loneCounted u = 0 := by decide

theorem witness_MergeWeightsDoNotDecrease :
    Invariant threeCounted ∧ threeCounted.phase = .counted ∧
      next (exec .build threeCounted) (fun t => decide (t.nleaf + 1 < t.nnode)) = true := by decide

/-- A code with the two symbols' bits exchanged. -/
theorem witness_TreeIsOptimal :
    Invariant smallCounted ∧ smallCounted.phase = .counted ∧
      ∀ a < 4, ∀ b < 4, a ≠ b → 0 < freqAt smallCounted a → 0 < freqAt smallCounted b →
        ¬ ([a == 1] <+: [b == 1]) := by decide

theorem witness_DeriveAssignsPathsAndCodes :
    (Invariant smallBuilt ∧ smallBuilt.phase = .built ∧ 2 ≤ smallBuilt.nleaf ∧ (nodeAt smallBuilt 2).kind = .internal) ∧
      Invariant loneBuilt ∧ loneBuilt.phase = .built ∧ loneBuilt.nleaf = 1 := by decide

theorem witness_DeriveForcesTheLoneCode :
    loneBuilt.phase = .built ∧ loneBuilt.root ≠ loneBuilt.cfg.noNode ∧ (nodeAt loneBuilt loneBuilt.root).kind = .leaf := by
  decide

theorem witness_DeriveOfNoTreeIsEmpty : emptyBuilt.phase = .built ∧ emptyBuilt.root = emptyBuilt.cfg.noNode := by decide

theorem witness_CountsSumToSequenceLength :
    (Invariant smallCounted ∧ smallCounted.phase = .counted ∧ smallCounted.indep = false) ∧
      (Invariant smallBuilt ∧ smallBuilt.phase = .built ∧ smallBuilt.indep = false) ∧
      (Invariant smallDerived ∧ smallDerived.phase = .derived ∧ smallDerived.indep = false) ∧
      Invariant smallDone ∧ smallDone.phase = .done ∧ smallDone.indep = false :=
  ⟨⟨inv_smallCounted, by decide⟩, ⟨inv_smallBuilt, by decide⟩, ⟨inv_smallDerived, by decide⟩, inv_smallDone,
    by decide⟩

theorem witness_CodeDomainIsTheCountedSymbols :
    (Invariant smallDerived ∧ smallDerived.phase = .derived) ∧ Invariant smallDone ∧ smallDone.phase = .done := by decide

theorem witness_CountedSequenceIsCodable :
    Invariant smallDerived ∧ smallDerived.phase = .derived ∧ smallDerived.indep = false ∧ 0 < smallDerived.nsym := by decide

theorem witness_CodesArePrefixFree :
    Invariant smallDerived ∧ smallDerived.phase = .derived ∧ 1 < smallDerived.cfg.alphabet ∧ 2 < smallDerived.cfg.alphabet ∧
      1 ≤ (codeAt smallDerived 1).len ∧ 1 ≤ (codeAt smallDerived 2).len := by decide

theorem witness_CodeIsComplete :
    (Invariant smallDerived ∧ smallDerived.phase = .derived ∧ 2 ≤ smallDerived.nleaf) ∧
      Invariant loneDerived ∧ loneDerived.phase = .derived ∧ loneDerived.nleaf = 1 := by decide

theorem witness_LengthsAreBounded :
    (Invariant smallDone ∧ smallDone.phase = .done ∧ 2 ≤ smallDone.nleaf ∧ 0 < freqAt smallDone 2) ∧
      Invariant loneDerived ∧ loneDerived.phase = .derived ∧ loneDerived.nleaf = 1 ∧ 0 < freqAt loneDerived 1 := by decide

theorem witness_BitCountIsTheWeightedLength :
    Invariant smallDone ∧ smallDone.phase = .done ∧ smallDone.indep = false := by decide

theorem witness_PackEmitsTheCodesInOrder :
    Invariant smallDerived ∧ smallDerived.phase = .derived ∧ sinkAlwaysOk smallDerived ∧
      ∀ b ∈ seqList smallDerived, codable smallDerived b = true := by decide

/-- Both causes: a symbol without a code, and one outside the alphabet. -/
theorem witness_PackStopsAtFirstUncodable :
    (Invariant uncodableDerived ∧ uncodableDerived.phase = .derived ∧ sinkAlwaysOk uncodableDerived ∧
        1 < uncodableDerived.nsym ∧ (∀ j < 1, codable uncodableDerived (seqAt uncodableDerived j) = true) ∧
        codable uncodableDerived (seqAt uncodableDerived 1) = false ∧ (seqAt uncodableDerived 1).toNat < 4) ∧
      Invariant outOfRangeDerived ∧ outOfRangeDerived.phase = .derived ∧ sinkAlwaysOk outOfRangeDerived ∧
        1 < outOfRangeDerived.nsym ∧ (∀ j < 1, codable outOfRangeDerived (seqAt outOfRangeDerived j) = true) ∧
        codable outOfRangeDerived (seqAt outOfRangeDerived 1) = false ∧ 4 ≤ (seqAt outOfRangeDerived 1).toNat := by
  decide

/-- The three outcomes occur: refused at the second bit, a symbol that cannot be packed, a failing flush. -/
theorem witness_PackOutcomeForEverySink :
    Invariant { smallDerived with plan := [.ok, .fail, .ok] } ∧ smallDerived.phase = .derived ∧
      firstUncodable smallDerived = 3 ∧ firstUncodable uncodableDerived = 1 ∧
      next (exec .pack { smallDerived with plan := [.ok, .fail, .ok] }) (fun t => t.fidx == 1 && t.bitcnt == 1) = true ∧
      next (exec .pack { smallDerived with plan := [.ok, .ok, .ok, .fail] })
        (fun t => t.fidx == 3 && t.cause == .sinkFailure) = true := by decide

theorem witness_PackFlushesExactlyOnce : smallDerived.phase = .derived ∧ smallBuilt.phase ≠ .derived := by decide

/-- Both answers of the flush. -/
theorem witness_PackOfEmptySequence :
    (emptyDerived.phase = .derived ∧ emptyDerived.nsym = 0) ∧
      next (exec .pack { emptyDerived with plan := [.ok] }) (fun t => t.phase == .done) = true ∧
      next (exec .pack { emptyDerived with plan := [.fail] }) (fun t => t.cause == .sinkFailure) = true := by decide

theorem witness_SinkAnswersInOrder :
    next (exec .pack smallDerived) (fun t => t.plan == smallDerived.plan.drop 4 && t.log.length == 4) = true := by decide

theorem witness_EncodeIsTheFourStages : (loaded Params.default aaabbc []).phase = .load := by decide

theorem witness_EncodeFaultInCountMakesNoSinkCall :
    (loaded ⟨4, 3⟩ [1, 4] []).phase = .load ∧
      ∃ i < (loaded ⟨4, 3⟩ [1, 4] []).nsym, (4 : Nat) ≤ (seqAt (loaded ⟨4, 3⟩ [1, 4] []) i).toNat :=
  ⟨by decide, 1, by decide, by decide⟩

theorem witness_EncodeOfEmptyInput : Invariant State.reset ∧ State.reset.phase = .load ∧ State.reset.nsym = 0 := by decide

theorem witness_EncodeThenDecodeIsTheSequence :
    Invariant staleLoaded ∧ staleLoaded.phase = .load ∧ (∀ i < staleLoaded.nsym, (seqAt staleLoaded i).toNat < 4) ∧
      sinkAlwaysOk staleLoaded := by decide

/-- Two different states with the same sequence, parameters and sink. -/
theorem witness_EncodeIsDeterministic :
    Invariant (loaded ⟨4, 3⟩ [1, 2, 2] (List.replicate 13 .ok)) ∧ Invariant staleLoaded ∧ staleLoaded.phase = .load ∧
      staleLoaded ≠ loaded ⟨4, 3⟩ [1, 2, 2] (List.replicate 13 .ok) ∧
      seqList staleLoaded = seqList (loaded ⟨4, 3⟩ [1, 2, 2] (List.replicate 13 .ok)) := by decide

/-- A step that moves PHASE, for the statements about every step. -/
theorem witness_PhaseMovesAreTheListedOnes :
    next (step { smallDone with host := [.word 0x3000] }) (fun t => t.phase == .derived) = true := by decide

theorem witness_EachTableHasOneWriter :
    next (exec .count staleLoaded) (fun t => t.phase == .counted) = true ∧ Instr.count ≠ .clear ∧
      Instr.count ≠ .encode := by decide

theorem witness_ParametersNeverChange :
    next (step (faulted [.reset])) (fun t => t.cfg == Params.default) = true := by decide

theorem witness_ResetMeetsTheInvariant : (Params.mk 2 1).wf ∧ (Params.mk 256 64).wf := by decide

theorem witness_StepKeepsCanonicalForms :
    formsOk { smallCounted with host := [.word 0x5000] } ∧
      next (step { smallCounted with host := [.word 0x5000] }) (fun t => decide (formsOk t)) = true := by decide

theorem witness_StepKeepsFaultRegisters :
    controlOk { smallDerived with host := [.word 0x4000] } ∧
      next (step { smallDerived with host := [.word 0x4000] }) (fun t => decide (controlOk t)) = true := by decide

theorem witness_StepKeepsTheInvariant :
    Invariant { smallCounted with host := [.word 0x5000] } ∧
      next (step { smallCounted with host := [.word 0x5000] }) (fun t => decide (Invariant t)) = true := by decide

end Sys2Proof.Tests
end

/-! Proofs for the family of 00_scope.md: what the read port returns after reset, the parameters never change, and every
step keeps the invariant. The parts of the invariant that a step keeps by themselves come first (`formsOk_bodyOf`,
`controlOk_bodyOf`); then each command is shown to keep the whole. -/

namespace Sys2Proof.Machine

/-! ## The read port right after reset (10_state.md R46) -/

theorem noNode_default : Params.default.noNode = 255 := by decide
theorem nodeMax_default : Params.default.nodeMax = 255 := by decide

/-- Settles O14: the sixteen registers are evaluated; every table is empty, so an entry reads as its default inside its
range and as zero outside, and only NODE tells the two apart. -/
theorem resetRegistersRead : Obligations.ResetRegistersRead := by
  refine ⟨rfl, by decide, fun i _ => ⟨rfl, ?_, ?_, ?_⟩⟩
  · exact congrArg ReadRecord.freq (ite_self 0)
  · exact congrArg ReadRecord.code (ite_self noCode)
  · show ReadRecord.node (if i < Params.default.nodeMax then unusedSlot Params.default else zeroNode) = _
    rw [nodeMax_default, unusedSlot, noNode_default]
    rfl

/-! ## The parameters (00_scope.md R8) -/

theorem cfg_countBody (s : State) : (countBody s).cfg = s.cfg := by
  obtain ⟨f, h | ⟨j, -, -, h⟩⟩ := countBody_cases s <;> rw [h] <;> rfl

/-- What LDS can do: raise SeqOverflow at capacity, or append the symbol. -/
theorem ldsBody_cases (imm : Byte) (s : State) :
    (s.nsym = s.cfg.nMax ∧ ldsBody imm s = raise .seqOverflow s.cfg.nMax (encode (.lds imm)) s) ∨
      (s.nsym ≠ s.cfg.nMax ∧ ldsBody imm s = appendSymbol imm s) := by
  unfold ldsBody
  split
  · exact .inl ⟨by assumption, rfl⟩
  · exact .inr ⟨by assumption, rfl⟩

theorem cfg_ldsBody (imm : Byte) (s : State) : (ldsBody imm s).cfg = s.cfg := by
  obtain ⟨-, he⟩ | ⟨-, he⟩ := ldsBody_cases imm s <;> rw [he] <;> rfl

theorem cfg_encodeBody (s : State) : (encodeBody s).cfg = s.cfg := by
  obtain ⟨f, j, -, -, h, -⟩ | ⟨f, -, h⟩ := encodeBody_cases s <;> rw [h]
  · exact cfg_countBody s
  · rw [(packBody_frame _).cfg, (deriveBody_frame _).cfg, (buildBody_frame _).cfg, cfg_countBody]

/-- No command changes the parameters. -/
theorem cfg_bodyOf (i : Instr) (s : State) : (bodyOf i s).cfg = s.cfg := by
  cases i with
  | nop => rfl
  | clear => rfl
  | lds imm => exact cfg_ldsBody imm s
  | seqclr => rfl
  | count => exact cfg_countBody s
  | build => exact (buildBody_frame s).cfg
  | derive => exact (deriveBody_frame s).cfg
  | pack => exact (packBody_frame s).cfg
  | encode => exact cfg_encodeBody s

/-- Settles O56: fault entry and reset keep the field, and so does every command. -/
theorem parametersNeverChange : Obligations.ParametersNeverChange := fun s _ h =>
  step_keeps (fun u => u.cfg = s.cfg) (fun _ _ hu => hu) (fun _ _ _ _ _ hu => hu) (fun _ hu => hu)
    (fun i u _ hu => (cfg_bodyOf i u).trans hu) rfl h

/-! ## The parts of the invariant, by name -/

section
variable {s : State}

theorem Invariant.cfg (h : Invariant s) : s.cfg.wf := h.1
theorem Invariant.forms (h : Invariant s) : formsOk s := h.2.1
theorem Invariant.control (h : Invariant s) : controlOk s := h.2.2.1
theorem Invariant.widths (h : Invariant s) : widthsOk s := h.2.2.2.1

theorem formsOk.freq (h : formsOk s) : tabWf 0 s.freq := h.2.1
theorem formsOk.node (h : formsOk s) : tabWf (unusedSlot s.cfg) s.node := h.2.2.1
theorem formsOk.code (h : formsOk s) : tabWf noCode s.code := h.2.2.2.1
theorem formsOk.pqcnt (h : formsOk s) : s.pqcnt = s.pq.length := h.2.2.2.2.2

theorem controlOk.scope (h : controlOk s) : s.scope = false := h.1

theorem widthsOk.nsym (h : widthsOk s) : s.nsym ≤ s.cfg.nMax := h.1
theorem widthsOk.nleaf (h : widthsOk s) : s.nleaf ≤ s.cfg.alphabet := h.2.2.1
theorem widthsOk.node (h : widthsOk s) : ∀ e ∈ s.node, e.1 < s.nnode ∧ e.2.freq ≤ s.cfg.nMax ∧
    e.2.left ≤ s.cfg.noNode ∧ e.2.right ≤ s.cfg.noNode ∧ e.2.plen ≤ s.cfg.maxLen ∧
    e.2.pbits < 2 ^ s.cfg.maxLen := h.2.2.2.2.2.2.2.2.2.1
theorem widthsOk.code (h : widthsOk s) : ∀ e ∈ s.code,
    e.1 < s.cfg.alphabet ∧ e.2.len ≤ s.cfg.maxLen ∧ e.2.bits < 2 ^ s.cfg.maxLen := h.2.2.2.2.2.2.2.2.2.2.2

end

/-! ## The canonical forms (log entries 9 and 10): every operation keeps `formsOk`

PQ stays a rising list because BUILD inserts NNODE, which is above every member: `PqBelow` carries that through the
two loops. -/

/-- Every member of PQ is a node made so far. -/
def PqBelow (s : State) : Prop := ∀ k ∈ s.pq, k < s.nnode

theorem formsOk_raise {s : State} (h : formsOk s) (c : Cause) (idx : Nat) (info : Word) :
    formsOk (raise c idx info s) := h

theorem formsOk_resetEngine {s : State} (h : formsOk s) : formsOk (resetEngine s) :=
  ⟨h.1, tabWf_nil _, tabWf_nil _, tabWf_nil _, .nil, rfl⟩

theorem formsOk_ldsBody {s : State} (h : formsOk s) (imm : Byte) : formsOk (ldsBody imm s) := by
  obtain ⟨-, he⟩ | ⟨-, he⟩ := ldsBody_cases imm s <;> rw [he]
  · exact h
  · obtain ⟨hseq, hrest⟩ := h
    exact ⟨Memory.write_wf _ _ _ hseq, hrest⟩

theorem formsOk_freqWrite {s : State} (h : formsOk s) (v n : Nat) : formsOk (freqWrite v n s) := by
  obtain ⟨hseq, hfreq, hrest⟩ := h
  exact ⟨hseq, tabSet_wf _ _ _ _ hfreq, hrest⟩

theorem formsOk_nodeWrite {s : State} (h : formsOk s) (k : Nat) (r : NodeRec) : formsOk (nodeWrite k r s) := by
  obtain ⟨hseq, hfreq, hnode, hrest⟩ := h
  exact ⟨hseq, hfreq, tabSet_wf _ _ _ _ hnode, hrest⟩

theorem formsOk_codeWrite {s : State} (h : formsOk s) (v : Nat) (e : CodeEntry) : formsOk (codeWrite v e s) := by
  obtain ⟨hseq, hfreq, hnode, hcode, hpq⟩ := h
  exact ⟨hseq, hfreq, hnode, tabSet_wf _ _ _ _ hcode, hpq⟩

theorem formsOk_clearFreq {s : State} (h : formsOk s) : formsOk (clearFreq s) := by
  obtain ⟨hseq, -, hrest⟩ := h
  exact ⟨hseq, tabWf_nil _, hrest⟩

theorem formsOk_clearCode {s : State} (h : formsOk s) : formsOk (clearCode s) := by
  obtain ⟨hseq, hfreq, hnode, -, hpq⟩ := h
  exact ⟨hseq, hfreq, hnode, tabWf_nil _, hpq⟩

theorem formsOk_countLoop (n i : Nat) {s : State} (h : formsOk s) : formsOk (countLoop n i s) := by
  induction n generalizing i s with
  | zero => exact h
  | succ n ih =>
    unfold countLoop
    split
    · exact h
    · exact ih _ (formsOk_freqWrite h _ _)

theorem formsOk_countBody {s : State} (h : formsOk s) : formsOk (countBody s) :=
  formsOk_countLoop _ _ (formsOk_clearFreq h)

theorem formsOk_startBuild {s : State} (h : formsOk s) : formsOk (startBuild s) := by
  obtain ⟨hseq, hfreq, hnode, hcode, -, -⟩ := h
  exact ⟨hseq, hfreq, hnode, hcode, .nil, rfl⟩

/-- A new node goes to the end of PQ. -/
theorem formsOk_newNode {s : State} (h : formsOk s) (hb : PqBelow s) (r : NodeRec) :
    formsOk (newNode r s) ∧ PqBelow (newNode r s) := by
  obtain ⟨hseq, hfreq, hnode, hcode, hpq, hcnt⟩ := formsOk_nodeWrite h s.nnode r
  have hins : insertIndex s.nnode s.pq = s.pq ++ [s.nnode] := insertIndex_of_above _ _ hb
  refine ⟨⟨hseq, hfreq, hnode, hcode, insertIndex_sorted _ _ hpq, ?_⟩, fun k hk => ?_⟩
  · show s.pqcnt + 1 = (insertIndex s.nnode s.pq).length
    rw [hins, List.length_append, List.length_singleton]
    exact congrArg (· + 1) hcnt
  · obtain rfl | hk := (mem_insertIndex _ _ _).1 hk
    · exact Nat.lt_succ_self _
    · exact Nat.lt_succ_of_lt (hb k hk)

theorem formsOk_pqRemove {s : State} (h : formsOk s) (hb : PqBelow s) {k : Nat} (hk : k ∈ s.pq) :
    formsOk (pqRemove k s) ∧ PqBelow (pqRemove k s) := by
  obtain ⟨hseq, hfreq, hnode, hcode, hpq, hcnt⟩ := h
  refine ⟨⟨hseq, hfreq, hnode, hcode, hpq.sublist List.erase_sublist, ?_⟩, fun j hj => hb j (List.mem_of_mem_erase hj)⟩
  show s.pqcnt - 1 = (s.pq.erase k).length
  rw [List.length_erase_of_mem hk, hcnt]

theorem formsOk_foldl_seedSymbol (l : List Nat) {s : State} (h : formsOk s) (hb : PqBelow s) :
    formsOk (l.foldl seedSymbol s) ∧ PqBelow (l.foldl seedSymbol s) := by
  induction l generalizing s with
  | nil => exact ⟨h, hb⟩
  | cons v l ih =>
    have hv : formsOk (seedSymbol s v) ∧ PqBelow (seedSymbol s v) := by
      unfold seedSymbol
      split
      · exact formsOk_newNode h hb _
      · exact ⟨h, hb⟩
    exact ih hv.1 hv.2

/-- `PQ.extract_min()` answers a member as long as PQCNT is not 0. -/
theorem pqMin_mem {s : State} (h : formsOk s) (hc : 0 < s.pqcnt) : pqMin s ∈ s.pq := by
  have hcnt := h.pqcnt
  refine (pqMin_spec s fun h0 => ?_).1
  rw [hcnt, h0] at hc
  exact absurd hc (Nat.lt_irrefl 0)

theorem formsOk_mergeOnce {s : State} (h : formsOk s) (hb : PqBelow s) (hc : 1 < s.pqcnt) :
    formsOk (mergeOnce s) ∧ PqBelow (mergeOnce s) := by
  obtain ⟨h₁, hb₁⟩ := formsOk_pqRemove h hb (pqMin_mem h (by omega))
  have hc₁ : 0 < (pqRemove (pqMin s) s).pqcnt := Nat.sub_pos_of_lt hc
  obtain ⟨h₂, hb₂⟩ := formsOk_pqRemove h₁ hb₁ (pqMin_mem h₁ hc₁)
  exact formsOk_newNode h₂ hb₂ _

theorem formsOk_mergeLoop (n : Nat) {s : State} (h : formsOk s) (hb : PqBelow s) : formsOk (mergeLoop n s) := by
  induction n generalizing s with
  | zero => exact h
  | succ n ih =>
    unfold mergeLoop
    split
    · rename_i hc
      obtain ⟨h', hb'⟩ := formsOk_mergeOnce h hb hc
      exact ih h' hb'
    · exact h

theorem formsOk_buildBody {s : State} (h : formsOk s) : formsOk (buildBody s) := by
  obtain ⟨h₁, hb₁⟩ := formsOk_foldl_seedSymbol (List.range s.cfg.alphabet) (formsOk_startBuild h)
    fun k hk => absurd hk List.not_mem_nil
  exact formsOk_mergeLoop s.cfg.alphabet (s := countLeaves (seedLoop s)) h₁ hb₁

theorem formsOk_visit (n k : Nat) (p : List Bool) {s : State} (h : formsOk s) : formsOk (visit n k p s) := by
  induction n generalizing k p s with
  | zero => exact h
  | succ n ih =>
    have hp : formsOk (setPath k p s) := formsOk_nodeWrite h _ _
    unfold visit
    split
    · exact formsOk_codeWrite hp _ _
    · exact ih _ _ (ih _ _ hp)

theorem formsOk_deriveWalk {s : State} (h : formsOk s) : formsOk (deriveWalk s) := by
  unfold deriveWalk
  split
  · exact h
  · split
    · exact formsOk_codeWrite (formsOk_nodeWrite h _ _) _ _
    · exact formsOk_visit _ _ _ h

theorem formsOk_deriveBody {s : State} (h : formsOk s) : formsOk (deriveBody s) :=
  formsOk_deriveWalk (formsOk_clearCode h)

/-- The frame of PACK as an equation: whatever does not look at the fields it names is the same before and after. -/
theorem OnlyPacked.eq {s t : State} (h : OnlyPacked s t) :
    t = { s with
      phase := t.phase, cause := t.cause, fidx := t.fidx, finfo := t.finfo, bitcnt := t.bitcnt,
      scope := t.scope, plan := t.plan, log := t.log } := by
  obtain ⟨h₁, h₂, h₃, h₄, h₅, h₆, h₇, h₈, h₉, h₁₀, h₁₁, h₁₂, h₁₃, h₁₄⟩ := h
  rw [← h₁, ← h₂, ← h₃, ← h₄, ← h₅, ← h₆, ← h₇, ← h₈, ← h₉, ← h₁₀, ← h₁₁, ← h₁₂, ← h₁₃, ← h₁₄]

theorem formsOk_packBody {s : State} (h : formsOk s) : formsOk (packBody s) := by
  rw [(packBody_frame s).eq]
  exact h

theorem formsOk_encodeBody {s : State} (h : formsOk s) : formsOk (encodeBody s) := by
  obtain ⟨f, j, -, -, he, -⟩ | ⟨f, -, he⟩ := encodeBody_cases s <;> rw [he]
  · exact formsOk_countBody h
  · exact formsOk_packBody (formsOk_deriveBody (formsOk_buildBody (formsOk_countBody h)))

/-- Every command keeps the canonical forms. -/
theorem formsOk_bodyOf (i : Instr) {s : State} (h : formsOk s) : formsOk (bodyOf i s) := by
  cases i with
  | nop => exact h
  | clear => exact formsOk_resetEngine h
  | lds imm => exact formsOk_ldsBody h imm
  | seqclr => exact h
  | count => exact formsOk_countBody h
  | build => exact formsOk_buildBody h
  | derive => exact formsOk_deriveBody h
  | pack => exact formsOk_packBody h
  | encode => exact formsOk_encodeBody h

/-! ## The fault registers (10_state.md R29 to R31, R43): every operation keeps `controlOk` -/

/-- The control registers outside FAULT, between commands. -/
structure NoFault (s : State) : Prop where
  scope : s.scope = false
  cause : s.cause = .none
  fidx  : s.fidx = 0
  finfo : s.finfo = 0#16

theorem NoFault.controlOk {s : State} (h : NoFault s) (hp : s.phase ≠ .fault) : controlOk s := by
  simp [Machine.controlOk, h.scope, h.cause, h.fidx, h.finfo, hp]

theorem noFault_of_controlOk {s : State} (h : controlOk s) (hp : s.phase ≠ .fault) : NoFault s := by
  obtain ⟨hscope, hfault, hnone, -⟩ := h
  have hc : s.cause = .none := by
    by_contra hc
    exact hp (hfault.1 hc)
  obtain ⟨hidx, hinfo⟩ := hnone hc
  exact ⟨hscope, hc, hidx, hinfo⟩

/-- The decoder reads a command back from its own word. -/
theorem decodeWord_encode (i : Instr) : decodeWord (encode i) = some i := by
  cases i with
  | lds imm =>
    obtain ⟨-, -, -, -, -, h, -⟩ := Laws.EncodeFields.lds imm
    exact h
  | nop | clear | seqclr | count | build | derive | pack | encode => rfl

theorem controlOk_illegalCommand {s : State} (hs : s.scope = false) {w : Word} (hw : decodeWord w = none) :
    controlOk (raise .illegalCommand 0 w s) := by
  simp [controlOk, hs, hw]

theorem controlOk_illegalSequence {s : State} (hs : s.scope = false) {i : Instr} (hn : i ≠ .nop) (hc : i ≠ .clear) :
    controlOk (raise .illegalSequence 0 (encode i) s) := by
  simp [controlOk, hs, decodeWord_encode, hn, hc]

theorem controlOk_seqOverflow {s : State} (hs : s.scope = false) (imm : Byte) :
    controlOk (raise .seqOverflow s.cfg.nMax (encode (.lds imm)) s) := by
  obtain ⟨-, -, -, himm, -, hdec, -⟩ := Laws.EncodeFields.lds imm
  simp [controlOk, hs, hdec, himm, immOf]

theorem controlOk_sinkFailure {s : State} (hs : s.scope = false) {j : Nat} (hj : j ≤ s.nsym) :
    controlOk (raise .sinkFailure j 0#16 s) := by
  simp [controlOk, hs, hj]

theorem controlOk_symbolError {s : State} (hs : s.scope = false) {c : Cause}
    (hc : c = .symbolOutOfRange ∨ c = .symbolNotCoded) {j : Nat} (hj : j < s.nsym) :
    controlOk (raise c j (zext16 (seqAt s j)) s) := by
  obtain rfl | rfl := hc <;> simp [controlOk, hs, hj]

theorem controlOk_resetEngine (s : State) : controlOk (resetEngine s) :=
  NoFault.controlOk ⟨rfl, rfl, rfl, rfl⟩ nofun

theorem phaseAfterSeqclr_eq_fault (ph : Phase) : phaseAfterSeqclr ph = .fault ↔ ph = .fault := by
  cases ph <;> simp [phaseAfterSeqclr]

section
variable {s : State} (h : NoFault s)
include h

theorem controlOk_ldsBody (hp : s.phase ≠ .fault) (imm : Byte) : controlOk (ldsBody imm s) := by
  obtain ⟨-, he⟩ | ⟨-, he⟩ := ldsBody_cases imm s <;> rw [he]
  · exact controlOk_seqOverflow h.scope imm
  · exact NoFault.controlOk ⟨h.scope, h.cause, h.fidx, h.finfo⟩ hp

theorem controlOk_seqclrBody (hp : s.phase ≠ .fault) : controlOk (seqclrBody s) :=
  NoFault.controlOk ⟨h.scope, h.cause, h.fidx, h.finfo⟩ fun he => hp ((phaseAfterSeqclr_eq_fault _).1 he)

theorem controlOk_countBody : controlOk (countBody s) := by
  obtain ⟨f, he | ⟨j, hj, -, he⟩⟩ := countBody_cases s <;> rw [he]
  · exact NoFault.controlOk ⟨h.scope, h.cause, h.fidx, h.finfo⟩ nofun
  · exact controlOk_symbolError (s := { s with freq := f }) h.scope (.inl rfl) hj

theorem noFault_buildBody : NoFault (buildBody s) := by
  have f := buildBody_frame s
  exact ⟨f.scope.trans h.scope, f.cause.trans h.cause, f.fidx.trans h.fidx, f.finfo.trans h.finfo⟩

theorem noFault_deriveBody : NoFault (deriveBody s) := by
  have f := deriveBody_frame s
  exact ⟨f.scope.trans h.scope, f.cause.trans h.cause, f.fidx.trans h.fidx, f.finfo.trans h.finfo⟩

theorem controlOk_packBody : controlOk (packBody s) := by
  obtain ⟨es, t, r, hw, -, hcase⟩ := packBody_cases s
  have hn : t.nsym = s.nsym := hw.onlyPacked.nsym
  have hseq : ∀ j, seqAt t j = seqAt s j := hw.onlyPacked.same.1.2
  obtain ⟨err, hlt, hinfo, he⟩ | ⟨-, -, he⟩ | ⟨-, -, he⟩ := hcase <;> rw [he]
  · obtain ⟨hc, hi⟩ | ⟨hc, hi⟩ := hinfo
    · rw [hc, hi]
      exact controlOk_sinkFailure rfl (by rw [closeScope_nsym, sinkCall_nsym, hn]; exact hlt.le)
    · rw [hi, ← hseq]
      exact controlOk_symbolError (s := closeScope (sinkCall .flush t)) rfl hc
        (by rw [closeScope_nsym, sinkCall_nsym, hn]; exact hlt)
  · exact controlOk_sinkFailure rfl (by rw [closeScope_nsym, sinkCall_nsym, hn])
  · have hf : t = _ := hw.frame
    rw [hf]
    exact NoFault.controlOk ⟨rfl, h.cause, h.fidx, h.finfo⟩ nofun

theorem controlOk_encodeBody : controlOk (encodeBody s) := by
  have hcount := controlOk_countBody h
  obtain ⟨f, j, -, -, he, -⟩ | ⟨f, hf, he⟩ := encodeBody_cases s <;> rw [he]
  · exact hcount
  · have hp : (countBody s).phase ≠ .fault := by rw [hf]; exact nofun
    exact controlOk_packBody (noFault_deriveBody (noFault_buildBody (noFault_of_controlOk hcount hp)))

end

/-- Every command that executes keeps what CAUSE, FIDX, FINFO and SCOPE say. -/
theorem controlOk_bodyOf {i : Instr} {s : State} (hl : legality i s.phase = .ok) (h : controlOk s) :
    controlOk (bodyOf i s) := by
  by_cases hn : i = .nop
  · rw [hn]
    exact h
  by_cases hc : i = .clear
  · rw [hc]
    exact controlOk_resetEngine s
  have hp : s.phase ≠ .fault := phase_ne_fault_of_ok hl hn hc
  have h₀ := noFault_of_controlOk h hp
  cases i with
  | nop => exact absurd rfl hn
  | clear => exact absurd rfl hc
  | lds imm => exact controlOk_ldsBody h₀ hp imm
  | seqclr => exact controlOk_seqclrBody h₀ hp
  | count => exact controlOk_countBody h₀
  | build => exact NoFault.controlOk (noFault_buildBody h₀) nofun
  | derive => exact NoFault.controlOk (noFault_deriveBody h₀) nofun
  | pack => exact controlOk_packBody h₀
  | encode => exact controlOk_encodeBody h₀

/-! ## Tables and their entries -/

/-- What holds of every index that does not read as the default holds of every listed entry. -/
theorem forall_mem_of_tabGet {α : Type} {d : α} {t : Tab α} (hwf : tabWf d t) {P : Nat → α → Prop}
    (h : ∀ a, tabGet d t a ≠ d → P a (tabGet d t a)) : ∀ e ∈ t, P e.1 e.2 := by
  intro e he
  have hget := tabGet_of_mem d t hwf.1 e he
  have hP := h e.1 (hget ▸ hwf.2 e he)
  rwa [hget] at hP

/-- An index at or above every listed one reads as the default. -/
theorem tabGet_of_le {α : Type} {d : α} {t : Tab α} {n a : Nat} (h : ∀ e ∈ t, e.1 < n) (ha : n ≤ a) :
    tabGet d t a = d :=
  tabGet_of_not_mem d t a fun e he => Nat.ne_of_lt (Nat.lt_of_lt_of_le (h e he) ha)

/-! ## What `phaseOk` says in each phase -/

section
variable {s : State}

theorem phaseOk_of_fault (hp : s.phase = .fault) : phaseOk s := by
  simp [phaseOk, hp]

theorem phaseOk_iff_load (hp : s.phase = .load) : phaseOk s ↔
    s.freq = [] ∧ nothingBuilt s ∧ s.code = [] ∧ s.bitcnt = 0 ∧ s.empty = false ∧ s.indep = false := by
  simp [phaseOk, hp]

theorem phaseOk_iff_counted (hp : s.phase = .counted) : phaseOk s ↔
    (countsOk s ∧ nothingBuilt s ∧ s.code = [] ∧ s.bitcnt = 0 ∧ s.indep = false) ∧
      s.empty = decide (freqSum s = 0) := by
  simp [phaseOk, hp]

theorem phaseOk_iff_built (hp : s.phase = .built) : phaseOk s ↔
    (countsOk s ∧ treeOk s ∧ nothingDerived s ∧ s.bitcnt = 0 ∧ s.indep = false) ∧
      s.empty = decide (freqSum s = 0) := by
  simp [phaseOk, hp]

theorem phaseOk_iff_derived (hp : s.phase = .derived) : phaseOk s ↔
    ((s.indep = false → countsOk s) ∧ treeOk s ∧ pathsOk s ∧ codesOk s) ∧ s.empty = decide (freqSum s = 0) := by
  simp [phaseOk, hp]

theorem phaseOk_iff_done (hp : s.phase = .done) : phaseOk s ↔
    ((s.indep = false → countsOk s) ∧ treeOk s ∧ pathsOk s ∧ codesOk s) ∧
      ((∀ b ∈ seqList s, codable s b = true) ∧ s.bitcnt = (bitsUpTo s s.nsym).length) ∧
      s.empty = decide (freqSum s = 0) := by
  simp [phaseOk, hp]

end

/-! ## Reset, LDS and SEQCLR keep the invariant -/

/-- A number up to `N_MAX` fits the width of a count. -/
theorem lt_two_pow_wFreq {p : Params} {n : Nat} (h : n ≤ p.nMax) : n < 2 ^ p.wFreq := by
  have hpos : 0 < 2 ^ p.wLen := Nat.two_pow_pos _
  unfold Params.nMax at h
  unfold Params.wFreq
  omega

theorem freqSum_of_nil {s : State} (h : s.freq = []) : freqSum s = 0 := by
  have hz : freqAt s = fun _ => 0 := funext fun v => by rw [freqAt, h]; rfl
  simp [freqSum, hz]

theorem invariant_resetEngine {s : State} (h : Invariant s) : Invariant (resetEngine s) := by
  obtain ⟨hcfg, hforms, -, ⟨-, -, -, -, -, -, -, hseq, -⟩, -, -⟩ := h
  have hbits : 0 < 2 ^ s.cfg.wBits := Nat.two_pow_pos _
  refine ⟨hcfg, formsOk_resetEngine hforms, controlOk_resetEngine s, ?_, ?_, ?_⟩
  · exact ⟨Nat.zero_le _, Nat.zero_le _, Nat.zero_le _, Nat.zero_le _, Nat.le_refl _, Nat.zero_le _, hbits, hseq,
      nofun, nofun, nofun, nofun⟩
  · rw [freqSum_of_nil (resetEngine_freq s)]
    exact Nat.zero_le _
  · exact (phaseOk_iff_load rfl).2 ⟨rfl, ⟨rfl, rfl, rfl, rfl, rfl⟩, rfl, rfl, rfl, rfl⟩

/-- A fault entered with a legal FIDX keeps the invariant when it keeps what the fault registers say. -/
theorem invariant_raise {s : State} (h : Invariant s) {c : Cause} {idx : Nat} {info : Word}
    (hc : controlOk (raise c idx info s)) (hidx : idx ≤ s.cfg.nMax) : Invariant (raise c idx info s) := by
  obtain ⟨hcfg, hforms, -, ⟨hnsym, -, hwidths⟩, hsum, -⟩ := h
  exact ⟨hcfg, hforms, hc, ⟨hnsym, hidx, hwidths⟩, hsum, phaseOk_of_fault rfl⟩

/-- A symbol appended below the capacity. -/
theorem widthsOk_appendSymbol {s : State} (h : widthsOk s) (hn : s.nsym ≠ s.cfg.nMax) (imm : Byte) :
    widthsOk (appendSymbol imm s) := by
  obtain ⟨hnsym, hfidx, hnleaf, hnnode, hroot, hpqcnt, hbits, hseq, hrest⟩ := h
  have hlt : s.nsym < s.cfg.nMax := Nat.lt_of_le_of_ne hnsym hn
  have hadd : addW s.cfg.wLen s.nsym 1 = s.nsym + 1 := Nat.mod_eq_of_lt (lt_two_pow_wFreq hlt)
  refine ⟨?_, hfidx, hnleaf, hnnode, hroot, hpqcnt, hbits, fun e he => ?_, hrest⟩
  · rw [appendSymbol_nsym, hadd]
    exact hlt
  · obtain ⟨rfl, -⟩ | ⟨he, -⟩ := (mem_tabSet _ _ _ _ _).1 he
    · exact hlt
    · exact hseq e he

/-- LDS executes in LOAD, where no table depends on SEQ, and in DERIVED, where it sets INDEP. -/
theorem phaseOk_appendSymbol {s : State} (h : phaseOk s) (hp : s.phase = .load ∨ s.phase = .derived) (imm : Byte) :
    phaseOk (appendSymbol imm s) := by
  obtain hp | hp := hp
  · obtain ⟨hfreq, hbuilt, hcode, hbits, hempty, hindep⟩ := (phaseOk_iff_load hp).1 h
    refine (phaseOk_iff_load (s := appendSymbol imm s) hp).2 ⟨hfreq, hbuilt, hcode, hbits, hempty, ?_⟩
    rw [appendSymbol_indep, hp]
    exact hindep
  · obtain ⟨⟨-, htables⟩, hempty⟩ := (phaseOk_iff_derived hp).1 h
    refine (phaseOk_iff_derived (s := appendSymbol imm s) hp).2 ⟨⟨fun hi => ?_, htables⟩, hempty⟩
    rw [appendSymbol_indep, hp] at hi
    exact absurd hi nofun

theorem invariant_ldsBody {s : State} (h : Invariant s) (hp : s.phase = .load ∨ s.phase = .derived) (imm : Byte) :
    Invariant (ldsBody imm s) := by
  have hp' : s.phase ≠ .fault := by obtain hp | hp := hp <;> rw [hp] <;> exact nofun
  have hcontrol := controlOk_ldsBody (noFault_of_controlOk h.control hp') hp' imm
  have hforms := formsOk_ldsBody h.forms imm
  obtain ⟨-, he⟩ | ⟨hn, he⟩ := ldsBody_cases imm s <;> rw [he] at hforms hcontrol ⊢
  · exact invariant_raise h hcontrol (Nat.le_refl _)
  · obtain ⟨hcfg, -, -, hwidths, hsum, hphase⟩ := h
    exact ⟨hcfg, hforms, hcontrol, widthsOk_appendSymbol hwidths hn imm, hsum, phaseOk_appendSymbol hphase hp imm⟩

/-- SEQCLR executes in LOAD, where no table depends on SEQ, and in DERIVED and DONE, where it sets INDEP. -/
theorem phaseOk_seqclrBody {s : State} (h : phaseOk s)
    (hp : s.phase = .load ∨ s.phase = .derived ∨ s.phase = .done) : phaseOk (seqclrBody s) := by
  obtain hp | hp := hp
  · have hp' : (seqclrBody s).phase = .load := by rw [seqclrBody_phase, hp]; rfl
    obtain ⟨hfreq, hbuilt, hcode, hbits, hempty, hindep⟩ := (phaseOk_iff_load hp).1 h
    refine (phaseOk_iff_load hp').2 ⟨hfreq, hbuilt, hcode, hbits, hempty, ?_⟩
    rw [seqclrBody_indep, hp]
    exact hindep
  · have hp' : (seqclrBody s).phase = .derived ∧ (seqclrBody s).indep = true := by
      rw [seqclrBody_phase, seqclrBody_indep]
      obtain hp | hp := hp <;> rw [hp] <;> exact ⟨rfl, rfl⟩
    obtain ⟨hp', hindep⟩ := hp'
    have htables : (treeOk s ∧ pathsOk s ∧ codesOk s) ∧ s.empty = decide (freqSum s = 0) := by
      obtain hp | hp := hp
      · obtain ⟨⟨-, htables⟩, hempty⟩ := (phaseOk_iff_derived hp).1 h
        exact ⟨htables, hempty⟩
      · obtain ⟨⟨-, htables⟩, -, hempty⟩ := (phaseOk_iff_done hp).1 h
        exact ⟨htables, hempty⟩
    obtain ⟨htables, hempty⟩ := htables
    refine (phaseOk_iff_derived hp').2 ⟨⟨fun hi => ?_, htables⟩, hempty⟩
    rw [hindep] at hi
    cases hi

theorem invariant_seqclrBody {s : State} (h : Invariant s)
    (hp : s.phase = .load ∨ s.phase = .derived ∨ s.phase = .done) : Invariant (seqclrBody s) := by
  have hp' : s.phase ≠ .fault := by obtain hp | hp | hp := hp <;> rw [hp] <;> exact nofun
  obtain ⟨hcfg, hforms, hcontrol, ⟨-, hwidths⟩, hsum, hphase⟩ := h
  exact ⟨hcfg, hforms, controlOk_seqclrBody (noFault_of_controlOk hcontrol hp') hp',
    ⟨Nat.zero_le _, hwidths⟩, hsum, phaseOk_seqclrBody hphase hp⟩

/-! ## COUNT keeps the invariant (41_count.md R100 to R105) -/

/-- `f` holds the counts of the first `m` symbols of SEQ, all inside the alphabet. -/
structure CountsOf (s : State) (f : Tab Nat) (m : Nat) : Prop where
  inside : ∀ j < m, (seqAt s j).toNat < s.cfg.alphabet
  counts : ∀ v, tabGet 0 f v = countFrom s 0 m v

theorem occurrences_eq_countFrom (s : State) (v : Nat) : occurrences s v = countFrom s 0 s.nsym v := by
  rw [countFrom_zero_eq, occurrences, seqList, List.countP_map]
  rfl

/-- A symbol that is counted stands somewhere. -/
theorem exists_of_countFrom_ne_zero {s : State} {m v : Nat} (h : countFrom s 0 m v ≠ 0) :
    ∃ j < m, (seqAt s j).toNat = v := by
  rw [countFrom_zero_eq] at h
  obtain ⟨j, hj, hv⟩ := List.countP_pos_iff.1 (Nat.pos_of_ne_zero h)
  exact ⟨j, List.mem_range.1 hj, by simpa using hv⟩

/-- The counts of `m` symbols add up to `m`. -/
theorem CountsOf.freqSum {s : State} {f : Tab Nat} {m : Nat} (h : CountsOf s f m) :
    Machine.freqSum { s with freq := f } = m := by
  calc Machine.freqSum { s with freq := f }
      = ((List.range s.cfg.alphabet).map fun v =>
          (List.range m).countP fun j => (seqAt s j).toNat == v).sum := by
        refine congrArg List.sum (List.map_congr_left fun v _ => ?_)
        exact (h.counts v).trans (countFrom_zero_eq s m v)
    _ = m := sum_countP_range _ _ _ h.inside

/-- The table lists symbols of the alphabet with counts up to `m` only. -/
theorem CountsOf.entries {s : State} {f : Tab Nat} {m : Nat} (h : CountsOf s f m) (hwf : tabWf 0 f) :
    ∀ e ∈ f, e.1 < s.cfg.alphabet ∧ e.2 ≤ m := by
  refine forall_mem_of_tabGet hwf (P := fun v n => v < s.cfg.alphabet ∧ n ≤ m) fun v hv => ?_
  rw [h.counts] at hv ⊢
  obtain ⟨j, hj, rfl⟩ := exists_of_countFrom_ne_zero hv
  exact ⟨h.inside j hj, countFrom_le s 0 m _⟩

/-- What COUNT does on a sequence that fits: it counts every symbol, or faults at the first one outside the alphabet with
the ones before it counted. -/
theorem countBody_counts {s : State} (hn : s.nsym ≤ s.cfg.nMax) :
    ∃ f m, CountsOf s f m ∧
      ((m = s.nsym ∧ countBody s = countDone { s with freq := f }) ∨
        (m < s.nsym ∧ countBody s = raise .symbolOutOfRange m (zext16 (seqAt s m)) { s with freq := f })) := by
  have hW : ∀ {m}, m ≤ s.nsym → ∀ v, freqAt (clearFreq s) v + m < 2 ^ s.cfg.wFreq := fun hm v => by
    rw [freqAt_clearFreq, Nat.zero_add]
    exact lt_two_pow_wFreq (hm.trans hn)
  have hz : ∀ m v, freqAt (clearFreq s) v + countFrom (clearFreq s) 0 m v = countFrom s 0 m v := fun m v => by
    rw [freqAt_clearFreq, Nat.zero_add]
    rfl
  by_cases hbad : ∃ j, j < s.nsym ∧ s.cfg.alphabet ≤ (seqAt s j).toNat
  · obtain ⟨hlt, hm⟩ := Nat.find_spec hbad
    have hmin : ∀ j < Nat.find hbad, (seqAt s j).toNat < s.cfg.alphabet := fun j hj => by
      have := Nat.find_min hbad hj
      omega
    generalize Nat.find hbad = m at *
    obtain ⟨f, he, hf⟩ := countLoop_stops s.nsym m 0 (clearFreq s) hlt (fun j _ hj => hmin j (by omega))
      (by rw [Nat.zero_add]; exact hm) (hW hlt.le)
    rw [Nat.zero_add] at he
    exact ⟨f, m, ⟨hmin, fun v => (hf v).trans (hz m v)⟩, .inr ⟨hlt, he⟩⟩
  · have hall : ∀ j < s.nsym, (seqAt s j).toNat < s.cfg.alphabet := fun j hj =>
      Nat.lt_of_not_le fun hA => hbad ⟨j, hj, hA⟩
    obtain ⟨hphase, hf⟩ := countLoop_counts s.nsym 0 (clearFreq s) (fun j _ hj => hall j (by omega))
      (hW (Nat.le_refl _))
    obtain ⟨f, he | ⟨j, hj, hA, -⟩⟩ := countBody_cases s
    · refine ⟨f, s.nsym, ⟨hall, fun v => ?_⟩, .inl ⟨rfl, he⟩⟩
      have hv : freqAt (countBody s) v = _ := hf v
      rw [he] at hv
      exact hv.trans (hz _ v)
    · exact absurd (hall j hj) (Nat.not_lt.2 hA)

/-- COUNT executes in LOAD. -/
theorem invariant_countBody {s : State} (h : Invariant s) (hp : s.phase = .load) : Invariant (countBody s) := by
  have hcontrol := controlOk_countBody (noFault_of_controlOk h.control (by rw [hp]; exact nofun))
  have hforms := formsOk_countBody h.forms
  obtain ⟨hcfg, -, -, hwidths, -, hphase⟩ := h
  obtain ⟨-, hbuilt, hcode, hbits, -, hindep⟩ := (phaseOk_iff_load hp).1 hphase
  obtain ⟨hnsym, hfidx, hnleaf, hnnode, hroot, hpqcnt, hbitcnt, hseq, -, hrest⟩ := hwidths
  obtain ⟨f, m, hcounts, ⟨rfl, he⟩ | ⟨hm, he⟩⟩ := countBody_counts hnsym <;> rw [he] at hcontrol hforms ⊢
  · have hsum : freqSum (countDone { s with freq := f }) = s.nsym := hcounts.freqSum
    have hfreq := hcounts.entries hforms.freq
    refine ⟨hcfg, hforms, hcontrol, ⟨hnsym, hfidx, hnleaf, hnnode, hroot, hpqcnt, hbitcnt, hseq, ?_, hrest⟩,
      hsum.trans_le hnsym, ?_⟩
    · exact fun e he => ⟨(hfreq e he).1, (hfreq e he).2.trans hnsym⟩
    · refine (phaseOk_iff_counted rfl).2 ⟨⟨⟨hcounts.inside, fun v _ => ?_⟩, hbuilt, hcode, hbits, hindep⟩, ?_⟩
      · exact (hcounts.counts v).trans (occurrences_eq_countFrom s v).symm
      · rw [hsum]
        rfl
  · have hsum : freqSum (raise .symbolOutOfRange m (zext16 (seqAt s m)) { s with freq := f }) = m := hcounts.freqSum
    have hmn : m ≤ s.cfg.nMax := hm.le.trans hnsym
    have hfreq := hcounts.entries hforms.freq
    refine ⟨hcfg, hforms, hcontrol, ⟨hnsym, hmn, hnleaf, hnnode, hroot, hpqcnt, hbitcnt, hseq, ?_, hrest⟩,
      hsum.trans_le hmn, phaseOk_of_fault rfl⟩
    exact fun e he => ⟨(hfreq e he).1, (hfreq e he).2.trans hmn⟩

/-! ## What looks at some fields only -/

theorem countsOk_congr {s t : State} (hcfg : t.cfg = s.cfg) (hnsym : t.nsym = s.nsym) (hseq : t.seq = s.seq)
    (hfreq : t.freq = s.freq) (h : countsOk s) : countsOk t := by
  have hs : ∀ i, seqAt t i = seqAt s i := fun i => by rw [seqAt, seqAt, hseq]
  obtain ⟨hin, hcnt⟩ := h
  refine ⟨fun i hi => ?_, fun v hv => ?_⟩
  · rw [hs, hcfg]
    exact hin i (hnsym ▸ hi)
  · rw [occurrences_eq_countFrom, countFrom_congr hs, hnsym, ← occurrences_eq_countFrom, freqAt, hfreq]
    exact hcnt v (hcfg ▸ hv)

theorem freqAt_congr {s t : State} (h : t.freq = s.freq) (v : Nat) : freqAt t v = freqAt s v := by
  rw [freqAt, freqAt, h]

theorem freqSum_congr {s t : State} (hcfg : t.cfg = s.cfg) (hfreq : t.freq = s.freq) : freqSum t = freqSum s := by
  rw [freqSum, freqSum, hcfg, funext (freqAt_congr hfreq)]

/-- A node record fits the widths of its fields (R37). -/
abbrev nodeFits (p : Params) (r : NodeRec) : Prop :=
  r.freq ≤ p.nMax ∧ r.left ≤ p.noNode ∧ r.right ≤ p.noNode ∧ r.plen ≤ p.maxLen ∧ r.pbits < 2 ^ p.maxLen

/-- NODE lists slots below NNODE only when the others are unused, and of those it lists what every slot has. -/
theorem node_entries {s : State} (hforms : formsOk s) (hunused : ∀ k, s.nnode ≤ k → nodeAt s k = unusedSlot s.cfg)
    {P : NodeRec → Prop} (hP : ∀ k < s.nnode, P (nodeAt s k)) : ∀ e ∈ s.node, e.1 < s.nnode ∧ P e.2 := by
  refine forall_mem_of_tabGet hforms.node (P := fun k r => k < s.nnode ∧ P r) fun k hk => ?_
  have hlt : k < s.nnode := Nat.lt_of_not_le fun hle => hk (hunused k hle)
  exact ⟨hlt, hP k hlt⟩

/-! ## BUILD makes a tree (42_build.md R114 to R120) -/

/-- No node weighs more than the root. -/
theorem freq_le_root {s : State} (h : treeOk s) {k : Nat} (hk : k < s.nnode) :
    (nodeAt s k).freq ≤ (nodeAt s s.root).freq := by
  have hb := below_root h hk
  clear hk
  induction hb with
  | self => exact Nat.le_refl _
  | child _ hc ih =>
    obtain ⟨⟨hi, hl⟩, hj⟩ := (isChild_iff h).1 hc
    obtain ⟨-, -, -, -, -, -, hinternal, -⟩ := h
    obtain ⟨-, -, -, -, -, -, hsum, -⟩ := hinternal _ hi hl
    obtain rfl | rfl := hj <;> omega

/-- The lone member of PQ that the merge loop leaves is the last node made. -/
theorem Built.pq_eq {s t : State} (b : Built s t) (hL : 0 < (syms s).length) :
    t.nnode + 1 = 2 * (syms s).length ∧ t.pq = [t.nnode - 1] := by
  have hone := b.some hL
  have hnodes := b.inv.nodes
  have hcnt := b.inv.cnt
  obtain ⟨r, hr⟩ := List.length_eq_one_iff.1 (hcnt.symm.trans hone)
  refine ⟨by omega, ?_⟩
  have hmem : t.nnode - 1 ∈ t.pq := by
    by_cases hlast : (syms s).length < t.nnode
    · exact b.inv.last hlast
    · rw [b.inv.first (by omega), List.mem_range'_1]
      omega
  rw [hr] at hmem ⊢
  rw [List.mem_singleton.1 hmem]

/-- Without a counted symbol there is no node. -/
theorem Built.empty {s t : State} (b : Built s t) (hL : (syms s).length = 0) :
    t.nnode = 0 ∧ t.pqcnt = 0 ∧ t.pq = [] := by
  have hnodes := b.inv.nodes
  have hcnt := b.inv.cnt
  have hpq : t.pqcnt = 0 := by omega
  exact ⟨by omega, hpq, List.length_eq_zero_iff.1 (hcnt.symm.trans hpq)⟩

/-- ROOT, as BUILD takes it from PQ. -/
theorem Built.root_eq {s t : State} (b : Built s t) :
    (buildResult t).root = if (syms s).length = 0 then t.cfg.noNode else t.nnode - 1 := by
  rw [buildResult_root]
  obtain hL | hL := Nat.eq_zero_or_pos (syms s).length
  · rw [if_pos hL, (b.empty hL).2.1]
    rfl
  · rw [if_pos (b.some hL), (b.pq_eq hL).2, if_neg (by omega)]
    rfl

theorem mem_syms_getElem {s : State} {k : Nat} (hk : k < (syms s).length) :
    (syms s)[k] < s.cfg.alphabet ∧ 0 < freqAt s (syms s)[k] :=
  (mem_syms s _).1 (List.getElem_mem hk)

/-- A leaf stands for the symbol it was seeded with. -/
theorem leafRec_sym_toNat {p : Params} (hw : p.wf) {v : Nat} (hv : v < p.alphabet) (n : Nat) :
    (leafRec p v n).sym.toNat = v := by
  obtain ⟨-, hA, -⟩ := hw
  exact (BitVec.toNat_ofNat v 8).trans (Nat.mod_eq_of_lt (by omega))

theorem treeOk_buildResult {s t : State} (b : Built s t) (hw : s.cfg.wf) (hcfg : t.cfg = s.cfg)
    (hfreq : t.freq = s.freq) : treeOk (buildResult t) := by
  have hsym : ∀ k (hk : k < (syms s).length), (nodeAt t k).sym.toNat = (syms s)[k] := fun k hk => by
    rw [b.leaf k hk]
    exact leafRec_sym_toNat hw (mem_syms_getElem hk).1 _
  have hf := freqAt_congr hfreq
  have hnleaf := b.nleaf
  have hroot := b.root_eq
  refine ⟨?_, ?_, ?_, fun k hk => ?_, fun k hk j hj => ?_, fun v hv hpos => ?_, fun k hk hl => ?_, fun j hj => ?_⟩
  · show t.nnode = 2 * t.nleaf - 1
    obtain hL | hL := Nat.eq_zero_or_pos (syms s).length
    · have := (b.empty hL).1
      omega
    · have := (b.pq_eq hL).1
      omega
  · rw [hroot, buildResult_nleaf, hnleaf]
    rfl
  · rw [hroot, buildResult_nleaf, hnleaf]
    show t.pq = _
    split
    · rename_i hL
      exact (b.empty hL).2.2
    · rename_i hL
      exact (b.pq_eq (Nat.pos_of_ne_zero hL)).2
  · have hk : k < (syms s).length := hnleaf ▸ hk
    obtain ⟨hv, hpos⟩ := mem_syms_getElem hk
    have hleaf : nodeAt (buildResult t) k = _ := b.leaf k hk
    rw [leafOk, hleaf, leafRec_sym_toNat hw hv, freqAt_buildResult, hf]
    exact ⟨rfl, rfl, congrArg Params.noNode hcfg.symm, congrArg Params.noNode hcfg.symm, hcfg ▸ hv, rfl, hpos⟩
  · have hk : k < (syms s).length := hnleaf ▸ hk
    show (nodeAt t j).sym.toNat < (nodeAt t k).sym.toNat
    rw [hsym k hk, hsym j (by omega)]
    exact List.pairwise_iff_getElem.1 (syms_sorted s) j k _ hk hj
  · rw [freqAt_buildResult, hf] at hpos
    obtain ⟨k, hk, hkv⟩ := List.mem_iff_getElem.1 ((mem_syms s v).2 ⟨hcfg ▸ hv, hpos⟩)
    exact ⟨k, by rw [buildResult_nleaf, hnleaf]; exact hk, (hsym k hk).trans hkv⟩
  · exact (b.inv.internal k hk (hnleaf ▸ hl)).1
  · have hL : 0 < (syms s).length := by
      by_contra hL
      have := (b.empty (by omega)).1
      rw [buildResult_nnode] at hj
      omega
    have hp := b.inv.parent j hj
    rw [(b.pq_eq hL).2] at hp
    rw [hroot.trans (if_neg (by omega))]
    show parentCount t j = _
    simpa only [List.mem_singleton] using hp

/-- The nodes BUILD makes have no path yet. -/
theorem nothingDerived_buildResult {s t : State} (b : Built s t) (hcode : t.code = []) :
    nothingDerived (buildResult t) := by
  refine ⟨fun k hk => ?_, hcode⟩
  show (nodeAt t k).pvalid = false ∧ (nodeAt t k).plen = 0 ∧ (nodeAt t k).pbits = 0
  by_cases hl : k < (syms s).length
  · rw [b.leaf k hl]
    exact ⟨rfl, rfl, rfl⟩
  · exact (b.inv.internal k hk (by omega)).2

/-- The root weighs what all symbols weigh, so no node weighs more. -/
theorem freq_le_freqSum {s t : State} (b : Built s t) (htree : treeOk (buildResult t)) {k : Nat} (hk : k < t.nnode) :
    (nodeAt t k).freq ≤ freqSum s := by
  have hL : 0 < (syms s).length := by
    by_contra hL
    have := (b.empty (by omega)).1
    omega
  have hle := freq_le_root htree hk
  have htotal := b.inv.total
  rw [(b.pq_eq hL).2] at htotal
  rw [b.root_eq, if_neg (by omega)] at hle
  simpa using hle.trans_eq htotal

/-- The children of a node in use fit the width of a node index: they are nodes in use, or NONE. -/
theorem children_le_noNode {s : State} (h : treeOk s) (hnone : s.nnode ≤ s.cfg.noNode) {k : Nat} (hk : k < s.nnode) :
    (nodeAt s k).left ≤ s.cfg.noNode ∧ (nodeAt s k).right ≤ s.cfg.noNode := by
  obtain ⟨-, -, -, hleaf, -, -, hinternal, -⟩ := h
  by_cases hl : k < s.nleaf
  · obtain ⟨-, -, hleft, hright, -⟩ := hleaf k hl
    exact ⟨hleft.le, hright.le⟩
  · obtain ⟨-, -, -, hleft, hright, -⟩ := hinternal k hk (by omega)
    omega

/-- A tree over at most `A` leaves fits NODE. -/
theorem tree_fits {s : State} (h : treeOk s) (hw : s.cfg.wf) (hA : s.nleaf ≤ s.cfg.alphabet) :
    s.nnode ≤ s.cfg.nodeMax ∧ s.root ≤ s.cfg.noNode ∧ s.pq.length ≤ 1 ∧ ∀ k ∈ s.pq, k < s.nnode := by
  have hnone := noNode_ge s.cfg hw
  obtain hL | hL := Nat.eq_zero_or_pos s.nleaf
  · obtain ⟨hnnode, hroot, hpq, -⟩ := h
    rw [if_pos hL] at hroot hpq
    refine ⟨by omega, hroot.le, ?_, ?_⟩ <;> rw [hpq]
    · exact Nat.zero_le _
    · exact nofun
  · have hlt := root_lt h hL
    obtain ⟨hnnode, -, hpq, -⟩ := h
    rw [if_neg (by omega)] at hpq
    refine ⟨by unfold Params.nodeMax; omega, by omega, ?_, ?_⟩ <;> rw [hpq]
    · exact Nat.le_refl _
    · rintro k hk
      rwa [List.mem_singleton.1 hk]

/-- The slots that BUILD does not make stay unused. -/
theorem nodeAt_buildBody_unused {s : State} (b : Built s (mergeLoop s.cfg.alphabet (countLeaves (seedLoop s))))
    (hnode : s.node = []) {k : Nat} (hk : (buildBody s).nnode ≤ k) : nodeAt (buildBody s) k = unusedSlot s.cfg := by
  have h : nodeAt (buildBody s) k = nodeAt s k := b.other k hk
  rw [h, nodeAt, hnode]
  rfl

/-- BUILD executes in COUNTED. -/
theorem invariant_buildBody {s : State} (h : Invariant s) (hp : s.phase = .counted) : Invariant (buildBody s) := by
  have hforms := formsOk_buildBody h.forms
  have hcontrol := (noFault_buildBody (noFault_of_controlOk h.control (by rw [hp]; exact nofun))).controlOk nofun
  obtain ⟨hcfg, -, -, hwidths, hsum, hphase⟩ := h
  obtain ⟨⟨hcounts, ⟨hnode, -⟩, hcode, hbits, hindep⟩, hempty⟩ := (phaseOk_iff_counted hp).1 hphase
  obtain ⟨hnsym, hfidx, -, -, -, -, hbitcnt, hseq, hfreq, -, -, -⟩ := hwidths
  have f := buildBody_frame s
  have b := built s (lt_two_pow_wFreq hsum)
  have htree : treeOk (buildBody s) := treeOk_buildResult b hcfg f.cfg f.freq
  have hderived : nothingDerived (buildBody s) := nothingDerived_buildResult b (f.code.trans hcode)
  have hnleaf : (buildBody s).nleaf ≤ (buildBody s).cfg.alphabet := by
    rw [f.cfg]
    exact b.nleaf.trans_le (syms_length_le s)
  have hcfg' : (buildBody s).cfg.wf := f.cfg ▸ hcfg
  have hsum' : freqSum (buildBody s) = freqSum s := freqSum_congr f.cfg f.freq
  obtain ⟨hnnode, hroot, hpq, hpqlt⟩ := tree_fits htree hcfg' hnleaf
  refine ⟨hcfg', hforms, hcontrol, ?_, ?_, (phaseOk_iff_built rfl).2 ⟨⟨?_, htree, hderived, ?_, ?_⟩, ?_⟩⟩
  · refine ⟨?_, ?_, hnleaf, hnnode, hroot, ?_, ?_, ?_, ?_, ?_, hpqlt, ?_⟩
    · rwa [f.nsym, f.cfg]
    · rwa [f.fidx, f.cfg]
    · have := hforms.pqcnt
      have := hcfg'.1
      omega
    · rwa [f.bitcnt, f.cfg]
    · rwa [f.seq, f.cfg]
    · rwa [f.freq, f.cfg]
    · refine node_entries hforms (fun k hk => ?_) (P := nodeFits (buildBody s).cfg) fun k hk => ?_
      · rw [f.cfg]
        exact nodeAt_buildBody_unused b hnode hk
      · obtain ⟨-, hplen, hpbits⟩ := hderived.1 k hk
        have hmax := noNode_ge (buildBody s).cfg hcfg'
        obtain ⟨hl, hr⟩ := children_le_noNode htree (hnnode.trans hmax) hk
        refine ⟨?_, hl, hr, ?_, ?_⟩
        · rw [f.cfg]
          exact (freq_le_freqSum b htree hk).trans hsum
        · rw [hplen]
          exact Nat.zero_le _
        · rw [hpbits]
          exact Nat.two_pow_pos _
    · rw [f.code, hcode]
      exact nofun
  · rw [hsum', f.cfg]
    exact hsum
  · exact countsOk_congr f.cfg f.nsym f.seq f.freq hcounts
  · exact f.bitcnt.trans hbits
  · exact f.indep.trans hindep
  · rw [f.empty, hsum', hempty]

/-! ## DERIVE gives every node its path and every symbol its code (43_derive.md R131 to R137) -/

theorem parentCount_congr {s t : State} (f : OnlyPaths s t) (j : Nat) : parentCount t j = parentCount s j := by
  unfold parentCount
  rw [f.nnode]
  refine List.countP_congr fun k _ => ?_
  obtain ⟨-, hkind, -, -, hleft, hright⟩ := f.tree k
  rw [hkind, hleft, hright]

/-- DERIVE leaves the tree as it is. -/
theorem treeOk_of_onlyPaths {s t : State} (f : OnlyPaths s t) (h : treeOk s) : treeOk t := by
  have htree := f.tree
  simp only [sameTreeFields, forall_and] at htree
  obtain ⟨hvalid, hkind, hsym, hfreq, hleft, hright⟩ := htree
  simpa only [treeOk, leafOk, internalOk, hvalid, hkind, hsym, hfreq, hleft, hright, f.nnode, f.nleaf, f.root, f.pq,
    f.cfg, freqAt_congr f.freq, parentCount_congr f] using h

/-- A path is no longer than `L - 1` (R176): indices fall from a parent to its child, and the parents are the slots from
`L` to the root's, `2 L - 2`. -/
theorem plen_lt_nleaf {s : State} (h : treeOk s) (hroot : 0 < s.nleaf → (nodeAt s s.root).plen = 0)
    (hchild : ∀ k j, IsChild s k j → (nodeAt s j).plen = (nodeAt s k).plen + 1) {k : Nat} (hk : k < s.nnode) :
    (nodeAt s k).plen + 1 ≤ s.nleaf := by
  have hL : 0 < s.nleaf := by have := h.1; omega
  have hsum : ∀ j, Below s s.root j → (nodeAt s j).plen + j ≤ s.root := by
    intro j hj
    induction hj with
    | self => rw [hroot hL, Nat.zero_add]
    | child _ hc ih =>
      have hlt := child_lt h hc
      rw [hchild _ _ hc]
      omega
  by_cases hr : k = s.root
  · rw [hr, hroot hL]
    exact hL
  · obtain ⟨i, hc⟩ := parent_exists h hk hr
    obtain ⟨⟨hi, hl⟩, -⟩ := (isChild_iff h).1 hc
    have hle := hsum i (below_root h hi)
    have hlast := le_root h hi
    have hrlt := root_lt h hL
    have hnnode := h.1
    rw [hchild _ _ hc]
    omega

section
variable {s t : State} (h : treeOk s) (f : OnlyPaths s t) (d : Derived s t)
include h f d

/-- What DERIVE leaves at the two children of an internal node. -/
theorem Derived.children {k : Nat} (hk : k < s.nnode) (hl : s.nleaf ≤ k) : ∃ q, HasPath t k q ∧
    HasPath t (nodeAt t k).left (q ++ [false]) ∧ HasPath t (nodeAt t k).right (q ++ [true]) := by
  obtain ⟨q, hq, hchildren, -⟩ := d.paths k hk
  obtain ⟨-, -, -, -, hleft, hright⟩ := f.tree k
  rw [hleft, hright]
  exact ⟨q, hq, hchildren (tree_kind_internal h hk hl)⟩

theorem pathsOk_of_derived : pathsOk t := by
  have ht := treeOk_of_onlyPaths f h
  have hroot : 0 < t.nleaf → (nodeAt t t.root).plen = 0 := fun hL => by
    rw [f.root]
    exact (d.root (f.nleaf ▸ hL)).plen
  have hchild : ∀ k j, IsChild t k j → (nodeAt t j).plen = (nodeAt t k).plen + 1 := fun k j hc => by
    obtain ⟨⟨hk, hl⟩, hj⟩ := (isChild_iff ht).1 hc
    obtain ⟨q, hq, hqleft, hqright⟩ := d.children h f (f.nnode ▸ hk) (f.nleaf ▸ hl)
    obtain rfl | rfl := hj
    · rw [hqleft.plen, hq.plen, List.length_append]
      rfl
    · rw [hqright.plen, hq.plen, List.length_append]
      rfl
  refine ⟨fun k hk => ?_, hroot, fun k hk hl => ?_⟩
  · obtain ⟨q, hq, -⟩ := d.paths k (f.nnode ▸ hk)
    refine ⟨hq.pvalid, plen_lt_nleaf ht hroot hchild hk, ?_⟩
    rw [hq.pbits, hq.plen]
    exact packBits_lt q
  · obtain ⟨q, hq, hqleft, hqright⟩ := d.children h f (f.nnode ▸ hk) (f.nleaf ▸ hl)
    rw [hqleft.plen, hqleft.pbits, hqright.plen, hqright.pbits, hq.plen, hq.pbits]
    simp

/-- The code of a leaf's symbol is the leaf's path, or the forced code of a lone symbol. -/
theorem codeAt_leaf_of_derived {k : Nat} (hk : k < s.nleaf) : codeAt t (nodeAt t k).sym.toNat =
    if t.nleaf = 1 then loneCode else { len := (nodeAt t k).plen, bits := (nodeAt t k).pbits } := by
  obtain ⟨q, hq, -, hcode⟩ := d.paths k (Nat.lt_of_lt_of_le hk (tree_nleaf_le h))
  obtain ⟨-, -, hsym, -⟩ := f.tree k
  rw [hsym, hcode (tree_kind_leaf h hk), hq.plen, hq.pbits, f.nleaf]
  rfl

theorem codesOk_of_derived : codesOk t := by
  refine ⟨fun k hk => codeAt_leaf_of_derived h f d (f.nleaf ▸ hk), fun v _ hv => d.codes v fun j hj he => ?_⟩
  obtain ⟨-, -, -, hleaf, -⟩ := h
  obtain ⟨-, -, -, -, -, hfreq, hpos⟩ := hleaf j hj
  rw [he, ← freqAt_congr f.freq, hv] at hfreq
  omega

/-- Every path fits MAXLEN. -/
theorem path_fits_of_derived (hA : s.nleaf ≤ s.cfg.alphabet) {k : Nat} (hk : k < s.nnode) :
    (nodeAt t k).plen ≤ s.cfg.maxLen ∧ (nodeAt t k).pbits < 2 ^ s.cfg.maxLen := by
  obtain ⟨hpaths, -, -⟩ := pathsOk_of_derived h f d
  obtain ⟨-, hplen, hpbits⟩ := hpaths k (f.nnode.symm ▸ hk)
  have hmax : (nodeAt t k).plen ≤ s.cfg.maxLen := by
    have := f.nleaf
    unfold Params.maxLen
    omega
  exact ⟨hmax, hpbits.trans_le (Nat.pow_le_pow_right (by decide) hmax)⟩

/-- CODE lists symbols of the alphabet only, with codes that fit MAXLEN. -/
theorem code_entries_of_derived (hw : s.cfg.wf) (hA : s.nleaf ≤ s.cfg.alphabet) (hcode : tabWf noCode t.code) :
    ∀ e ∈ t.code, e.1 < s.cfg.alphabet ∧ e.2.len ≤ s.cfg.maxLen ∧ e.2.bits < 2 ^ s.cfg.maxLen := by
  refine forall_mem_of_tabGet hcode (P := fun v e =>
    v < s.cfg.alphabet ∧ e.len ≤ s.cfg.maxLen ∧ e.bits < 2 ^ s.cfg.maxLen) fun v hv => ?_
  obtain ⟨k, hk, rfl⟩ : ∃ k < s.nleaf, (nodeAt s k).sym.toNat = v := by
    by_contra hno
    exact hv (d.codes v fun j hj he => hno ⟨j, hj, he⟩)
  have hpath := path_fits_of_derived h f d hA (Nat.lt_of_lt_of_le hk (tree_nleaf_le h))
  have hat := codeAt_leaf_of_derived h f d hk
  obtain ⟨-, -, hsame, -⟩ := f.tree k
  rw [hsame] at hat
  obtain ⟨-, -, -, hleaf, -⟩ := h
  obtain ⟨-, -, -, -, hsym, -⟩ := hleaf k hk
  refine ⟨hsym, ?_⟩
  show (codeAt t _).len ≤ _ ∧ (codeAt t _).bits < _
  rw [hat]
  split
  · exact ⟨Nat.le_sub_of_add_le hw.1, Nat.two_pow_pos _⟩
  · exact hpath

end

/-- Every slot of NODE fits the widths, listed or not. -/
theorem nodeFits_nodeAt {s : State} (h : widthsOk s) (k : Nat) : nodeFits s.cfg (nodeAt s k) := by
  obtain hmem | hunused := tabGet_cases (unusedSlot s.cfg) s.node k
  · exact (h.node _ hmem).2
  · rw [nodeAt, hunused]
    exact ⟨Nat.zero_le _, Nat.le_refl _, Nat.le_refl _, Nat.zero_le _, Nat.two_pow_pos _⟩

/-- The paths that DERIVE writes fit NODE. -/
theorem node_entries_of_derived {s t : State} (h : treeOk s) (hs : widthsOk s) (f : OnlyPaths s t) (d : Derived s t)
    (hforms : formsOk t) : ∀ e ∈ t.node, e.1 < t.nnode ∧ nodeFits t.cfg e.2 := by
  refine node_entries hforms (fun k hk => ?_) fun k hk => ?_
  · rw [f.nnode] at hk
    rw [d.other k hk, f.cfg]
    exact tabGet_of_le (fun e he => (hs.node e he).1) hk
  · obtain ⟨hfreq, hleft, hright, -, -⟩ := nodeFits_nodeAt hs k
    obtain ⟨-, -, -, efreq, eleft, eright⟩ := f.tree k
    rw [nodeFits, efreq, eleft, eright, f.cfg]
    exact ⟨hfreq, hleft, hright, path_fits_of_derived h f d hs.nleaf (f.nnode ▸ hk)⟩

/-- The paths and codes that DERIVE writes fit NODE and CODE. -/
theorem widthsOk_of_derived {s t : State} (hw : s.cfg.wf) (h : treeOk s) (hs : widthsOk s) (f : OnlyPaths s t)
    (d : Derived s t) (hforms : formsOk t) : widthsOk t := by
  have hnodes := node_entries_of_derived h hs f d hforms
  have hcodes := code_entries_of_derived h f d hw hs.nleaf hforms.code
  obtain ⟨hnsym, hfidx, hnleaf, hnnode, hroot, hpqcnt, hbitcnt, hseq, hfreq, -, hpq, -⟩ := hs
  refine ⟨?_, ?_, ?_, ?_, ?_, ?_, ?_, ?_, ?_, hnodes, ?_, ?_⟩
  · rwa [f.nsym, f.cfg]
  · rwa [f.fidx, f.cfg]
  · rwa [f.nleaf, f.cfg]
  · rwa [f.nnode, f.cfg]
  · rwa [f.root, f.cfg]
  · rwa [f.pqcnt, f.cfg]
  · rwa [f.bitcnt, f.cfg]
  · rwa [f.seq, f.cfg]
  · rwa [f.freq, f.cfg]
  · rwa [f.pq, f.nnode]
  · rwa [f.cfg]

/-- DERIVE executes in BUILT. -/
theorem invariant_deriveBody {s : State} (h : Invariant s) (hp : s.phase = .built) : Invariant (deriveBody s) := by
  have hforms := formsOk_deriveBody h.forms
  have hcontrol := (noFault_deriveBody (noFault_of_controlOk h.control (by rw [hp]; exact nofun))).controlOk nofun
  obtain ⟨hcfg, -, -, hwidths, hsum, hphase⟩ := h
  obtain ⟨⟨hcounts, htree, -, -, -⟩, hempty⟩ := (phaseOk_iff_built hp).1 hphase
  have f := deriveBody_frame s
  have d := derived htree hcfg hwidths.nleaf
  have hsum' : freqSum (deriveBody s) = freqSum s := freqSum_congr f.cfg f.freq
  refine ⟨f.cfg ▸ hcfg, hforms, hcontrol, widthsOk_of_derived hcfg htree hwidths f d hforms, ?_,
    (phaseOk_iff_derived rfl).2 ⟨⟨fun _ => ?_, ?_, ?_, ?_⟩, ?_⟩⟩
  · rwa [hsum', f.cfg]
  · exact countsOk_congr f.cfg f.nsym f.seq f.freq hcounts
  · exact treeOk_of_onlyPaths f htree
  · exact pathsOk_of_derived htree f d
  · exact codesOk_of_derived htree f d
  · rw [f.empty, hsum', hempty]

/-! ## PACK keeps the invariant (44_pack.md R145 to R158) -/

theorem addW_lt (w a b : Nat) : addW w a b < 2 ^ w := Nat.mod_lt _ (Nat.two_pow_pos _)

theorem emitBits_bitcnt_lt (bits j : Nat) {s : State} (h : s.bitcnt < 2 ^ s.cfg.wBits) :
    (emitBits bits j s).2.bitcnt < 2 ^ s.cfg.wBits := by
  induction j generalizing s with
  | zero => exact h
  | succ j ih =>
    unfold emitBits
    split
    · exact ih (s := countBit (sinkCall _ s)) (addW_lt _ _ _)
    · exact h

/-- BITCNT never outgrows its width. -/
theorem packLoop_bitcnt_lt (n i : Nat) {s : State} (h : s.bitcnt < 2 ^ s.cfg.wBits) :
    (packLoop n i s).2.bitcnt < 2 ^ s.cfg.wBits := by
  induction n generalizing i s with
  | zero => exact h
  | succ n ih =>
    have hemit := emitBits_bitcnt_lt (codeAt s (seqAt s i).toNat).bits (codeAt s (seqAt s i).toNat).len h
    obtain ⟨es, hw, -⟩ := emitBits_writes (codeAt s (seqAt s i).toNat).bits (codeAt s (seqAt s i).toNat).len s
    have hcfg := hw.onlyPacked.cfg
    unfold packLoop
    split
    · exact h
    split
    · exact h
    split
    · rename_i he
      rw [he] at hemit hcfg
      rw [← hcfg] at hemit ⊢
      exact ih _ hemit
    · rename_i he
      rwa [he] at hemit

theorem packBody_bitcnt_lt (s : State) : (packBody s).bitcnt < 2 ^ s.cfg.wBits := by
  have h := packLoop_bitcnt_lt s.nsym 0 (s := openScope s) (Nat.two_pow_pos _)
  simpa [packBody, packFlush] using h

/-- PACK leaves FIDX or sets it to an index up to NSYM. -/
theorem packBody_fidx_le (s : State) : (packBody s).fidx ≤ max s.fidx s.nsym := by
  obtain ⟨es, t, r, hw, -, ⟨err, hlt, -, he⟩ | ⟨-, -, he⟩ | ⟨-, -, he⟩⟩ := packBody_cases s <;> rw [he]
  · exact hlt.le.trans (Nat.le_max_right _ _)
  · exact Nat.le_max_right _ _
  · have hf : t = _ := hw.frame
    rw [hf]
    exact Nat.le_max_left _ _

/-- PACK ends in a fault or in DONE. -/
theorem packBody_phase (s : State) : (packBody s).phase = .fault ∨ (packBody s).phase = .done := by
  obtain ⟨es, t, r, -, -, ⟨err, -, -, he⟩ | ⟨-, -, he⟩ | ⟨-, -, he⟩⟩ := packBody_cases s <;> rw [he]
  · exact .inl rfl
  · exact .inl rfl
  · exact .inr rfl

/-- All the codes of a sequence fit BITCNT (R158). -/
theorem nsym_mul_maxLen_lt {p : Params} (hw : p.wf) {n : Nat} (hn : n ≤ p.nMax) : n * p.maxLen < 2 ^ p.wBits := by
  obtain ⟨-, hA, -⟩ := hw
  have hmax : p.maxLen < 2 ^ 8 := by
    unfold Params.maxLen
    omega
  unfold Params.wBits
  rw [Nat.pow_add]
  exact Nat.mul_lt_mul'' (lt_two_pow_wFreq hn) hmax

/-- Every code fits MAXLEN, listed or not. -/
theorem codeAt_len_le {s : State} (h : widthsOk s) (v : Nat) : (codeAt s v).len ≤ s.cfg.maxLen := by
  obtain hmem | hnone := tabGet_cases noCode s.code v
  · exact (h.code _ hmem).2.1
  · rw [codeAt, hnone]
    exact Nat.zero_le _

/-- A PACK that ends in DONE found every symbol codable, and BITCNT counts the bits of their codes. -/
theorem packBody_done {s : State} (hw : s.cfg.wf) (hs : widthsOk s) (hp : (packBody s).phase = .done) :
    firstUncodable s = s.nsym ∧ (packBody s).bitcnt = (bitsUpTo s s.nsym).length := by
  have hfault : ∀ {err : PackError} {t : State}, packLoop s.nsym 0 (openScope s) = (some err, t) → False :=
    fun he => by
      rw [packBody_of_loop he] at hp
      cases hp
  obtain he | ⟨m, k, b, -, -, -, -, he⟩ :=
    packLoop_outcome s s.cfg.maxLen (codeAt_len_le hs) (nsym_mul_maxLen_lt hw hs.nsym)
  · by_cases hall : firstUncodable s = s.nsym
    · refine ⟨hall, ?_⟩
      rw [packBody_of_loop he, packEnd_bitcnt, hall]
      exact Nat.zero_add _
    · rw [if_neg hall] at he
      exact (hfault he).elim
  · exact (hfault he).elim

/-- PACK changes nothing that the clauses on the tables look at. -/
theorem OnlyPacked.tables {s t : State} (h : OnlyPacked s t) :
    (countsOk s → countsOk t) ∧ (treeOk s → treeOk t) ∧ (pathsOk s → pathsOk t) ∧ (codesOk s → codesOk t) ∧
      freqSum t = freqSum s ∧ seqList t = seqList s ∧ (∀ b, codable t b = codable s b) ∧
      ∀ n, bitsUpTo t n = bitsUpTo s n := by
  rw [h.eq]
  exact ⟨id, id, id, id, rfl, rfl, fun _ => rfl, fun _ => rfl⟩

theorem widthsOk_packBody {s : State} (hs : widthsOk s) : widthsOk (packBody s) := by
  have f := packBody_frame s
  have hbits := packBody_bitcnt_lt s
  have hidx := packBody_fidx_le s
  obtain ⟨hnsym, hfidx, hnleaf, hnnode, hroot, hpqcnt, -, hrest⟩ := hs
  have hidx : (packBody s).fidx ≤ s.cfg.nMax := hidx.trans (max_le hfidx hnsym)
  rw [f.eq]
  exact ⟨hnsym, hidx, hnleaf, hnnode, hroot, hpqcnt, hbits, hrest⟩

/-- PACK executes in DERIVED. -/
theorem invariant_packBody {s : State} (h : Invariant s) (hp : s.phase = .derived) : Invariant (packBody s) := by
  have hcontrol := controlOk_packBody (noFault_of_controlOk h.control (by rw [hp]; exact nofun))
  obtain ⟨hcfg, hforms, -, hwidths, hsum, hphase⟩ := h
  obtain ⟨⟨hcounts, htree, hpaths, hcodes⟩, hempty⟩ := (phaseOk_iff_derived hp).1 hphase
  have f := packBody_frame s
  obtain ⟨tcounts, ttree, tpaths, tcodes, tsum, tseq, tcodable, tbits⟩ := f.tables
  refine ⟨f.cfg ▸ hcfg, formsOk_packBody hforms, hcontrol, widthsOk_packBody hwidths, ?_, ?_⟩
  · rwa [tsum, f.cfg]
  obtain hfault | hdone := packBody_phase s
  · exact phaseOk_of_fault hfault
  · obtain ⟨hall, hbits⟩ := packBody_done hcfg hwidths hdone
    refine (phaseOk_iff_done hdone).2
      ⟨⟨fun hi => tcounts (hcounts (f.indep ▸ hi)), ttree htree, tpaths hpaths, tcodes hcodes⟩, ⟨fun b hb => ?_, ?_⟩, ?_⟩
    · rw [tseq] at hb
      obtain ⟨i, hi, rfl⟩ := (mem_seqList s b).1 hb
      rw [tcodable]
      exact codable_of_lt_firstUncodable s (hall.symm ▸ hi)
    · rw [hbits, f.nsym, tbits]
    · rw [f.empty, tsum, hempty]

/-! ## Every step keeps the invariant -/

/-- ENCODE executes in LOAD. -/
theorem invariant_encodeBody {s : State} (h : Invariant s) (hp : s.phase = .load) : Invariant (encodeBody s) := by
  have hcount := invariant_countBody h hp
  obtain ⟨f, j, -, -, he, -⟩ | ⟨f, hf, he⟩ := encodeBody_cases s <;> rw [he]
  · exact hcount
  · have hcounted : (countBody s).phase = .counted := by rw [hf]; rfl
    exact invariant_packBody (invariant_deriveBody (invariant_buildBody hcount hcounted) rfl) rfl

/-! The phases in which the table of R78 lets a command execute. -/

theorem phase_of_lds_ok {imm : Byte} {ph : Phase} (h : legality (.lds imm) ph = .ok) : ph = .load ∨ ph = .derived := by
  cases ph <;> simp [legality] at h ⊢

theorem phase_of_seqclr_ok {ph : Phase} (h : legality .seqclr ph = .ok) :
    ph = .load ∨ ph = .derived ∨ ph = .done := by
  cases ph <;> simp [legality] at h ⊢

theorem phase_of_count_ok {ph : Phase} (h : legality .count ph = .ok) : ph = .load := by
  cases ph <;> simp [legality] at h ⊢

theorem phase_of_build_ok {ph : Phase} (h : legality .build ph = .ok) : ph = .counted := by
  cases ph <;> simp [legality] at h ⊢

theorem phase_of_derive_ok {ph : Phase} (h : legality .derive ph = .ok) : ph = .built := by
  cases ph <;> simp [legality] at h ⊢

theorem phase_of_pack_ok {ph : Phase} (h : legality .pack ph = .ok) : ph = .derived := by
  cases ph <;> simp [legality] at h ⊢

theorem phase_of_encode_ok {ph : Phase} (h : legality .encode ph = .ok) : ph = .load := by
  cases ph <;> simp [legality] at h ⊢

/-- Every command that executes keeps the invariant. -/
theorem invariant_bodyOf {i : Instr} {s : State} (hl : legality i s.phase = .ok) (h : Invariant s) :
    Invariant (bodyOf i s) := by
  cases i with
  | nop => exact h
  | clear => exact invariant_resetEngine h
  | lds imm => exact invariant_ldsBody h (phase_of_lds_ok hl) imm
  | seqclr => exact invariant_seqclrBody h (phase_of_seqclr_ok hl)
  | count => exact invariant_countBody h (phase_of_count_ok hl)
  | build => exact invariant_buildBody h (phase_of_build_ok hl)
  | derive => exact invariant_deriveBody h (phase_of_derive_ok hl)
  | pack => exact invariant_packBody h (phase_of_pack_ok hl)
  | encode => exact invariant_encodeBody h (phase_of_encode_ok hl)

/-- The fault a refused word raises, of either cause, leaves the registers as R30 and R31 say. -/
theorem controlOk_refusedWord {s : State} (hs : s.scope = false) {c : Cause} {w : Word}
    (hw : (c = .illegalCommand ∧ decodeWord w = none) ∨
      (c = .illegalSequence ∧ ∃ i : Instr, i ≠ .nop ∧ i ≠ .clear ∧ w = encode i)) : controlOk (raise c 0 w s) := by
  obtain ⟨rfl, hw⟩ | ⟨rfl, i, hn, hc, rfl⟩ := hw
  · exact controlOk_illegalCommand hs hw
  · exact controlOk_illegalSequence hs hn hc

/-- Settles O60: fault entry before a command, reset, and the body of every command that the table of R78 lets execute
keep the invariant. -/
theorem stepKeepsTheInvariant : Obligations.StepKeepsTheInvariant := fun _ _ h hstep =>
  step_keeps Invariant (fun _ _ hs => hs)
    (fun _ _ _ hw _ hs => invariant_raise hs (controlOk_refusedWord hs.control.scope hw) (Nat.zero_le _))
    (fun _ hs => invariant_resetEngine hs) (fun _ _ hl hs => invariant_bodyOf hl hs) h hstep

end Sys2Proof.Machine

/-! Proofs for the family of 10_state.md: the read port and STATUS, hardware reset, the moves of PHASE, which command
writes what, and the parts of the invariant that reset meets and every step keeps. -/

namespace Sys2Proof.Machine

/-! ## STATUS (R25, R26) -/

theorem Phase.code_inj {p q : Phase} : p.code = q.code ↔ p = q := by
  constructor
  · cases p <;> cases q <;> decide
  · exact congrArg _

theorem Phase.code_ne_unused (p : Phase) : p.code ≠ 5#3 ∧ p.code ≠ 6#3 := by
  cases p <;> decide

/-- The four fields of STATUS, each read back from the word. -/
theorem statusWord_fields (s : State) :
    (statusWord s).extractLsb' 0 3 = s.phase.code ∧ (statusWord s).getLsbD 3 = s.empty ∧
      (statusWord s).getLsbD 4 = s.indep ∧ (statusWord s).extractLsb' 5 11 = 0#11 := by
  unfold statusWord
  cases s.phase <;> cases s.empty <;> cases s.indep <;> decide

/-- PHASE holds the code of `p` exactly in phase `p`. -/
theorem phase_iff_statusWord (s : State) (p : Phase) : s.phase = p ↔ (statusWord s).extractLsb' 0 3 = p.code := by
  rw [(statusWord_fields s).1, Phase.code_inj]

/-- Settles O17: the code of each phase is its own, and 5 and 6 are nobody's. -/
theorem statusRegisterLayout : Obligations.StatusRegisterLayout := by
  intro s
  obtain ⟨hphase, hempty, hindep, hzero⟩ := statusWord_fields s
  obtain ⟨h5, h6⟩ := s.phase.code_ne_unused
  exact ⟨phase_iff_statusWord s .load, phase_iff_statusWord s .counted, phase_iff_statusWord s .built,
    phase_iff_statusWord s .derived, phase_iff_statusWord s .done, phase_iff_statusWord s .fault,
    hphase ▸ h5, hphase ▸ h6, hempty, hindep, hzero⟩

/-! ## Hardware reset (R46, R215) -/

theorem step_of_reset {s : State} {rest : List HostInput} (h : s.host = .reset :: rest) :
    step s = .next (resetEngine { s with host := rest }) := by
  rw [step, h]
  rfl

@[simp] theorem statusWord_resetEngine (s : State) : statusWord (resetEngine s) = 0#16 := by
  rw [statusWord, resetEngine_phase, resetEngine_empty, resetEngine_indep]
  decide

/-- Settles O12: the step ends in `resetEngine`, which has every field at the value of R46. -/
theorem hardwareResetGivesResetState : Obligations.HardwareResetGivesResetState := fun _ _ h =>
  ⟨_, step_of_reset h, statusWord_resetEngine _, rfl, rfl, rfl, rfl, rfl, rfl, rfl, rfl, rfl, fun _ => rfl, fun _ => rfl,
    rfl, fun _ => rfl, rfl, ⟨rfl, rfl⟩, rfl, rfl⟩

/-! ## The invariant: the reset state meets it, and every step keeps its forms and its fault registers -/

/-- Settles O57: no entry is listed in any table, so each clause about entries is empty, and the registers are 0 or
`NONE`. -/
theorem resetMeetsTheInvariant : Obligations.ResetMeetsTheInvariant := by
  intro p hp
  have hforms : formsOk (State.resetOf p) := ⟨tabWf_nil _, tabWf_nil _, tabWf_nil _, tabWf_nil _, .nil, rfl⟩
  have hbits : 0 < 2 ^ p.wBits := Nat.two_pow_pos _
  refine ⟨hp, hforms, controlOk_resetEngine (State.resetOf p), ?_, ?_, ?_⟩
  · exact ⟨Nat.zero_le _, Nat.zero_le _, Nat.zero_le _, Nat.zero_le _, Nat.le_refl _, Nat.zero_le _, hbits, nofun,
      nofun, nofun, nofun, nofun⟩
  · rw [freqSum_of_nil rfl]
    exact Nat.zero_le _
  · exact (phaseOk_iff_load rfl).2 ⟨rfl, ⟨rfl, rfl, rfl, rfl, rfl⟩, rfl, rfl, rfl, rfl⟩

/-- Settles O58: fault entry, reset and the body of every command keep the canonical forms. -/
theorem stepKeepsCanonicalForms : Obligations.StepKeepsCanonicalForms := fun _ _ h hstep =>
  step_keeps formsOk (fun _ _ hs => hs) (fun _ _ _ _ _ hs => formsOk_raise hs _ _ _)
    (fun _ hs => formsOk_resetEngine hs) (fun i _ _ hs => formsOk_bodyOf i hs) h hstep

/-- Settles O59: a refused word, reset and the body of every command that the table of R78 lets execute leave the fault
registers as R29 to R31 say. -/
theorem stepKeepsFaultRegisters : Obligations.StepKeepsFaultRegisters := fun _ _ h hstep =>
  step_keeps controlOk (fun _ _ hs => hs) (fun _ _ _ hw _ hs => controlOk_refusedWord hs.scope hw)
    (fun s _ => controlOk_resetEngine s) (fun _ _ hl hs => controlOk_bodyOf hl hs) h hstep

/-! ## The read port (R23, R55, R57) -/

theorem Cause.read_inj {c d : Cause} : c.code.setWidth 64 = d.code.setWidth 64 ↔ c = d := by
  constructor
  · cases c <;> cases d <;> decide
  · exact congrArg fun c : Cause => c.code.setWidth 64

/-- CAUSE reads as the code of `c` exactly when it is `c`. -/
theorem cause_iff_rd (s : State) (c : Cause) : s.cause = c ↔ s.rd 0#4 1 = .csr (c.code.setWidth 64) := by
  rw [← Cause.read_inj]
  exact (ReadRecord.csr.injEq _ _).symm.to_iff

theorem rd_cause_ne_seven (s : State) : s.rd 0#4 1 ≠ .csr 7#64 := by
  show ReadRecord.csr (s.cause.code.setWidth 64) ≠ _
  cases s.cause <;> decide

/-- A register that holds a number below `2^64` reads as that number. -/
theorem rd_of_lt {s : State} {i n : Nat} (hread : s.rd 0#4 i = .csr (BitVec.ofNat 64 n)) (hn : n < 2 ^ 64) :
    ∃ v, s.rd 0#4 i = .csr v ∧ v.toNat = n :=
  ⟨_, hread, (BitVec.toNat_ofNat _ _).trans (Nat.mod_eq_of_lt hn)⟩

/-- A 16-bit register reads as its value. -/
theorem rd_of_word {s : State} {i : Nat} {w : Word} (hread : s.rd 0#4 i = .csr (w.setWidth 64)) :
    ∃ v, s.rd 0#4 i = .csr v ∧ v.toNat = w.toNat :=
  ⟨_, hread, BitVec.toNat_setWidth_of_le (by decide)⟩

theorem ceilLog2_le {n k : Nat} (h : n ≤ 2 ^ k) : ceilLog2 n ≤ k := by
  unfold ceilLog2
  split
  · exact Nat.zero_le _
  · exact (Nat.log2_lt (by omega)).2 (by omega)

/-- With at most 256 symbols a node index has at most 9 bits. -/
theorem noNode_lt {p : Params} (hp : p.wf) : p.noNode < 2 ^ 9 := by
  obtain ⟨-, hA, -⟩ := hp
  have hbits : p.nidxW ≤ 9 := ceilLog2_le (by omega)
  have hpow : 2 ^ p.nidxW ≤ 2 ^ 9 := Nat.pow_le_pow_right (by decide) hbits
  have hpos : 0 < 2 ^ p.nidxW := Nat.two_pow_pos _
  unfold Params.noNode
  omega

/-- Every number in a register fits the read port's 64 bits. -/
theorem registers_lt {s : State} (h : Invariant s) (hw : s.cfg.wLen ≤ 56) :
    s.fidx < 2 ^ 64 ∧ s.nsym < 2 ^ 64 ∧ s.nleaf < 2 ^ 64 ∧ s.nnode < 2 ^ 64 ∧ s.root < 2 ^ 64 ∧ s.pqcnt < 2 ^ 64 ∧
      s.bitcnt < 2 ^ 64 := by
  obtain ⟨hnsym, hfidx, hnleaf, hnnode, hroot, hpqcnt, hbits, -⟩ := h.widths
  have hnone := noNode_lt h.cfg
  obtain ⟨-, hA, -⟩ := h.cfg
  have hlen : 2 ^ s.cfg.wLen ≤ 2 ^ 56 := Nat.pow_le_pow_right (by decide) hw
  have hmax : s.cfg.nMax ≤ 2 ^ 56 := (Nat.sub_le _ _).trans hlen
  have hslots : s.cfg.nodeMax ≤ 2 * s.cfg.alphabet := Nat.sub_le _ _
  have hwide : 2 ^ s.cfg.wBits ≤ 2 ^ 64 := Nat.pow_le_pow_right (by decide) (Nat.add_le_add_right hw 8)
  omega

/-- Settles O19: inside its range an entry reads as stored; a register reads as its number because the invariant keeps it
below `2^64` up to `W_LEN` = 56. -/
theorem readInsideRangeIsCurrentContent : Obligations.ReadInsideRangeIsCurrentContent := by
  intro s h hw
  obtain ⟨hfidx, hnsym, hnleaf, hnnode, hroot, hpqcnt, hbitcnt⟩ := registers_lt h hw
  exact ⟨fun i hi => congrArg ReadRecord.seq (if_pos hi),
    fun v hv => ⟨congrArg ReadRecord.freq (if_pos hv), congrArg ReadRecord.code (if_pos hv)⟩,
    fun k hk => congrArg ReadRecord.node (if_pos hk), rd_of_word rfl,
    cause_iff_rd s .none, cause_iff_rd s .symbolOutOfRange, cause_iff_rd s .symbolNotCoded,
    cause_iff_rd s .sinkFailure, cause_iff_rd s .seqOverflow, cause_iff_rd s .illegalCommand,
    cause_iff_rd s .illegalSequence, rd_cause_ne_seven s, rd_of_lt rfl hfidx, rd_of_word rfl, rd_of_lt rfl hnsym,
    rd_of_lt rfl hnleaf, rd_of_lt rfl hnnode, rd_of_lt rfl hroot, rd_of_lt rfl hpqcnt, rd_of_lt rfl hbitcnt⟩

/-! ## The moves of PHASE (R26) -/

theorem word_eq_fields (w : Word) : opField w ++ (rsvField w ++ immField w) = w := by
  unfold opField rsvField immField
  rw [BitVec.extractLsb'_append_extractLsb'_eq_extractLsb' (by rfl),
    BitVec.extractLsb'_append_extractLsb'_eq_extractLsb' (by rfl)]
  exact BitVec.extractLsb'_eq_self

/-- Among the commands without operand, the opcode names the command. -/
theorem opcode_of_decodePlain {n : Nat} {i : Instr} (h : decodePlain n = some i) :
    (opcode i).toNat = n ∧ immOf i = 0#8 := by
  unfold decodePlain at h
  split at h <;> cases h <;> exact ⟨rfl, rfl⟩

/-- A word that decodes to a command is the command's own word. -/
theorem encode_of_decodeWord {w : Word} {i : Instr} (h : decodeWord w = some i) : encode i = w := by
  have hw := word_eq_fields w
  unfold decodeWord at h
  split at h
  · cases h
  rename_i hrsv
  rw [Decidable.not_not.1 hrsv] at hw
  split at h
  · rename_i hop
    cases h
    rwa [hop] at hw
  split at h
  · cases h
  · rename_i himm
    rw [Decidable.not_not.1 himm] at hw
    obtain ⟨hop, hi⟩ := opcode_of_decodePlain h
    rw [encode, hi, BitVec.eq_of_toNat_eq hop, hw]

theorem countBody_phase (s : State) : (countBody s).phase = .fault ∨ (countBody s).phase = .counted := by
  obtain ⟨f, he | ⟨j, -, -, he⟩⟩ := countBody_cases s <;> rw [he]
  · exact .inr rfl
  · exact .inl rfl

theorem encodeBody_phase (s : State) : (encodeBody s).phase = .fault ∨ (encodeBody s).phase = .done := by
  obtain ⟨f, j, -, -, he, hc⟩ | ⟨f, -, he⟩ := encodeBody_cases s <;> rw [he]
  · rw [hc]
    exact .inl rfl
  · exact packBody_phase _

theorem ldsBody_phase (imm : Byte) (s : State) : (ldsBody imm s).phase = .fault ∨ (ldsBody imm s).phase = s.phase := by
  obtain ⟨-, he⟩ | ⟨-, he⟩ := ldsBody_cases imm s <;> rw [he]
  · exact .inl rfl
  · exact .inr rfl

/-- The moves of PHASE, other than into FAULT, that a command makes: CLEAR from anywhere, and six from one phase each. -/
inductive Move : Instr → Phase → Phase → Prop where
  | clear (p : Phase) : Move .clear p .load
  | count  : Move .count .load .counted
  | build  : Move .build .counted .built
  | derive : Move .derive .built .derived
  | pack   : Move .pack .derived .done
  | encode : Move .encode .load .done
  | seqclr : Move .seqclr .done .derived

theorem move_of_phases {i : Instr} {p q p' q' : Phase} (h : Move i p q) (hp : p' = p) (hq : q' = q) : Move i p' q' :=
  hp ▸ hq ▸ h

/-- A command that executes leaves PHASE, enters FAULT or makes its move. -/
theorem bodyOf_phase {i : Instr} {s : State} (hl : legality i s.phase = .ok) :
    (bodyOf i s).phase = s.phase ∨ (bodyOf i s).phase = .fault ∨ Move i s.phase (bodyOf i s).phase := by
  cases i with
  | nop => exact .inl rfl
  | clear => exact .inr (.inr (.clear _))
  | lds imm => exact (ldsBody_phase imm s).elim (fun h => .inr (.inl h)) .inl
  | seqclr =>
    show phaseAfterSeqclr s.phase = _ ∨ phaseAfterSeqclr s.phase = _ ∨ Move _ _ (phaseAfterSeqclr s.phase)
    obtain hp | hp | hp := phase_of_seqclr_ok hl <;> rw [hp]
    · exact .inl rfl
    · exact .inl rfl
    · exact .inr (.inr .seqclr)
  | count => exact .inr ((countBody_phase s).imp_right (move_of_phases .count (phase_of_count_ok hl)))
  | build => exact .inr (.inr (move_of_phases .build (phase_of_build_ok hl) rfl))
  | derive => exact .inr (.inr (move_of_phases .derive (phase_of_derive_ok hl) rfl))
  | pack => exact .inr ((packBody_phase s).imp_right (move_of_phases .pack (phase_of_pack_ok hl)))
  | encode => exact .inr ((encodeBody_phase s).imp_right (move_of_phases .encode (phase_of_encode_ok hl)))

theorem exec_phase {i : Instr} {s t : State} (h : exec i s = .next t) :
    t.phase = s.phase ∨ t.phase = .fault ∨ Move i s.phase t.phase := by
  obtain ⟨hl, rfl⟩ | ⟨-, rfl⟩ | ⟨-, rfl⟩ := exec_cases h
  · exact bodyOf_phase hl
  · exact .inr (.inl rfl)
  · exact .inl rfl

/-- Settles O54: a word that moves PHASE is the word of the command whose move it is. -/
theorem phaseMovesAreTheListedOnes : Obligations.PhaseMovesAreTheListedOnes := by
  intro s t h
  obtain ⟨-, rfl⟩ | ⟨w, hs, i, hhost, hi, hexec⟩ | ⟨w, hs, hhost, -, rfl⟩ | ⟨hs, hhost, rfl⟩ := step_cases h
  · exact .inl rfl
  · obtain hp | hp | hmove := exec_phase hexec
    · exact .inl hp
    · exact .inr (.inl hp)
    obtain rfl := encode_of_decodeWord hi
    generalize hsp : s.phase = p at *
    generalize htp : t.phase = q at *
    cases hmove with
    | clear => exact .inr (.inr (.inl ⟨rfl, hs, .inl hhost⟩))
    | count | build | derive | pack | encode | seqclr => exact .inr (.inr (.inr ⟨_, hs, hhost, by decide⟩))
  · obtain ⟨-, he⟩ | ⟨-, he⟩ := illegalWord_cases w { s with host := hs } <;> rw [he]
    · exact .inl rfl
    · exact .inr (.inl rfl)
  · exact .inr (.inr (.inl ⟨rfl, hs, .inr hhost⟩))

/-! ## Which command writes what (R45) -/

/-- From `s` to `t` nothing changed but what command `i` owns. -/
structure WritesOwn (i : Instr) (s t : State) : Prop where
  counts : i ≠ .count → sameFreq s t ∧ t.empty = s.empty
  tree   : i ≠ .build → t.pq = s.pq ∧ t.nleaf = s.nleaf ∧ t.nnode = s.nnode ∧ t.root = s.root ∧ t.pqcnt = s.pqcnt ∧
    ∀ k, sameTreeFields (nodeAt s k) (nodeAt t k)
  codes  : i ≠ .derive → sameCode s t
  nodes  : i ≠ .derive → i ≠ .build → ∀ k, nodeAt t k = nodeAt s k
  sink   : i ≠ .pack → t.bitcnt = s.bitcnt ∧ sameSink s t
  bytes  : (∀ imm, i ≠ .lds imm) → ∀ a, seqAt t a = seqAt s a
  input  : (∀ imm, i ≠ .lds imm) → i ≠ .seqclr → t.nsym = s.nsym ∧ t.indep = s.indep

theorem sameTreeFields_refl (r : NodeRec) : sameTreeFields r r := ⟨rfl, rfl, rfl, rfl, rfl, rfl⟩

/-- The frame of BUILD as an equation. -/
theorem OnlyTree.eq {s t : State} (h : OnlyTree s t) :
    t = { s with
      phase := t.phase, nleaf := t.nleaf, nnode := t.nnode, root := t.root, pqcnt := t.pqcnt, node := t.node,
      pq := t.pq } := by
  obtain ⟨h₁, h₂, h₃, h₄, h₅, h₆, h₇, h₈, h₉, h₁₀, h₁₁, h₁₂, h₁₃, h₁₄, h₁₅⟩ := h
  rw [← h₁, ← h₂, ← h₃, ← h₄, ← h₅, ← h₆, ← h₇, ← h₈, ← h₉, ← h₁₀, ← h₁₁, ← h₁₂, ← h₁₃, ← h₁₄, ← h₁₅]

theorem writesOwn_refl (i : Instr) (s : State) : WritesOwn i s s where
  counts _ := ⟨fun _ => rfl, rfl⟩
  tree _ := ⟨rfl, rfl, rfl, rfl, rfl, fun _ => sameTreeFields_refl _⟩
  codes _ _ := rfl
  nodes _ _ _ := rfl
  sink _ := ⟨rfl, rfl, rfl⟩
  bytes _ _ := rfl
  input _ _ := ⟨rfl, rfl⟩

/-- Fault entry writes no table and no register of R45's list (R196). -/
theorem writesOwn_raise (i : Instr) (c : Cause) (idx : Nat) (info : Word) (s : State) :
    WritesOwn i s (raise c idx info s) where
  __ := writesOwn_refl i s

theorem writesOwn_ldsBody (imm : Byte) (s : State) : WritesOwn (.lds imm) s (ldsBody imm s) := by
  obtain ⟨-, he⟩ | ⟨-, he⟩ := ldsBody_cases imm s <;> rw [he]
  · exact writesOwn_raise _ _ _ _ s
  · exact { writesOwn_refl (.lds imm) s with
      bytes := fun h => absurd rfl (h imm)
      input := fun h => absurd rfl (h imm) }

theorem writesOwn_seqclrBody (s : State) : WritesOwn .seqclr s (seqclrBody s) where
  __ := writesOwn_refl .seqclr s
  input _ h := absurd rfl h

theorem writesOwn_countBody (s : State) : WritesOwn .count s (countBody s) := by
  obtain ⟨f, he | ⟨j, -, -, he⟩⟩ := countBody_cases s <;> rw [he]
  all_goals exact { writesOwn_refl .count s with counts := fun h => absurd rfl h }

theorem writesOwn_buildBody (s : State) : WritesOwn .build s (buildBody s) := by
  rw [(buildBody_frame s).eq]
  exact { writesOwn_refl .build s with
    tree := fun h => absurd rfl h
    nodes := fun _ h => absurd rfl h }

theorem writesOwn_deriveBody (s : State) : WritesOwn .derive s (deriveBody s) := by
  have f := deriveBody_frame s
  exact {
    counts := fun _ => ⟨freqAt_congr f.freq, f.empty⟩
    tree := fun _ => ⟨f.pq, f.nleaf, f.nnode, f.root, f.pqcnt, f.tree⟩
    codes := fun h => absurd rfl h
    nodes := fun h => absurd rfl h
    sink := fun _ => ⟨f.bitcnt, f.log, f.plan⟩
    bytes := fun _ _ => by rw [seqAt, f.seq, seqAt]
    input := fun _ _ => ⟨f.nsym, f.indep⟩ }

theorem writesOwn_packBody (s : State) : WritesOwn .pack s (packBody s) := by
  rw [(packBody_frame s).eq]
  exact { writesOwn_refl .pack s with sink := fun h => absurd rfl h }

/-- Each command but CLEAR and ENCODE writes what it owns only. -/
theorem writesOwn_bodyOf {i : Instr} (hclear : i ≠ .clear) (hencode : i ≠ .encode) (s : State) :
    WritesOwn i s (bodyOf i s) := by
  cases i with
  | nop => exact writesOwn_refl _ s
  | clear => exact absurd rfl hclear
  | lds imm => exact writesOwn_ldsBody imm s
  | seqclr => exact writesOwn_seqclrBody s
  | count => exact writesOwn_countBody s
  | build => exact writesOwn_buildBody s
  | derive => exact writesOwn_deriveBody s
  | pack => exact writesOwn_packBody s
  | encode => exact absurd rfl hencode

/-- Settles O55: a refused command writes the fault registers and PHASE only, an ignored one nothing, and one that
executes what it owns. -/
theorem eachTableHasOneWriter : Obligations.EachTableHasOneWriter := by
  intro i s t h hclear hencode
  have hw : WritesOwn i s t := by
    obtain ⟨-, rfl⟩ | ⟨-, rfl⟩ | ⟨-, rfl⟩ := exec_cases h
    · exact writesOwn_bodyOf hclear hencode s
    · exact writesOwn_raise i _ _ _ s
    · exact writesOwn_refl i t
  exact ⟨hw.counts, hw.tree, hw.codes, hw.nodes, hw.sink, hw.bytes, hw.input⟩

end Sys2Proof.Machine

/-! Proofs for the family of 20_memory.md: a read outside the defined range of its space. The other half, a read inside
the range, is `readInsideRangeIsCurrentContent`. -/

namespace Sys2Proof.Machine

/-! ## Reads outside the defined range (R56) -/

/-- No register has a number from 10 on (R23). -/
theorem csrRead_of_ten_le {n : Nat} (h : 10 ≤ n) (s : State) : csrRead s n = 0#64 := by
  obtain ⟨k, rfl⟩ := Nat.exists_eq_add_of_le' h
  rfl

/-- Spaces 5 to 15 hold nothing, whatever the index (log entry 11). -/
theorem rd_of_five_le {space : BitVec 4} (h : 5 ≤ space.toNat) (s : State) (i : Nat) : s.rd space i = .reserved := by
  obtain ⟨k, hk⟩ := Nat.exists_eq_add_of_le' h
  rw [State.rd, hk]
  rfl

/-- Settles O18: the registers end at number 10 and the spaces at number 5; in a table, the range check fails. -/
theorem readOutsideRangeIsZero : Obligations.ReadOutsideRangeIsZero := fun s _ i =>
  ⟨fun hspace => rd_of_five_le hspace s i,
    fun hcsr => congrArg ReadRecord.csr (csrRead_of_ten_le hcsr s),
    fun hseq => congrArg ReadRecord.seq (if_neg hseq.not_gt),
    fun hfreq => congrArg ReadRecord.freq (if_neg hfreq.not_gt),
    fun hnode => congrArg ReadRecord.node (if_neg hnode.not_gt),
    fun hcode => congrArg ReadRecord.code (if_neg hcode.not_gt)⟩

end Sys2Proof.Machine

/-! Proofs for the family of 30_encoding.md: the decoder and the encoder (R71 to R75), the line form of LDSTR (R83), and
the word presented on the command port (R76, R79, R80). -/

namespace Sys2Proof.Machine

/-! ## Decode and encode (R71 to R75) -/

theorem decodeWord_eq_some_iff {w : Word} {i : Instr} : decodeWord w = some i ↔ encode i = w :=
  ⟨encode_of_decodeWord, fun h => h ▸ decodeWord_encode i⟩

/-- Settles O1: a command reads back from its word, and only its word reads as the command. -/
theorem decodeInvertsEncode : Obligations.DecodeInvertsEncode := fun _ _ => decodeWord_eq_some_iff

theorem decodeWord_isSome_iff {w : Word} : (decodeWord w).isSome = true ↔ ∃ i, encode i = w := by
  simp only [Option.isSome_iff_exists, decodeWord_eq_some_iff]

/-- The fields of a command's word as digits of its value (R71). -/
theorem encode_toNat (i : Instr) : (encode i).toNat = 4096 * (opcode i).toNat + (immOf i).toNat := by
  have himm : (immOf i).toNat < 256 := (immOf i).isLt
  simp only [encode, BitVec.toNat_append, BitVec.toNat_ofNat, Nat.zero_mod, Nat.zero_shiftLeft, Nat.zero_or]
  rw [← Nat.shiftLeft_add_eq_or_of_lt (by omega), Nat.shiftLeft_eq]
  omega

/-- LDS has opcode 2; the other opcodes end at 8, and their commands have `imm` zero (R71, R73). -/
theorem opcode_immOf_cases (i : Instr) :
    (opcode i).toNat = 2 ∨ ((opcode i).toNat ≤ 8 ∧ (immOf i).toNat = 0) := by
  cases i with
  | lds imm => exact .inl rfl
  | nop | clear | seqclr | count | build | derive | pack | encode => exact .inr ⟨by decide, rfl⟩

theorem encode_lds_eq_iff {imm : Byte} {w : Word} : encode (.lds imm) = w ↔ w.toNat = 0x2000 + imm.toNat := by
  rw [← BitVec.toNat_inj, encode_toNat, eq_comm]
  rfl

/-- Settles O2: the legal words are the commands' own words, and those of LDS are a range. -/
theorem legalWordsAreTheListedOnes : Obligations.LegalWordsAreTheListedOnes := by
  intro w
  rw [decodeWord_isSome_iff]
  constructor
  · rintro ⟨i, rfl⟩
    cases i with
    | lds imm =>
      have himm : imm.toNat < 256 := imm.isLt
      have hw := encode_lds_eq_iff.1 (Eq.refl (encode (.lds imm)))
      exact .inr (by omega)
    | nop | clear | seqclr | count | build | derive | pack | encode => exact .inl (by decide)
  · rintro (hw | hw)
    · simp only [List.mem_cons, List.not_mem_nil, or_false] at hw
      obtain rfl | rfl | rfl | rfl | rfl | rfl | rfl | rfl := hw
      exacts [⟨.nop, rfl⟩, ⟨.clear, rfl⟩, ⟨.seqclr, rfl⟩, ⟨.count, rfl⟩, ⟨.build, rfl⟩, ⟨.derive, rfl⟩, ⟨.pack, rfl⟩,
        ⟨.encode, rfl⟩]
    · refine ⟨.lds (BitVec.ofNat 8 (w.toNat - 0x2000)), encode_lds_eq_iff.2 ?_⟩
      rw [BitVec.toNat_ofNat]
      omega

/-- A full mask compares the whole word: the row of a command without operand selects that command only (R73). -/
theorem fullMask_selects_iff {w : Word} {i : Instr} : w &&& 0xFFFF#16 = encode i ↔ decodeWord w = some i := by
  rw [decodeWord_eq_some_iff, show w &&& 0xFFFF#16 = w from BitVec.and_allOnes, eq_comm]

/-- The mask of LDS leaves `op` and `rsv` to compare, the upper byte of the word (R71, R73). -/
theorem ldsMask_selects_iff {w : Word} : w &&& 0xFF00#16 = 0x2000#16 ↔ w.toNat / 256 = 0x20 := by
  have hbytes : w.extractLsb' 8 8 ++ w.extractLsb' 0 8 = w :=
    (BitVec.extractLsb'_append_extractLsb'_eq_extractLsb' rfl).trans BitVec.extractLsb'_eq_self
  have hmask : w &&& 0xFF00#16 = w.extractLsb' 8 8 ++ 0#8 := by
    calc w &&& 0xFF00#16
        = (w.extractLsb' 8 8 ++ w.extractLsb' 0 8) &&& (BitVec.allOnes 8 ++ 0#8) := by rw [hbytes]; rfl
      _ = w.extractLsb' 8 8 ++ 0#8 := by rw [BitVec.and_append, BitVec.and_allOnes, BitVec.and_zero]
  have hupper : (w.extractLsb' 8 8).toNat = w.toNat / 256 := by
    rw [BitVec.extractLsb'_toNat, Nat.shiftRight_eq_div_pow]
    omega
  rw [hmask, show 0x2000#16 = 0x20#8 ++ 0#8 from rfl, BitVec.append_left_inj, ← BitVec.toNat_inj, hupper]
  rfl

/-- Settles O3: eight rows compare the whole word, the row of LDS its upper byte. -/
theorem maskAndMatchSelectTheCommand : Obligations.MaskAndMatchSelectTheCommand := by
  intro w
  refine ⟨fullMask_selects_iff (i := .nop), fullMask_selects_iff (i := .clear), ?_,
    fullMask_selects_iff (i := .seqclr), fullMask_selects_iff (i := .count), fullMask_selects_iff (i := .build),
    fullMask_selects_iff (i := .derive), fullMask_selects_iff (i := .pack), fullMask_selects_iff (i := .encode)⟩
  simp only [ldsMask_selects_iff, decodeWord_eq_some_iff, encode_lds_eq_iff]
  constructor
  · intro hw
    refine ⟨BitVec.ofNat 8 w.toNat, ?_, BitVec.toNat_ofNat _ _⟩
    rw [BitVec.toNat_ofNat]
    omega
  · rintro ⟨imm, hw, himm⟩
    omega

/-- Settles O4: the decoder evaluated on each word. -/
theorem sampleWordsDecode : Obligations.SampleWordsDecode := by
  unfold Obligations.SampleWordsDecode
  decide

/-! ## LDSTR (R83) -/

/-- The characters before the closing quotation mark are read one byte each. -/
theorem parseQuoted_append_quote {cs : List Char} (hcs : ∀ c ∈ cs, printable c = true ∧ c ≠ '"') (rest : List Char) :
    parseQuoted (cs ++ '"' :: rest) = some (cs.map fun c => BitVec.ofNat 8 c.toNat, rest) := by
  induction cs with
  | nil => rfl
  | cons c cs ih =>
    obtain ⟨⟨hprint, hquote⟩, htail⟩ := List.forall_mem_cons.1 hcs
    rw [List.cons_append, parseQuoted, if_pos hprint, ih htail]
    · rfl
    · exact hquote

/-- On a line of LDSTR everything after the first quotation mark is the quoted text (R83). -/
theorem assembleLine_ldstr (cs : List Char) :
    assembleLine (['L', 'D', 'S', 'T', 'R', ' ', '"'] ++ cs ++ ['"']) =
      (parseQuoted (cs ++ ['"'])).bind finishLine := rfl

/-- Settles O5: the quoted text reads one byte per character, and each byte is one LDS. -/
theorem ldstrExpandsToOneLdsPerCharacter : Obligations.LdstrExpandsToOneLdsPerCharacter := by
  intro cs hcs
  have hchars : ∀ c ∈ cs, printable c = true ∧ c ≠ '"' := by
    intro c hc
    obtain ⟨hlow, hhigh, hquote⟩ := hcs c hc
    exact ⟨decide_eq_true ⟨hlow, hhigh⟩, hquote⟩
  rw [assembleLine_ldstr, parseQuoted_append_quote hchars]
  exact congrArg some List.map_map

/-! ## One word on the command port (R76, R79, R80) -/

theorem step_of_word {s : State} {w : Word} {rest : List HostInput} (h : s.host = .word w :: rest) :
    step s = present w { s with host := rest } := by
  rw [step, h]

theorem present_of_some {w : Word} {i : Instr} (h : decodeWord w = some i) (s : State) : present w s = exec i s := by
  rw [present, h]

theorem present_of_none {w : Word} (h : decodeWord w = none) (s : State) :
    present w s = .next (illegalWord w s) := by
  rw [present, h]

/-- Settles O6: the step presents the word, and the port runs what it decodes to. -/
theorem stepRunsTheDecodedCommand : Obligations.StepRunsTheDecodedCommand := fun _ _ _ _ hhost hw =>
  (step_of_word hhost).trans (present_of_some hw _)

/-- A word with a nonzero `rsv`, with a nonzero `imm` beside an opcode other than 2, or with an opcode above 8 is no
command's word (R75, R76). -/
theorem decodeWord_of_malformed {w : Word}
    (h : w.toNat / 256 % 16 ≠ 0 ∨ (w.toNat % 256 ≠ 0 ∧ w.toNat / 4096 ≠ 2) ∨ 9 ≤ w.toNat / 4096) :
    decodeWord w = none := by
  refine Option.eq_none_iff_forall_ne_some.2 fun i hi => ?_
  obtain rfl := encode_of_decodeWord hi
  have hw := encode_toNat i
  have himm : (immOf i).toNat < 256 := (immOf i).isLt
  obtain hop | ⟨hop, hzero⟩ := opcode_immOf_cases i <;> omega

/-- Outside FAULT a word that decodes to Illegal enters the fault. -/
theorem present_illegal {w : Word} (hw : decodeWord w = none) {s : State} (hphase : s.phase ≠ .fault) :
    present w s = .next (raise .illegalCommand 0 w s) := by
  rw [present_of_none hw, illegalWord, if_neg hphase]

/-- Settles O7: a malformed word decodes to Illegal, and fault entry writes the fault registers and PHASE only. -/
theorem malformedWordRaisesIllegalCommand : Obligations.MalformedWordRaisesIllegalCommand := by
  intro s w rest hhost hphase hw
  have hstep : step s = .next (raise .illegalCommand 0 w { s with host := rest }) :=
    (step_of_word hhost).trans (present_illegal (decodeWord_of_malformed hw) hphase)
  exact ⟨_, hstep, rfl, rfl, rfl, rfl, ⟨rfl, fun _ => rfl⟩, fun _ => rfl, ⟨fun _ => rfl, rfl, rfl, rfl, rfl, rfl⟩,
    fun _ => rfl, ⟨rfl, rfl⟩, ⟨rfl, rfl⟩, rfl, rfl, rfl, rfl⟩

/-- In FAULT a command other than CLEAR changes nothing: NOP executes, the others are ignored (R78, R80). -/
theorem exec_of_fault {i : Instr} (hclear : i ≠ .clear) {s : State} (hphase : s.phase = .fault) :
    exec i s = .next s := by
  cases i with
  | clear => exact absurd rfl hclear
  | nop => exact exec_of_ok (by rw [hphase]; rfl)
  | lds | seqclr | count | build | derive | pack | encode => rw [exec_eq, issue_of_ign (by rw [hphase]; rfl)]

/-- In FAULT an illegal word is ignored too, and CLEAR is the only command with the word `0x1000`. -/
theorem present_of_fault {w : Word} (hw : w ≠ 0x1000#16) {s : State} (hphase : s.phase = .fault) :
    present w s = .next s := by
  cases hdec : decodeWord w with
  | none => rw [present_of_none hdec, illegalWord, if_pos hphase]
  | some i =>
    have hclear : i ≠ .clear := by
      rintro rfl
      exact hw (encode_of_decodeWord hdec).symm
    rw [present_of_some hdec, exec_of_fault hclear hphase]

/-- Settles O8: the port changes nothing, so the step only takes the word off. -/
theorem faultIgnoresEveryWordButClear : Obligations.FaultIgnoresEveryWordButClear := fun _ _ _ hhost hphase hw =>
  (step_of_word hhost).trans (present_of_fault hw hphase)

end Sys2Proof.Machine

/-! Proofs for the family of 40_control.md: what NOP, CLEAR, LDS and SEQCLR change and what they leave (R91 to R95). -/

namespace Sys2Proof.Machine

/-! ## The phases each command executes in (R78): the converses of `phase_of_lds_ok` and `phase_of_seqclr_ok` -/

theorem legality_nop (ph : Phase) : legality .nop ph = .ok := by cases ph <;> rfl

theorem legality_clear (ph : Phase) : legality .clear ph = .ok := by cases ph <;> rfl

theorem legality_lds_of_phase {ph : Phase} (h : ph = .load ∨ ph = .derived) (imm : Byte) :
    legality (.lds imm) ph = .ok := by
  obtain rfl | rfl := h <;> rfl

theorem legality_seqclr_of_phase {ph : Phase} (h : ph = .load ∨ ph = .derived ∨ ph = .done) :
    legality .seqclr ph = .ok := by
  obtain rfl | rfl | rfl := h <;> rfl

/-! ## LDS (R93, R94) -/

theorem exec_lds_of_room {s : State} (hphase : s.phase = .load ∨ s.phase = .derived) (hroom : s.nsym ≠ s.cfg.nMax)
    (imm : Byte) : exec (.lds imm) s = .next (appendSymbol imm s) :=
  (exec_of_ok (legality_lds_of_phase hphase imm)).trans (congrArg Host.Outcome.next (if_neg hroom))

theorem exec_lds_at_capacity {s : State} (hphase : s.phase = .load ∨ s.phase = .derived) (hfull : s.nsym = s.cfg.nMax)
    (imm : Byte) : exec (.lds imm) s = .next (raise .seqOverflow s.cfg.nMax (encode (.lds imm)) s) :=
  (exec_of_ok (legality_lds_of_phase hphase imm)).trans (congrArg Host.Outcome.next (if_pos hfull))

/-- Below the capacity the add of NSYM does not wrap. -/
theorem appendSymbol_nsym_of_lt {s : State} (hroom : s.nsym < s.cfg.nMax) (imm : Byte) :
    (appendSymbol imm s).nsym = s.nsym + 1 := Nat.mod_eq_of_lt (lt_two_pow_wFreq hroom)

theorem indepAfterLds_eq_ite (ph : Phase) (old : Bool) :
    indepAfterLds ph old = if ph = .derived then true else old := by cases ph <;> rfl

/-- Settles O22: with room left LDS is `appendSymbol`, which writes one byte of SEQ, NSYM and INDEP. -/
theorem ldsAppendsTheSymbol : Obligations.LdsAppendsTheSymbol := fun s imm hphase hroom =>
  ⟨appendSymbol imm s, exec_lds_of_room hphase hroom.ne imm, appendSymbol_nsym_of_lt hroom imm,
    (seqAt_appendSymbol imm s s.nsym).trans (if_pos rfl),
    fun a ha => (seqAt_appendSymbol imm s a).trans (if_neg ha),
    rfl, indepAfterLds_eq_ite s.phase s.indep, rfl, fun _ => rfl, ⟨fun _ => rfl, rfl, rfl, rfl, rfl, rfl⟩, fun _ => rfl,
    ⟨rfl, rfl, rfl⟩, ⟨rfl, rfl⟩, ⟨rfl, rfl⟩, rfl, rfl⟩

/-- Settles O23: at capacity LDS is fault entry, which writes the fault registers and PHASE only. -/
theorem ldsAtCapacityRaisesSeqOverflow : Obligations.LdsAtCapacityRaisesSeqOverflow := fun _ imm hphase hfull =>
  ⟨_, exec_lds_at_capacity hphase hfull imm, rfl, rfl, rfl, encode_lds_eq_iff.1 (Eq.refl (encode (.lds imm))),
    ⟨rfl, fun _ => rfl⟩, fun _ => rfl, ⟨fun _ => rfl, rfl, rfl, rfl, rfl, rfl⟩, fun _ => rfl, ⟨rfl, rfl⟩, ⟨rfl, rfl⟩,
    ⟨rfl, rfl⟩, rfl, rfl⟩

/-! ## NOP and CLEAR (R91, R92) -/

/-- Settles O20: NOP executes in every phase, and its body is the identity. -/
theorem nopChangesNothing : Obligations.NopChangesNothing :=
  ⟨by decide, fun s => exec_of_ok (legality_nop s.phase)⟩

theorem exec_clear (s : State) : exec .clear s = .next (resetEngine s) := exec_of_ok (legality_clear s.phase)

/-- Settles O21: CLEAR is `resetEngine` in every phase, which has every field at the value of R46. -/
theorem clearRestoresResetState : Obligations.ClearRestoresResetState := fun s =>
  ⟨resetEngine s, exec_clear s, rfl, rfl, rfl, rfl, rfl, rfl, rfl, rfl, rfl, rfl, rfl, rfl, freqAt_resetEngine s,
    nodeAt_resetEngine s, rfl, codeAt_resetEngine s, rfl, seqAt_resetEngine s, ⟨rfl, rfl⟩, ⟨rfl, rfl⟩⟩

/-! ## SEQCLR (R95) -/

theorem exec_seqclr {s : State} (hphase : s.phase = .load ∨ s.phase = .derived ∨ s.phase = .done) :
    exec .seqclr s = .next (seqclrBody s) := exec_of_ok (legality_seqclr_of_phase hphase)

/-- INDEP and PHASE after SEQCLR, in the phases it executes in (R26, R28). -/
theorem seqclrBody_indep_phase {s : State} (hphase : s.phase = .load ∨ s.phase = .derived ∨ s.phase = .done) :
    (seqclrBody s).indep = (if s.phase = .load then s.indep else true) ∧
      (seqclrBody s).phase = (if s.phase = .load then .load else .derived) := by
  rw [seqclrBody_indep, seqclrBody_phase]
  obtain hphase | hphase | hphase := hphase <;> rw [hphase] <;> exact ⟨rfl, rfl⟩

/-- Settles O24: where SEQCLR executes it is `seqclrBody`, which writes NSYM, INDEP and PHASE only. -/
theorem seqclrEmptiesTheSequence : Obligations.SeqclrEmptiesTheSequence := by
  refine ⟨by decide, fun s hphase => ?_⟩
  obtain ⟨hindep, hnext⟩ := seqclrBody_indep_phase hphase
  exact ⟨seqclrBody s, exec_seqclr hphase, rfl, seqAt_seqclrBody s, hindep, hnext, rfl, rfl, freqAt_seqclrBody s,
    ⟨nodeAt_seqclrBody s, rfl, rfl, rfl, rfl, rfl⟩, codeAt_seqclrBody s, ⟨rfl, rfl, rfl⟩, ⟨rfl, rfl⟩, ⟨rfl, rfl⟩, rfl⟩

end Sys2Proof.Machine

/-! Proofs for the family of 41_count.md: COUNT counts every symbol, or stops at the first one outside the alphabet
(R100 to R105). Both are read off `countBody_counts`, which says what COUNT does with a sequence that fits. -/

namespace Sys2Proof.Machine

theorem exec_count {s : State} (hphase : s.phase = .load) : exec .count s = .next (countBody s) :=
  exec_of_ok (by rw [hphase]; rfl)

/-- The counts, as R100 counts indices. -/
theorem CountsOf.countP {s : State} {f : Tab Nat} {m : Nat} (h : CountsOf s f m) (v : Nat) :
    tabGet 0 f v = (List.range m).countP fun j => (seqAt s j).toNat == v :=
  (h.counts v).trans (countFrom_zero_eq s m v)

/-- COUNT raises SymbolOutOfRange only at a symbol outside the alphabet (R102). -/
theorem outside_of_countBody_eq_raise {s t : State} {c : Cause} {m : Nat} {info : Word}
    (h : countBody s = raise c m info t) : s.cfg.alphabet ≤ (seqAt s m).toNat := by
  obtain ⟨f, hdone | ⟨j, -, hbad, hraise⟩⟩ := countBody_cases s
  · exact absurd (congrArg State.phase (hdone.symm.trans h)) nofun
  · obtain rfl : j = m := congrArg State.fidx (hraise.symm.trans h)
    exact hbad

/-- With every symbol inside the alphabet there is nothing to stop at, so COUNT completes (R101). -/
theorem countBody_of_inside {s : State} (hn : s.nsym ≤ s.cfg.nMax)
    (hinside : ∀ i < s.nsym, (seqAt s i).toNat < s.cfg.alphabet) :
    ∃ f, CountsOf s f s.nsym ∧ countBody s = countDone { s with freq := f } := by
  obtain ⟨f, m, hcounts, ⟨rfl, hdone⟩ | ⟨hm, hraise⟩⟩ := countBody_counts hn
  · exact ⟨f, hcounts, hdone⟩
  · exact absurd (hinside m hm) (Nat.not_lt.2 (outside_of_countBody_eq_raise hraise))

/-- COUNT stops at index `i` when the symbol there is the first outside the alphabet: not after it, since what it counts
is inside, and not before it, since it stops only outside (R102). -/
theorem countBody_of_first_outside {s : State} {i : Nat} (hn : s.nsym ≤ s.cfg.nMax) (hi : i < s.nsym)
    (hbad : s.cfg.alphabet ≤ (seqAt s i).toNat) (hfirst : ∀ j < i, (seqAt s j).toNat < s.cfg.alphabet) :
    ∃ f, CountsOf s f i ∧ countBody s = raise .symbolOutOfRange i (zext16 (seqAt s i)) { s with freq := f } := by
  obtain ⟨f, m, hcounts, h⟩ := countBody_counts hn
  have hmi : m ≤ i := Nat.le_of_not_lt fun him => Nat.not_lt.2 hbad (hcounts.inside i him)
  obtain ⟨hm, -⟩ | ⟨-, hraise⟩ := h
  · omega
  · have him : i ≤ m := Nat.le_of_not_lt fun hmi =>
      Nat.not_lt.2 (outside_of_countBody_eq_raise hraise) (hfirst m hmi)
    obtain rfl : m = i := Nat.le_antisymm hmi him
    exact ⟨f, hcounts, hraise⟩

theorem zext16_toNat (v : Byte) : (zext16 v).toNat = v.toNat := BitVec.toNat_setWidth_of_le (by decide)

/-- Settles O25: COUNT ends as `countDone` over the table of counts, which writes FREQ, EMPTY and PHASE only. -/
theorem countCountsEverySymbol : Obligations.CountCountsEverySymbol := by
  intro s hphase hn hinside
  obtain ⟨f, hcounts, hdone⟩ := countBody_of_inside hn hinside
  exact ⟨countDone { s with freq := f }, (exec_count hphase).trans (congrArg Host.Outcome.next hdone), rfl,
    hcounts.countP, rfl, rfl, ⟨rfl, fun _ => rfl⟩, ⟨fun _ => rfl, rfl, rfl, rfl, rfl, rfl⟩, fun _ => rfl,
    ⟨rfl, rfl, rfl⟩, ⟨rfl, rfl⟩, ⟨rfl, rfl⟩, rfl, rfl⟩

/-- Settles O26: COUNT ends in fault entry over the table of the counts so far, which writes FREQ, the fault registers
and PHASE only. -/
theorem countStopsAtFirstOutOfRange : Obligations.CountStopsAtFirstOutOfRange := by
  intro s i hphase hn hi hbad hfirst
  obtain ⟨f, hcounts, hraise⟩ := countBody_of_first_outside hn hi hbad hfirst
  exact ⟨raise .symbolOutOfRange i (zext16 (seqAt s i)) { s with freq := f },
    (exec_count hphase).trans (congrArg Host.Outcome.next hraise), rfl, rfl, rfl, zext16_toNat _, hcounts.countP,
    ⟨rfl, fun _ => rfl⟩, ⟨fun _ => rfl, rfl, rfl, rfl, rfl, rfl⟩, fun _ => rfl, ⟨rfl, rfl⟩, ⟨rfl, rfl⟩, ⟨rfl, rfl⟩,
    rfl, rfl⟩

end Sys2Proof.Machine

/-! Proofs for the family of 42_build.md: what one merge does (R112 to R116), the leaves, the tree and the results
without a merge (R115, R118, R119), and why the tree is optimal (R123). `Built` says what the loops of BUILD make, and
`treeOk_buildResult` that it is a tree. -/

namespace Sys2Proof.Machine

theorem exec_build {s : State} (hphase : s.phase = .counted) : exec .build s = .next (buildBody s) :=
  exec_of_ok (by rw [hphase]; rfl)

theorem exec_derive {s : State} (hphase : s.phase = .built) : exec .derive s = .next (deriveBody s) :=
  exec_of_ok (by rw [hphase]; rfl)

/-! ## One merge (R112, R113, R116) -/

/-- Settles O27: `merge_facts` names the two members and the new node; no other slot and no other register changes. -/
theorem mergeJoinsTheTwoLightest : Obligations.MergeJoinsTheTwoLightest := by
  intro s hsorted hlen hcnt hlt hsum
  obtain ⟨x, y, m⟩ := merge_facts s hsorted hlen hlt fun x hx y hy hxy => lt_two_pow_wFreq (hsum x hx y hy hxy)
  have f := onlyNodes_mergeOnce s
  have hpqcnt : (mergeOnce s).pqcnt = s.pqcnt - 1 := by
    rw [mergeOnce_pqcnt]
    omega
  exact ⟨x, y, m.hx, m.hy, m.hyx.symm, fun k hk hkx => (before_iff s x k).1 (m.xmin k hk hkx),
    fun k hk hkx hky => (before_iff s y k).1 (m.ymin k hk hkx hky), (m.node _).trans (if_pos rfl),
    fun k hk => (m.node k).trans (if_neg hk), m.mem hsorted, m.nnode, hpqcnt, f.nleaf, f.root, f.phase⟩

/-! ## The leaves (R115) -/

@[simp] theorem buildBody_nleaf (s : State) : (buildBody s).nleaf = (syms s).length :=
  (onlyNodes_mergeLoop _ _).nleaf.trans (seed_facts s).nnode

/-- No merge writes a leaf, so BUILD leaves the one that seeding made. -/
theorem nodeAt_buildBody_leaf {s : State} {k : Nat} (hk : k < (syms s).length) :
    nodeAt (buildBody s) k = leafRec s.cfg (syms s)[k] (freqAt s (syms s)[k]) := by
  have hlt : k < (countLeaves (seedLoop s)).nnode := hk.trans_eq (seed_facts s).nnode.symm
  show nodeAt (mergeLoop s.cfg.alphabet (countLeaves (seedLoop s))) k = _
  rw [nodeAt_mergeLoop_below _ _ hlt]
  exact seed_leaf s k hk

section
variable {s : State} (hw : s.cfg.wf)
include hw

theorem sym_buildBody_leaf {k : Nat} (hk : k < (syms s).length) :
    (nodeAt (buildBody s) k).sym.toNat = (syms s)[k] := by
  rw [nodeAt_buildBody_leaf hk, leafRec_sym_toNat hw (mem_syms_getElem hk).1]

/-- The symbols of the leaves, from slot 0 on, are the counted symbols in ascending order. -/
theorem map_sym_buildBody :
    (List.range (syms s).length).map (fun k => (nodeAt (buildBody s) k).sym.toNat) = syms s := by
  refine List.ext_getElem (by rw [List.length_map, List.length_range]) fun k _ hk => ?_
  rw [List.getElem_map, List.getElem_range, sym_buildBody_leaf hw hk]

end

/-- Settles O28: the leaves are those that seeding made, one per counted symbol. -/
theorem buildSeedsLeavesInSymbolOrder : Obligations.BuildSeedsLeavesInSymbolOrder := by
  intro s hw hphase
  refine ⟨buildBody s, exec_build hphase, rfl, ?_, fun k hk => ?_⟩
  · rw [buildBody_nleaf]
    exact map_sym_buildBody hw
  · rw [buildBody_nleaf] at hk
    rw [sym_buildBody_leaf hw hk, nodeAt_buildBody_leaf hk]
    exact ⟨rfl, rfl, rfl, rfl, rfl, rfl⟩

/-! ## The tree (R119, R171 to R173) -/

/-- The counts sum to NSYM (R170). -/
theorem freqSum_of_countsOk {s : State} (h : countsOk s) : freqSum s = s.nsym := by
  obtain ⟨hinside, hcounts⟩ := h
  calc freqSum s
      = ((List.range s.cfg.alphabet).map fun v =>
          (List.range s.nsym).countP fun j => (seqAt s j).toNat == v).sum := by
        refine congrArg List.sum (List.map_congr_left fun v hv => ?_)
        rw [hcounts v (List.mem_range.1 hv), occurrences_eq_countFrom, countFrom_zero_eq]
    _ = s.nsym := sum_countP_range _ _ _ hinside

/-- The root weighs what all symbols weigh. -/
theorem Built.root_freq {s t : State} (b : Built s t) (hL : 0 < (syms s).length) :
    (nodeAt t (buildResult t).root).freq = freqSum s := by
  have htotal := b.inv.total
  rw [(b.pq_eq hL).2, List.map_singleton, List.sum_singleton] at htotal
  rw [b.root_eq, if_neg hL.ne', htotal]

/-- What the frame of BUILD keeps. -/
theorem OnlyTree.same {s t : State} (h : OnlyTree s t) :
    sameSeq s t ∧ sameFreq s t ∧ sameCode s t ∧ sameFlags s t ∧ sameFault s t ∧ sameSink s t ∧ sameWorld s t ∧
      t.bitcnt = s.bitcnt ∧ t.scope = s.scope := by
  rw [h.eq]
  exact ⟨⟨rfl, fun _ => rfl⟩, fun _ => rfl, fun _ => rfl, ⟨rfl, rfl⟩, ⟨rfl, rfl, rfl⟩, ⟨rfl, rfl⟩, ⟨rfl, rfl⟩, rfl, rfl⟩

/-- Settles O29: the tree and the missing paths are what the invariant says in BUILT; the root's weight is the total
that every merge keeps. -/
theorem buildMakesTheTree : Obligations.BuildMakesTheTree := by
  intro s h hphase
  have ht := invariant_buildBody h hphase
  have hpqcnt := ht.forms.pqcnt
  obtain ⟨-, -, -, -, -, hbuilt⟩ := ht
  obtain ⟨⟨-, htree, ⟨hpaths, -⟩, -, -⟩, -⟩ := (phaseOk_iff_built rfl).1 hbuilt
  obtain ⟨-, -, -, -, hsum, hcounted⟩ := h
  obtain ⟨⟨hcounts, ⟨hnode, -⟩, -⟩, -⟩ := (phaseOk_iff_counted hphase).1 hcounted
  have b := built s (lt_two_pow_wFreq hsum)
  refine ⟨buildBody s, exec_build hphase, rfl, htree, hpqcnt, fun k hk => (hpaths k hk).1,
    fun k hk => nodeAt_buildBody_unused b hnode hk, fun hL => ?_, (buildBody_frame s).same⟩
  rw [buildBody_nleaf] at hL
  exact (b.root_freq hL).trans (freqSum_of_countsOk hcounts)

/-! ## One or no counted symbol (R118) -/

theorem mergeLoop_of_le_one (n : Nat) {s : State} (h : s.pqcnt ≤ 1) : mergeLoop n s = s := by
  cases n with
  | zero => rfl
  | succ n => exact if_neg (Nat.not_lt.2 h)

/-- With at most one counted symbol nothing is merged, so BUILD ends with what seeding made. -/
theorem buildBody_of_le_one {s : State} (h : (syms s).length ≤ 1) :
    (buildBody s).nnode = (syms s).length ∧ (buildBody s).pqcnt = (syms s).length ∧
      (buildBody s).pq = List.range' 0 (syms s).length ∧
      (buildBody s).root = (if (syms s).length = 1 then 0 else s.cfg.noNode) ∧
      ∀ k, (syms s).length ≤ k → nodeAt (buildBody s) k = nodeAt s k := by
  have f := seed_facts s
  have hcfg : (seedLoop s).cfg = s.cfg := (onlyNodes_seedLoop s).cfg
  have hbuild : buildBody s = buildResult (countLeaves (seedLoop s)) :=
    congrArg buildResult (mergeLoop_of_le_one _ (f.pqcnt.trans_le h))
  rw [hbuild]
  refine ⟨f.nnode, f.pqcnt, f.pq, ?_, f.other⟩
  show (if (seedLoop s).pqcnt = 1 then (seedLoop s).pq.headD (seedLoop s).cfg.noNode else (seedLoop s).cfg.noNode) = _
  rw [f.pqcnt, f.pq, hcfg]
  split
  · rename_i hone
    rw [hone]
    rfl
  · rfl

theorem syms_eq_nil {s : State} (h : ∀ v < s.cfg.alphabet, freqAt s v = 0) : syms s = [] := by
  refine List.eq_nil_iff_forall_not_mem.2 fun v hv => ?_
  obtain ⟨hlt, hpos⟩ := (mem_syms s v).1 hv
  exact hpos.ne' (h v hlt)

theorem syms_eq_singleton {s : State} {v : Nat} (hv : v < s.cfg.alphabet) (hpos : 0 < freqAt s v)
    (h : ∀ u < s.cfg.alphabet, u ≠ v → freqAt s u = 0) : syms s = [v] := by
  have hnodup : (syms s).Nodup := (syms_sorted s).imp Nat.ne_of_lt
  refine List.perm_singleton.1 ((List.perm_ext_iff_of_nodup hnodup (List.nodup_singleton v)).2 fun u => ?_)
  rw [mem_syms, List.mem_singleton]
  constructor
  · rintro ⟨hu, hupos⟩
    by_contra hne
    exact hupos.ne' (h u hu hne)
  · rintro rfl
    exact ⟨hv, hpos⟩

/-- Settles O30: nothing is merged, and seeding made no node or one leaf. -/
theorem buildOfOneOrNoSymbol : Obligations.BuildOfOneOrNoSymbol := by
  intro s hw hphase
  obtain ⟨-, -, -, -, hfault, -⟩ := (buildBody_frame s).same
  have hnleaf := buildBody_nleaf s
  refine ⟨fun hzero => ?_, fun v hv hpos hzero => ?_⟩
  · have hL : (syms s).length = 0 := List.length_eq_zero_iff.2 (syms_eq_nil hzero)
    obtain ⟨hnnode, hpqcnt, hpq, hroot, hother⟩ := buildBody_of_le_one (hL.trans_le (Nat.zero_le 1))
    rw [hL] at hnleaf hnnode hpqcnt hpq hroot hother
    exact ⟨buildBody s, exec_build hphase, rfl, hroot, hnnode, hnleaf, hpqcnt, hpq, hfault,
      fun k => hother k (Nat.zero_le k)⟩
  · have hsyms := syms_eq_singleton hv hpos hzero
    have hL : (syms s).length = 1 := congrArg List.length hsyms
    have hleaf : nodeAt (buildBody s) 0 = leafRec s.cfg v (freqAt s v) := by
      rw [nodeAt_buildBody_leaf (hL.symm ▸ Nat.one_pos)]
      simp only [hsyms, List.getElem_cons_zero]
    obtain ⟨hnnode, hpqcnt, hpq, hroot, hother⟩ := buildBody_of_le_one hL.le
    rw [hL] at hnleaf hnnode hpqcnt hpq hroot hother
    refine ⟨buildBody s, exec_build hphase, rfl, hroot, hnnode, hnleaf, hpqcnt, hpq, hfault, ?_, ?_, ?_,
      fun k hk => hother k (Nat.pos_of_ne_zero hk)⟩ <;> rw [hleaf]
    · rfl
    · exact leafRec_sym_toNat hw hv _
    · rfl

/-! ## Optimality (R123)

For any lengths of the members of PQ that meet Kraft's inequality, the members after a merge have lengths that cost less
by the weight of the new node (`MergeFacts.exists_cheaper`). Added up over the merges, the weight of the internal nodes
is at most the cost of any code in which no word begins another, and it is the cost of the tree's own paths
(`tree_cost`). -/

/-- The weight of the nodes from slot `a` on. -/
def weightFrom (t : State) (a : Nat) : Nat := ((List.range' a (t.nnode - a)).map fun k => (nodeAt t k).freq).sum

theorem weightFrom_nnode (t : State) : weightFrom t t.nnode = 0 := by
  rw [weightFrom, Nat.sub_self]
  rfl

theorem weightFrom_of_lt {t : State} {a : Nat} (h : a < t.nnode) :
    weightFrom t a = (nodeAt t a).freq + weightFrom t (a + 1) := by
  obtain ⟨n, hn⟩ := Nat.exists_eq_add_of_lt h
  rw [weightFrom, weightFrom, show t.nnode - a = n + 1 by omega, show t.nnode - (a + 1) = n by omega,
    List.range'_succ, List.map_cons, List.sum_cons]

theorem cost_congr {l : List Nat} {w w' f f' : Nat → Nat} (hw : ∀ i ∈ l, w i = w' i) (hf : ∀ i ∈ l, f i = f' i) :
    cost l w f = cost l w' f' :=
  congrArg List.sum (List.map_congr_left fun i hi => by rw [hw i hi, hf i hi])

theorem cost_append_singleton (l : List Nat) (i : Nat) (w f : Nat → Nat) :
    cost (l ++ [i]) w f = cost l w f + w i * f i := by
  simp [cost]

theorem cost_map (l : List Nat) (g w f : Nat → Nat) : cost (l.map g) w f = cost l (w ∘ g) (f ∘ g) := by
  rw [cost, List.map_map]
  rfl

theorem kraft_map {m : Nat} {l : List Nat} {g f : Nat → Nat} : Kraft m (l.map g) f ↔ Kraft m l (f ∘ g) := by
  simp [Kraft, List.map_map, Function.comp_def]

/-- A merge: the members after it can be given lengths that cost less by the weight of the new node. -/
theorem MergeFacts.exists_cheaper {s t : State} {x y m : Nat} (h : MergeFacts s t x y) (hsorted : s.pq.Pairwise (· < ·))
    (hlt : ∀ k ∈ s.pq, k < s.nnode) {f : Nat → Nat} (hk : Kraft m s.pq f) :
    ∃ f', Kraft m t.pq f' ∧
      (nodeAt t s.nnode).freq + cost t.pq (fun k => (nodeAt t k).freq) f' ≤
        cost s.pq (fun k => (nodeAt s k).freq) f := by
  have hxmin : ∀ k ∈ s.pq, (nodeAt s x).freq ≤ (nodeAt s k).freq := fun k hk => by
    by_cases hkx : k = x
    · rw [hkx]
    · have := (before_iff s x k).1 (h.xmin k hk hkx)
      omega
  have hymin : ∀ k ∈ s.pq, k ≠ x → (nodeAt s y).freq ≤ (nodeAt s k).freq := fun k hk hkx => by
    by_cases hky : k = y
    · rw [hky]
    · have := (before_iff s y k).1 (h.ymin k hk hkx hky)
      omega
  obtain ⟨g, d, hg, hd, hkraft, hcost⟩ := kraft_merge (hsorted.imp Nat.ne_of_lt)
    (w := fun k => (nodeAt s k).freq) h.hx h.hy h.hyx hxmin hymin hk
  have hrest : ∀ k ∈ (s.pq.erase x).erase y, k < s.nnode := fun k hk =>
    hlt k (List.mem_of_mem_erase (List.mem_of_mem_erase hk))
  have hold : ∀ k ∈ (s.pq.erase x).erase y, Function.update g s.nnode d k = g k := fun k hk =>
    Function.update_of_ne (hrest k hk).ne d g
  have hnew : (nodeAt t s.nnode).freq = (nodeAt s x).freq + (nodeAt s y).freq := by
    rw [h.node, if_pos rfl]
    rfl
  refine ⟨Function.update g s.nnode d, ⟨fun k hk => ?_, ?_⟩, ?_⟩
  · rw [h.pq, List.mem_append, List.mem_singleton] at hk
    obtain hk | rfl := hk
    · rw [hold k hk]
      exact hg k hk
    · rwa [Function.update_self]
  · rw [h.pq, List.map_append, List.sum_append, List.map_singleton, List.sum_singleton, Function.update_self,
      List.map_congr_left fun k hk => by rw [hold k hk]]
    exact hkraft
  · rw [h.pq, cost_append_singleton, Function.update_self, hnew,
      cost_congr (fun k hk => by rw [h.old (hrest k hk)]) hold]
    omega

theorem nnode_le_mergeLoop (n : Nat) (s : State) : s.nnode ≤ (mergeLoop n s).nnode := by
  induction n generalizing s with
  | zero => exact Nat.le_refl _
  | succ n ih =>
    unfold mergeLoop
    split
    · exact (Nat.le_succ _).trans (ih (mergeOnce s))
    · exact Nat.le_refl _

/-- The nodes that the merge loop makes weigh at most what any lengths that meet Kraft's inequality cost. -/
theorem weightFrom_mergeLoop_le {L tot m : Nat} (n : Nat) {s : State} (h : MergeInv L tot s)
    (hn : tot < 2 ^ s.cfg.wFreq) {f : Nat → Nat} (hk : Kraft m s.pq f) :
    weightFrom (mergeLoop n s) s.nnode ≤ cost s.pq (fun k => (nodeAt s k).freq) f := by
  induction n generalizing s f with
  | zero =>
    show weightFrom s s.nnode ≤ _
    rw [weightFrom_nnode]
    exact Nat.zero_le _
  | succ n ih =>
    unfold mergeLoop
    split
    · rename_i hc
      obtain ⟨x, y, hm⟩ := merge_facts s h.sorted (h.cnt ▸ hc) h.lt (merge_pairs h hn)
      obtain ⟨f', hk', hcost⟩ := hm.exists_cheaper h.sorted h.lt hk
      have hrest := ih (mergeOnce_keeps L tot s h hn hc) (by rw [(onlyNodes_mergeOnce s).cfg]; exact hn) hk'
      have hlt : s.nnode < (mergeLoop n (mergeOnce s)).nnode := nnode_le_mergeLoop n (mergeOnce s)
      have hnew : nodeAt (mergeLoop n (mergeOnce s)) s.nnode = nodeAt (mergeOnce s) s.nnode :=
        nodeAt_mergeLoop_below n (mergeOnce s) (Nat.lt_succ_self s.nnode)
      rw [mergeOnce_nnode] at hrest
      rw [weightFrom_of_lt hlt, hnew]
      omega
    · rw [weightFrom_nnode]
      exact Nat.zero_le _

/-- The internal nodes of the tree weigh at most what any lengths of the counted symbols cost. -/
theorem weightFrom_buildBody_le {s : State} (hw : s.cfg.wf) (hsum : freqSum s ≤ s.cfg.nMax) {m : Nat}
    {f : Nat → Nat} (hk : Kraft m (syms s) f) :
    weightFrom (buildBody s) (buildBody s).nleaf ≤ cost (syms s) (freqAt s) f := by
  have hseed := seed_facts s
  have hpq : (countLeaves (seedLoop s)).pq = List.range (syms s).length := hseed.pq.trans List.range_eq_range'.symm
  have hcfg : (countLeaves (seedLoop s)).cfg = s.cfg := (onlyNodes_seedLoop s).cfg
  have hmap := map_sym_buildBody hw
  rw [← hmap, kraft_map, ← hpq] at hk
  have hle := weightFrom_mergeLoop_le s.cfg.alphabet (seed_inv s) (by rw [hcfg]; exact lt_two_pow_wFreq hsum) hk
  have hnnode : (countLeaves (seedLoop s)).nnode = (buildBody s).nleaf :=
    hseed.nnode.trans (buildBody_nleaf s).symm
  rw [hnnode, hpq] at hle
  rw [← hmap, cost_map]
  refine hle.trans_eq (cost_congr (fun k hk => ?_) fun _ _ => rfl)
  have hk := List.mem_range.1 hk
  show (nodeAt (seedLoop s) k).freq = freqAt s (nodeAt (buildBody s) k).sym.toNat
  rw [sym_buildBody_leaf hw hk, seed_leaf s k hk]
  rfl

/-- When no counted symbol's word begins another's, the lengths of the words meet Kraft's inequality. -/
theorem exists_kraft_of_prefixFree {s : State} {c : Nat → List Bool}
    (hc : ∀ a < s.cfg.alphabet, ∀ b < s.cfg.alphabet, a ≠ b → 0 < freqAt s a → 0 < freqAt s b → ¬ (c a <+: c b)) :
    ∃ m, Kraft m (syms s) fun v => (c v).length := by
  have hle : ∀ v ∈ syms s, (c v).length ≤ ((syms s).map fun v => (c v).length).sum := fun v hv =>
    le_sum_map (syms s) (fun v => (c v).length) hv
  have hapart : ((syms s).map c).Pairwise Apart := by
    refine List.pairwise_map.2 ((syms_sorted s).imp_of_mem fun {a b} ha hb hab => ?_)
    obtain ⟨ha, hapos⟩ := (mem_syms s a).1 ha
    obtain ⟨hb, hbpos⟩ := (mem_syms s b).1 hb
    exact ⟨hc a ha b hb hab.ne hapos hbpos, hc b hb a ha hab.ne' hbpos hapos⟩
  have hkraft := kraft_of_apart _ _ hapart (List.forall_mem_map.2 hle)
  rw [List.map_map] at hkraft
  exact ⟨_, hle, hkraft⟩

/-- The counted symbols are some of the symbols. -/
theorem cost_syms_le (s : State) (w f : Nat → Nat) :
    cost (syms s) w f ≤ cost (List.range s.cfg.alphabet) w f :=
  (List.filter_sublist.map _).sum_le_sum fun _ _ => Nat.zero_le _

/-- The weighted length of the paths DERIVE gives is the weight of the internal nodes BUILD made. -/
theorem path_cost_deriveBody {s : State} (h : Invariant s) (hphase : s.phase = .built) :
    ((List.range (deriveBody s).nleaf).map fun k =>
      (nodeAt (deriveBody s) k).freq * (nodeAt (deriveBody s) k).plen).sum = weightFrom s s.nleaf := by
  have f := deriveBody_frame s
  obtain ⟨-, -, -, -, -, hderived⟩ := invariant_deriveBody h hphase
  obtain ⟨⟨-, htree, hpaths, -⟩, -⟩ := (phaseOk_iff_derived rfl).1 hderived
  obtain hL | hL := Nat.eq_zero_or_pos (deriveBody s).nleaf
  · have hnnode := htree.1
    rw [f.nnode, f.nleaf] at hnnode
    rw [f.nleaf] at hL ⊢
    rw [weightFrom, hnnode, hL]
    rfl
  · rw [tree_cost htree hpaths hL, internals, f.nleaf, f.nnode]
    refine congrArg List.sum (List.map_congr_left fun k _ => ?_)
    obtain ⟨-, -, -, hfreq, -⟩ := f.tree k
    exact hfreq

/-- Settles O32: the paths cost what the internal nodes weigh, and by Kraft's inequality no code in which no word begins
another costs less. -/
theorem treeIsOptimal : Obligations.TreeIsOptimal := by
  intro s h hphase
  refine ⟨buildBody s, deriveBody (buildBody s), exec_build hphase, exec_derive rfl, fun c hc => ?_⟩
  obtain ⟨m, hk⟩ := exists_kraft_of_prefixFree hc
  have hpaths := path_cost_deriveBody (invariant_buildBody h hphase) rfl
  obtain ⟨hw, -, -, -, hsum, -⟩ := h
  calc _ = weightFrom (buildBody s) (buildBody s).nleaf := hpaths
    _ ≤ cost (syms s) (freqAt s) fun v => (c v).length := weightFrom_buildBody_le hw hsum hk
    _ ≤ _ := cost_syms_le s _ _

end Sys2Proof.Machine

/-! Proofs for the family of 43_derive.md: what DERIVE leaves when there is a tree, when its root is a leaf, and when
there is none (R131 to R137). The paths and codes of a tree are what `Derived` says, the frame is `OnlyPaths`. -/

namespace Sys2Proof.Machine

/-! ## No tree (R136) -/

/-- Without a tree DERIVE clears CODE and moves to DERIVED. -/
theorem deriveBody_of_no_tree {s : State} (h : s.root = s.cfg.noNode) :
    deriveBody s = setPhase .derived (clearCode s) :=
  congrArg (setPhase .derived) (deriveWalk_of_no_tree (s := clearCode s) h)

/-- Settles O35: without a tree only CODE and PHASE are written. -/
theorem deriveOfNoTreeIsEmpty : Obligations.DeriveOfNoTreeIsEmpty := fun s hphase hroot =>
  ⟨setPhase .derived (clearCode s),
    (exec_derive hphase).trans (congrArg Host.Outcome.next (deriveBody_of_no_tree hroot)), codeAt_clearCode s,
    nodeAt_clearCode s, rfl, ⟨rfl, rfl, rfl⟩, ⟨rfl, fun _ => rfl⟩, fun _ => rfl,
    ⟨fun _ => rfl, rfl, rfl, rfl, rfl, rfl⟩⟩

/-! ## A lone leaf (R135) -/

section
variable {s : State} (hroot : s.root ≠ s.cfg.noNode) (hleaf : (nodeAt s s.root).kind = .leaf)
include hroot hleaf

/-- When the root is a leaf, DERIVE writes its symbol's entry of CODE and its path. -/
theorem deriveBody_of_leaf : deriveBody s =
    setPhase .derived (codeWrite (nodeAt s s.root).sym.toNat loneCode (setPath s.root [] (clearCode s))) :=
  congrArg (setPhase .derived) (deriveWalk_of_leaf (s := clearCode s) hroot hleaf)

theorem codeAt_deriveBody_of_leaf (v : Nat) : codeAt (deriveBody s) v =
    if v = (nodeAt s s.root).sym.toNat then loneCode else noCode := by
  rw [deriveBody_of_leaf hroot hleaf, codeAt_setPhase, codeAt_codeWrite, codeAt_setPath, codeAt_clearCode]

theorem nodeAt_deriveBody_of_leaf (k : Nat) : nodeAt (deriveBody s) k =
    if k = s.root then { nodeAt s s.root with pvalid := true, plen := 0, pbits := 0 } else nodeAt s k := by
  rw [deriveBody_of_leaf hroot hleaf, nodeAt_setPhase, nodeAt_codeWrite, nodeAt_setPath]
  rfl

end

/-- Settles O34: with a leaf at the root one entry of CODE and one path are written. -/
theorem deriveForcesTheLoneCode : Obligations.DeriveForcesTheLoneCode := by
  intro s hphase hroot hleaf
  have hcode := codeAt_deriveBody_of_leaf hroot hleaf
  have hnode := nodeAt_deriveBody_of_leaf hroot hleaf
  have hlone := (hcode (nodeAt s s.root).sym.toNat).trans (if_pos rfl)
  refine ⟨deriveBody s, exec_derive hphase, rfl, hlone, ?_, fun v hv => (hcode v).trans (if_neg hv),
    (hnode s.root).trans (if_pos rfl), fun k hk => (hnode k).trans (if_neg hk)⟩
  rw [codeBits, hlone]
  rfl

/-! ## A tree (R131 to R133, R137) -/

/-- What the frame of DERIVE keeps beside the tree. -/
theorem OnlyPaths.same {s t : State} (f : OnlyPaths s t) :
    sameSeq s t ∧ sameFreq s t ∧ sameFlags s t ∧ sameFault s t ∧ sameSink s t ∧ sameWorld s t ∧
      t.bitcnt = s.bitcnt ∧ t.scope = s.scope :=
  ⟨⟨f.nsym, fun a => by rw [seqAt, seqAt, f.seq]⟩, freqAt_congr f.freq, ⟨f.empty, f.indep⟩,
    ⟨f.cause, f.fidx, f.finfo⟩, ⟨f.log, f.plan⟩, ⟨f.cfg, f.host⟩, f.bitcnt, f.scope⟩

/-- A node in use has its path, and its children's paths are its own with one bit added (R133). -/
theorem Derived.path_children {s t : State} (d : Derived s t) {k : Nat} (hk : k < s.nnode) :
    (nodeAt t k).pvalid = true ∧ ((nodeAt s k).kind = .internal →
      pathOf t (nodeAt s k).left = pathOf t k ++ [false] ∧ pathOf t (nodeAt s k).right = pathOf t k ++ [true]) := by
  obtain ⟨q, hq, hchildren, -⟩ := d.paths k hk
  refine ⟨hq.pvalid, fun hi => ?_⟩
  obtain ⟨hleft, hright⟩ := hchildren hi
  rw [hq.path]
  exact ⟨hleft.path, hright.path⟩

section
variable {s t : State} (h : treeOk s) (f : OnlyPaths s t) (d : Derived s t)
include h f d

/-- Among two or more symbols the code of each is the path of its leaf. -/
theorem codeBits_leaf_of_derived {k : Nat} (hk : k < s.nleaf) (hL : 2 ≤ s.nleaf) :
    codeBits t (nodeAt s k).sym.toNat = pathOf t k := by
  have hcode := codeAt_leaf_of_derived h f d hk
  obtain ⟨-, -, hsym, -⟩ := f.tree k
  rw [hsym, f.nleaf, if_neg (Nat.ne_of_gt hL)] at hcode
  rw [codeBits, hcode]
  rfl

/-- A lone symbol has the forced code. -/
theorem codeAt_lone_of_derived (hL : s.nleaf = 1) : codeAt t (nodeAt s 0).sym.toNat = loneCode := by
  have hcode := codeAt_leaf_of_derived h f d (hL ▸ Nat.one_pos)
  obtain ⟨-, -, hsym, -⟩ := f.tree 0
  rwa [hsym, f.nleaf, if_pos hL] at hcode

end

/-- Settles O33: the walk gives paths and codes as `Derived` says, and changes no more than `OnlyPaths` allows. -/
theorem deriveAssignsPathsAndCodes : Obligations.DeriveAssignsPathsAndCodes := by
  intro s h hphase
  obtain ⟨hcfg, -, -, hwidths, -, hbuilt⟩ := h
  obtain ⟨⟨-, htree, -⟩, -⟩ := (phaseOk_iff_built hphase).1 hbuilt
  have f := deriveBody_frame s
  have d := derived htree hcfg hwidths.nleaf
  obtain ⟨-, habsent⟩ := codesOk_of_derived htree f d
  refine ⟨deriveBody s, exec_derive hphase, rfl, fun hL => f.root ▸ (d.root hL).path, fun k hk => d.path_children hk,
    fun k hk hL => codeBits_leaf_of_derived htree f d hk hL, codeAt_lone_of_derived htree f d, fun v hv hzero => ?_,
    f.tree, d.other, f.pq, f.nleaf, f.nnode, f.root, f.pqcnt, f.same⟩
  exact habsent v (f.cfg ▸ hv) ((freqAt_congr f.freq v).trans hzero)

end Sys2Proof.Machine

/-! Proofs for the family of 44_pack.md: what PACK writes to the sink, where it stops, and how it ends, for every answer
the sink may give (R145 to R155). With the invariant, its end is one of the two that `packBody_outcome` names. -/

namespace Sys2Proof.Machine

theorem exec_pack {s : State} (hphase : s.phase = .derived) : exec .pack s = .next (packBody s) :=
  exec_of_ok (by rw [hphase]; rfl)

/-! ## The end of PACK (R151 to R155) -/

@[simp] theorem packFlush_log (err : Option PackError) (t : State) :
    (packFlush err t).log = t.log ++ [⟨.flush, sinkAnswer t .flush⟩] := packEnd_log _ _ _

@[simp] theorem packFlush_plan (err : Option PackError) (t : State) : (packFlush err t).plan = t.plan.tail :=
  packEnd_plan _ _ _

@[simp] theorem packFlush_bitcnt (err : Option PackError) (t : State) : (packFlush err t).bitcnt = t.bitcnt :=
  packEnd_bitcnt _ _ _

/-- An error of the loop is the fault, whatever the flush answers (R154). -/
theorem packFlush_some (e : PackError) (t : State) :
    packFlush (some e) t = raise e.cause e.idx e.info (closeScope (sinkCall .flush t)) := rfl

/-- Without an error the failure of the flush is the fault (R151). -/
theorem packFlush_of_fail {t : State} (h : sinkAnswer t .flush = .fail) :
    packFlush none t = raise .sinkFailure t.nsym 0#16 (closeScope (sinkCall .flush t)) := by
  rw [packFlush, h]
  rfl

/-- Without an error PACK is done when the flush answers ok. -/
theorem packFlush_of_ok {t : State} (h : sinkAnswer t .flush = .ok) :
    packFlush none t = setPhase .done (closeScope (sinkCall .flush t)) := by
  rw [packFlush, h]
  rfl

/-! ## Where the loop of PACK leaves off -/

/-- The state after the codes of all the symbols up to the first that cannot be packed. -/
def afterCodes (s : State) : State := afterBits (bitsUpTo s (firstUncodable s)) (openScope s)

@[simp] theorem afterCodes_bitcnt (s : State) : (afterCodes s).bitcnt = (bitsUpTo s (firstUncodable s)).length :=
  Nat.zero_add _

@[simp] theorem afterCodes_log (s : State) :
    (afterCodes s).log = s.log ++ accepted (bitsUpTo s (firstUncodable s)) := rfl

@[simp] theorem afterCodes_plan (s : State) :
    (afterCodes s).plan = s.plan.drop (bitsUpTo s (firstUncodable s)).length := rfl

/-- `k` bits into the codes of SEQ, `k` bits being `n` more than the codes of the first `m` symbols. -/
theorem bitsUpTo_at {s : State} {m f n : Nat} (hm : m < f) (hf : f ≤ s.nsym)
    (hn : n < (codeBits s (seqAt s m).toNat).length) :
    (bitsUpTo s f).take ((bitsUpTo s m).length + n) = bitsUpTo s m ++ (codeBits s (seqAt s m).toNat).take n ∧
      (bitsUpTo s f)[(bitsUpTo s m).length + n]? = (codeBits s (seqAt s m).toNat)[n]? := by
  obtain ⟨rest, hrest⟩ := bitsUpTo_prefix s (Nat.succ_le_of_lt hm)
  rw [← hrest, bitsUpTo_succ s (hm.trans_le hf), List.append_assoc]
  constructor
  · rw [List.take_length_add_append, List.take_append_of_le_length hn.le]
  · rw [List.getElem?_append_right (Nat.le_add_right _ _), Nat.add_sub_cancel_left, List.getElem?_append_left hn]

/-- The sink accepts `k` bits of the codes up to the first symbol that cannot be packed, and refuses the next one, `b`,
which belongs to the code of the symbol at index `m` (R151). -/
structure RefusedAt (s : State) (m k : Nat) (b : Bool) : Prop where
  index   : m < firstUncodable s
  first   : (bitsUpTo s m).length ≤ k
  last    : k < (bitsUpTo s (m + 1)).length
  bit     : (bitsUpTo s (firstUncodable s))[k]? = some b
  refused : sinkAnswer (afterBits ((bitsUpTo s (firstUncodable s)).take k) (openScope s)) (.writeBit b) = .fail

theorem RefusedAt.lt_length {s : State} {m k : Nat} {b : Bool} (h : RefusedAt s m k b) :
    k < (bitsUpTo s (firstUncodable s)).length :=
  h.last.trans_le (bitsUpTo_prefix s h.index).length_le

/-- The state in which the loop of PACK leaves off when the sink refuses the bit `b` after `k` accepted ones. -/
def afterRefusal (s : State) (k : Nat) (b : Bool) : State :=
  sinkCall (.writeBit b) (afterBits ((bitsUpTo s (firstUncodable s)).take k) (openScope s))

theorem RefusedAt.bitcnt {s : State} {m k : Nat} {b : Bool} (h : RefusedAt s m k b) :
    (afterRefusal s k b).bitcnt = k :=
  (Nat.zero_add _).trans (List.length_take_of_le h.lt_length.le)

theorem RefusedAt.log {s : State} {m k : Nat} {b : Bool} (h : RefusedAt s m k b) :
    (afterRefusal s k b).log =
      s.log ++ accepted ((bitsUpTo s (firstUncodable s)).take k) ++ [⟨.writeBit b, .fail⟩] := by
  rw [afterRefusal, sinkCall_log, h.refused]
  rfl

/-- The error of the symbol at which PACK stops, if it does not reach the end of SEQ (R148, R149). -/
def uncodableError (s : State) : Option PackError :=
  if firstUncodable s = s.nsym then none else some (symbolError s (firstUncodable s))

theorem uncodableError_of_eq {s : State} (h : firstUncodable s = s.nsym) : uncodableError s = none := if_pos h

theorem uncodableError_of_lt {s : State} (h : firstUncodable s < s.nsym) :
    uncodableError s = some (symbolError s (firstUncodable s)) := if_neg h.ne

/-- What PACK does: it writes the codes up to the first symbol that cannot be packed, unless the sink refuses a bit, and
flushes. -/
theorem packBody_outcome {s : State} (h : Invariant s) :
    packBody s = packFlush (uncodableError s) (afterCodes s) ∨
      ∃ m k b, RefusedAt s m k b ∧
        packBody s = packFlush (some { cause := .sinkFailure, idx := m, info := 0#16 }) (afterRefusal s k b) := by
  obtain ⟨hcfg, -, -, hwidths, -⟩ := h
  obtain he | ⟨m, n, b, hm, hn, hb, hans, he⟩ :=
    packLoop_outcome s s.cfg.maxLen (codeAt_len_le hwidths) (nsym_mul_maxLen_lt hcfg hwidths.nsym)
  · exact .inl (packBody_of_loop he)
  · obtain ⟨htake, hget⟩ := bitsUpTo_at hm (firstUncodable_le s) hn
    rw [← htake] at hans he
    refine .inr ⟨m, (bitsUpTo s m).length + n, b, ⟨hm, Nat.le_add_right _ _, ?_, hget.trans hb, hans⟩,
      packBody_of_loop he⟩
    rw [bitsUpTo_succ s (hm.trans_le (firstUncodable_le s)), List.length_append]
    exact Nat.add_lt_add_left hn _

/-- Settles O45: the two outcomes of `packBody_outcome`, the first split by where the codes end and what the flush
answers. -/
theorem packOutcomeForEverySink : Obligations.PackOutcomeForEverySink := by
  intro s h hphase
  obtain ⟨hseq, hfreq, htree, hcode, hflags, hworld⟩ := (packBody_frame s).same
  obtain he | ⟨m, k, b, hr, he⟩ := packBody_outcome h
  · refine ⟨packBody s, _, sinkAnswer (afterCodes s) .flush, exec_pack hphase, rfl, packBody_scope s, hseq, hfreq, htree,
      hcode, hflags, hworld, .inr ⟨?_, ?_, ?_, ?_, ?_⟩⟩
    · rw [he, packFlush_bitcnt, afterCodes_bitcnt]
    · rw [he, packFlush_log, afterCodes_log]
    · intro hlt
      rw [he, uncodableError_of_lt hlt]
      exact ⟨rfl, rfl, rfl, rfl⟩
    · intro hall hfail
      rw [he, uncodableError_of_eq hall, packFlush_of_fail hfail]
      exact ⟨rfl, rfl, rfl, rfl⟩
    · intro hall hok
      rw [he, uncodableError_of_eq hall, packFlush_of_ok hok]
      exact ⟨rfl, rfl, rfl, rfl⟩
  · refine ⟨packBody s, k, sinkAnswer (afterRefusal s k b) .flush, exec_pack hphase, ?_, packBody_scope s, hseq, hfreq,
      htree, hcode, hflags, hworld, .inl ⟨b, hr.lt_length, hr.bit, ?_, ?_⟩⟩ <;> rw [he]
    · rw [packFlush_bitcnt, hr.bitcnt]
    · rw [packFlush_log, hr.log, List.append_assoc]
      rfl
    · exact ⟨rfl, rfl, rfl, hr.index, hr.first, hr.last⟩

/-! ## A sink that answers ok (R159) -/

/-- The codes of `m` symbols take at most `m * MAXLEN` bits. -/
theorem bitsUpTo_length_le {s : State} (h : widthsOk s) {m : Nat} (hm : m ≤ s.nsym) :
    (bitsUpTo s m).length ≤ m * s.cfg.maxLen := by
  induction m with
  | zero => exact Nat.zero_le _
  | succ m ih =>
    have hcode : (codeBits s (seqAt s m).toNat).length ≤ s.cfg.maxLen :=
      (unpackBits_length _ _).trans_le (codeAt_len_le h _)
    rw [bitsUpTo_succ s hm, List.length_append, Nat.succ_mul]
    exact Nat.add_le_add (ih (Nat.le_of_succ_le hm)) hcode

/-- While PACK is not past its codes, the next call is answered ok. -/
theorem sinkAnswer_afterBits_of_alwaysOk {s : State} (h : Invariant s) (hok : sinkAlwaysOk s) {bits : List Bool}
    (hbits : bits <+: bitsUpTo s (firstUncodable s)) (c : SinkCall) :
    sinkAnswer (afterBits bits (openScope s)) c = .ok := by
  obtain ⟨-, -, -, hwidths, -⟩ := h
  obtain ⟨hlen, hans⟩ := hok
  have hle := firstUncodable_le s
  have hlt : bits.length < s.plan.length := calc
    _ ≤ (bitsUpTo s (firstUncodable s)).length := hbits.length_le
    _ ≤ firstUncodable s * s.cfg.maxLen := bitsUpTo_length_le hwidths hle
    _ ≤ s.nsym * s.cfg.maxLen := Nat.mul_le_mul_right _ hle
    _ < s.plan.length := hlen
  rw [sinkAnswer_of_plan (s := afterBits bits (openScope s)) (List.drop_eq_getElem_cons hlt)]
  exact hans _ (List.getElem_mem hlt)

/-- A sink that answers ok accepts the codes up to the first symbol that cannot be packed, and the flush. -/
theorem packBody_of_alwaysOk {s : State} (h : Invariant s) (hok : sinkAlwaysOk s) :
    packBody s = packFlush (uncodableError s) (afterCodes s) ∧ sinkAnswer (afterCodes s) .flush = .ok := by
  refine ⟨?_, sinkAnswer_afterBits_of_alwaysOk h hok (List.prefix_refl _) _⟩
  obtain he | ⟨m, k, b, hr, -⟩ := packBody_outcome h
  · exact he
  · have hfail := hr.refused
    rw [sinkAnswer_afterBits_of_alwaysOk h hok (List.take_prefix _ _)] at hfail
    cases hfail

/-- With a sink that answers ok, what PACK has written and counted when it ends. -/
theorem packBody_written_of_alwaysOk {s : State} (h : Invariant s) (hok : sinkAlwaysOk s) :
    (packBody s).log = s.log ++ accepted (bitsUpTo s (firstUncodable s)) ++ [⟨.flush, .ok⟩] ∧
      (packBody s).bitcnt = (bitsUpTo s (firstUncodable s)).length ∧
      (packBody s).plan = s.plan.drop ((bitsUpTo s (firstUncodable s)).length + 1) := by
  obtain ⟨he, hans⟩ := packBody_of_alwaysOk h hok
  refine ⟨?_, ?_, ?_⟩ <;> rw [he]
  · rw [packFlush_log, hans, afterCodes_log]
  · rw [packFlush_bitcnt, afterCodes_bitcnt]
  · rw [packFlush_plan, afterCodes_plan, List.tail_drop]

theorem bitsUpTo_nsym (s : State) : bitsUpTo s s.nsym = (seqList s).flatMap fun b => codeBits s b.toNat := by
  rw [bitsUpTo, List.take_of_length_le (seqList_length s).le]

/-- Settles O43: every symbol can be packed, so the codes written are those of the whole sequence. -/
theorem packEmitsTheCodesInOrder : Obligations.PackEmitsTheCodesInOrder := by
  intro s h hphase hok hcod
  have hall : firstUncodable s = s.nsym := firstUncodable_eq s (Nat.le_refl _)
    (fun j hj => hcod _ ((mem_seqList s _).2 ⟨j, hj, rfl⟩)) (.inl rfl)
  obtain ⟨hseq, hfreq, htree, hcode, hflags, hworld⟩ := (packBody_frame s).same
  obtain ⟨hlog, hbitcnt, hplan⟩ := packBody_written_of_alwaysOk h hok
  obtain ⟨he, hans⟩ := packBody_of_alwaysOk h hok
  rw [uncodableError_of_eq hall, packFlush_of_ok hans] at he
  have hdone : (packBody s).phase = .done ∧ sameFault s (packBody s) := by
    rw [he]
    exact ⟨rfl, rfl, rfl, rfl⟩
  rw [← hbitcnt] at hplan
  rw [hall, bitsUpTo_nsym] at hlog hbitcnt
  exact ⟨packBody s, exec_pack hphase, hdone.1, hlog, hbitcnt, hplan, packBody_scope s, hseq, hfreq, htree, hcode,
    hflags, hdone.2, hworld⟩

/-- Settles O44: the symbol at index `i` is the first that cannot be packed, and its error is the fault. -/
theorem packStopsAtFirstUncodable : Obligations.PackStopsAtFirstUncodable := by
  intro s i h hphase hok hi hbefore hbad
  obtain rfl : firstUncodable s = i := firstUncodable_eq s hi.le hbefore (.inr hbad)
  obtain ⟨hseq, hfreq, htree, hcode, hflags, hworld⟩ := (packBody_frame s).same
  obtain ⟨hlog, hbitcnt, -⟩ := packBody_written_of_alwaysOk h hok
  obtain ⟨he, -⟩ := packBody_of_alwaysOk h hok
  rw [uncodableError_of_lt hi, packFlush_some] at he
  refine ⟨packBody s, exec_pack hphase, ?_, ?_, ?_, ?_, hlog, hbitcnt, packBody_scope s, hseq, hfreq, htree, hcode,
    hflags, hworld⟩ <;> rw [he]
  · rfl
  · rfl
  · exact zext16_toNat _
  · rfl

/-! ## The calls of any PACK (R152), and of one of the empty sequence (R153) -/

/-- A PACK that starts makes `write_bit` calls and one flush. -/
theorem packBody_calls (s : State) : ∃ (writes : List SinkEvent) (r : SinkAnswer),
    (packBody s).log = s.log ++ writes ++ [⟨.flush, r⟩] ∧
      (∀ e ∈ writes, e.call ≠ .flush) ∧ ∀ e ∈ writes.dropLast, e.answer = .ok := by
  obtain ⟨writes, hw, -⟩ := packLoop_writes s.nsym 0 (openScope s)
  refine ⟨writes, sinkAnswer (packLoop s.nsym 0 (openScope s)).2 .flush, ?_, hw.bits, hw.before⟩
  rw [packBody, packFlush_log, hw.log]
  rfl

/-- In every other phase PACK is refused or ignored (R78), and the sink hears nothing. -/
theorem exec_pack_log_of_phase_ne {s : State} (hphase : s.phase ≠ .derived) :
    ∃ t, exec .pack s = .next t ∧ t.log = s.log := by
  refine ⟨_, exec_eq .pack s, ?_⟩
  obtain ⟨hok, -⟩ | ⟨-, he⟩ | ⟨-, he⟩ := issue_cases .pack (bodyOf .pack) s
  · exact absurd (phase_of_pack_ok hok) hphase
  · rw [he, raise_log]
  · rw [he]

/-- Settles O46: PACK executes in DERIVED only, and one that executes is `packBody`. -/
theorem packFlushesExactlyOnce : Obligations.PackFlushesExactlyOnce := by
  intro s
  by_cases hphase : s.phase = .derived
  · exact ⟨packBody s, exec_pack hphase, fun _ => packBody_calls s, fun hne => absurd hphase hne⟩
  · obtain ⟨t, he, hlog⟩ := exec_pack_log_of_phase_ne hphase
    exact ⟨t, he, fun h => absurd h hphase, fun _ => hlog⟩

/-- With no symbols PACK only opens its scope and flushes. -/
theorem packBody_of_empty {s : State} (h : s.nsym = 0) : packBody s = packFlush none (openScope s) :=
  packBody_of_loop (by rw [h]; rfl)

/-- Settles O47: with no symbols PACK is its flush, and the answer of the flush is the end. -/
theorem packOfEmptySequence : Obligations.PackOfEmptySequence := by
  intro s hphase hnsym
  have he := packBody_of_empty hnsym
  refine ⟨packBody s, sinkAnswer (openScope s) .flush, exec_pack hphase, ?_, ?_, fun hok => ?_, fun hfail => ?_⟩
  · rw [he, packFlush_log]
    rfl
  · rw [he, packFlush_bitcnt]
    rfl
  · rw [he, packFlush_of_ok hok]
    exact ⟨rfl, rfl, rfl, rfl⟩
  · rw [he, packFlush_of_fail hfail]
    exact ⟨rfl, rfl, hnsym, rfl⟩

end Sys2Proof.Machine

/-! Proofs for the family of 45_encode.md: ENCODE is the four stages in a row, a fault of its COUNT part is its end, the
empty input needs one flush only, and nothing but the sequence, the parameters and the sink has a part in the result
(R165 to R168). -/

namespace Sys2Proof.Machine

theorem exec_encode {s : State} (hphase : s.phase = .load) : exec .encode s = .next (encodeBody s) :=
  exec_of_ok (by rw [hphase]; rfl)

/-! ## The four stages (R165) -/

theorem runCommands_cons {i : Instr} {s t : State} (h : exec i s = .next t) (is : List Instr) :
    runCommands (i :: is) s = runCommands is t := by
  rw [runCommands, h]

/-- In FAULT every command other than CLEAR leaves the state as it is (R80), so a row of them does. -/
theorem runCommands_of_fault {is : List Instr} (hclear : ∀ i ∈ is, i ≠ .clear) {s : State} (hphase : s.phase = .fault) :
    runCommands is s = .next s := by
  induction is with
  | nil => rfl
  | cons i is ih =>
    obtain ⟨hi, his⟩ := List.forall_mem_cons.1 hclear
    rw [runCommands_cons (exec_of_fault hi hphase), ih his]

/-- Settles O49: COUNT faults, and the three other commands are ignored; or it completes, and each stage leaves the phase
in which the next one executes. -/
theorem encodeIsTheFourStages : Obligations.EncodeIsTheFourStages := by
  intro s hphase
  rw [exec_encode hphase, runCommands_cons (exec_count hphase)]
  obtain ⟨f, j, -, -, he, hraise⟩ | ⟨f, hdone, he⟩ := encodeBody_cases s <;> rw [he]
  · have hfault : (countBody s).phase = .fault := by rw [hraise]; rfl
    exact (runCommands_of_fault (by decide) hfault).symm
  · have hcounted : (countBody s).phase = .counted := by rw [hdone]; rfl
    rw [runCommands_cons (exec_build hcounted), runCommands_cons (exec_derive (buildBody_phase _)),
      runCommands_cons (exec_pack (deriveBody_phase _)), runCommands]

/-! ## A fault of the COUNT part (R166) -/

/-- A COUNT that completes has met no symbol outside the alphabet. -/
theorem inside_of_countBody_eq_countDone {s t : State} (h : countBody s = countDone t) {i : Nat} (hi : i < s.nsym) :
    (seqAt s i).toNat < s.cfg.alphabet := by
  have hne : (countBody s).phase ≠ .fault := by rw [h]; exact nofun
  exact countLoop_in_range s.nsym 0 (clearFreq s) hne i (Nat.zero_le i) ((Nat.zero_add s.nsym).symm ▸ hi)

/-- Settles O50: COUNT cannot complete, and the fault it raises instead is where ENCODE ends. -/
theorem encodeFaultInCountMakesNoSinkCall : Obligations.EncodeFaultInCountMakesNoSinkCall := by
  rintro s hphase ⟨i, hi, houtside⟩
  obtain ⟨f, j, -, -, he, hraise⟩ | ⟨f, hdone, -⟩ := encodeBody_cases s
  · refine ⟨countBody s, (exec_encode hphase).trans (congrArg Host.Outcome.next he), exec_count hphase, ?_⟩
    rw [hraise]
    exact ⟨rfl, rfl, ⟨rfl, rfl⟩, ⟨fun _ => rfl, rfl, rfl, rfl, rfl, rfl⟩, fun _ => rfl, ⟨rfl, fun _ => rfl⟩, rfl⟩
  · exact absurd (inside_of_countBody_eq_countDone hdone hi) (Nat.not_lt.2 houtside)

/-! ## The sequence is input only (R45) -/

/-- COUNT reads SEQ and NSYM, whether it faults or not, and writes neither. -/
theorem countBody_keeps_input (s : State) : (countBody s).nsym = s.nsym ∧ (countBody s).seq = s.seq := by
  obtain ⟨f, h | ⟨j, -, -, h⟩⟩ := countBody_cases s <;> rw [h] <;> exact ⟨rfl, rfl⟩

/-- PACK reads the sequence that COUNT has read. -/
theorem stages_keep_input (s : State) : (deriveBody (buildBody (countBody s))).nsym = s.nsym ∧
    (deriveBody (buildBody (countBody s))).seq = s.seq := by
  obtain ⟨hn, hseq⟩ := countBody_keeps_input s
  have f := buildBody_frame (countBody s)
  have g := deriveBody_frame (buildBody (countBody s))
  exact ⟨(g.nsym.trans f.nsym).trans hn, (g.seq.trans f.seq).trans hseq⟩

theorem seqList_congr {s t : State} (hn : t.nsym = s.nsym) (hseq : t.seq = s.seq) : seqList t = seqList s := by
  simp [seqList, seqAt, hn, hseq]

theorem seqList_encodeBody (s : State) : seqList (encodeBody s) = seqList s := by
  obtain ⟨f, j, -, -, he, -⟩ | ⟨f, -, he⟩ := encodeBody_cases s <;> rw [he]
  · exact seqList_congr (countBody_keeps_input s).1 (countBody_keeps_input s).2
  · have g := packBody_frame (deriveBody (buildBody (countBody s)))
    exact (seqList_congr g.nsym g.seq).trans (seqList_congr (stages_keep_input s).1 (stages_keep_input s).2)

/-! ## The empty input (R167) -/

section
variable {s : State} (hnsym : s.nsym = 0)
include hnsym

/-- With no symbols COUNT only clears FREQ. -/
theorem countBody_of_empty : countBody s = countDone (clearFreq s) := by
  rw [countBody, hnsym, countLoop]

/-- With no symbols BUILD makes no node. -/
theorem buildBody_countBody_of_empty :
    (buildBody (countBody s)).root = s.cfg.noNode ∧ (buildBody (countBody s)).nnode = 0 := by
  rw [countBody_of_empty hnsym]
  have hlen : (syms (countDone (clearFreq s))).length = 0 := congrArg List.length (syms_eq_nil fun _ _ => rfl)
  obtain ⟨hnnode, -, -, hroot, -⟩ := buildBody_of_le_one (hlen.trans_le (Nat.zero_le 1))
  rw [hlen] at hnnode hroot
  exact ⟨hroot, hnnode⟩

/-- With no symbols PACK starts with no tree and no code. -/
theorem deriveBody_buildBody_countBody_of_empty :
    deriveBody (buildBody (countBody s)) = setPhase .derived (clearCode (buildBody (countBody s))) := by
  refine deriveBody_of_no_tree ?_
  rw [(buildBody_countBody_of_empty hnsym).1, (buildBody_frame _).cfg, cfg_countBody]

/-- With no symbols ENCODE runs all four stages. -/
theorem encodeBody_of_empty : encodeBody s = packBody (deriveBody (buildBody (countBody s))) := by
  obtain ⟨_, j, hj, -⟩ | ⟨-, -, he⟩ := encodeBody_cases s
  · omega
  · exact he

end

/-- Settles O51: PACK starts with no symbol, no tree and no code, and is one flush, whose answer is the end. -/
theorem encodeOfEmptyInput : Obligations.EncodeOfEmptyInput := by
  intro s hs hphase hnsym
  have hcount := countBody_of_empty hnsym
  have hderive := deriveBody_buildBody_countBody_of_empty hnsym
  obtain ⟨hroot, hnnode⟩ := buildBody_countBody_of_empty hnsym
  have f := buildBody_frame (countBody s)
  have hempty : (buildBody (countBody s)).empty = true := by
    rw [f.empty, hcount, countDone_empty, clearFreq_nsym, hnsym]
    rfl
  have hcause : (buildBody (countBody s)).cause = .none := by
    rw [f.cause, hcount]
    exact (noFault_of_controlOk hs.control (by rw [hphase]; exact nofun)).cause
  have hlog : (buildBody (countBody s)).log = s.log := by rw [f.log, hcount]; rfl
  have g := packBody_frame (deriveBody (buildBody (countBody s)))
  obtain ⟨t, r, ht, hflush, hbits, hok, -⟩ :=
    packOfEmptySequence _ (deriveBody_phase (buildBody (countBody s))) ((stages_keep_input s).1.trans hnsym)
  obtain rfl : packBody (deriveBody (buildBody (countBody s))) = t :=
    Host.Outcome.next.inj ((exec_pack (deriveBody_phase _)).symm.trans ht)
  refine ⟨_, r, (exec_encode hphase).trans (congrArg _ (encodeBody_of_empty hnsym)), ?_⟩
  rw [hderive] at hflush hbits hok g ⊢
  obtain ⟨-, -, -, hcode, -⟩ := g.same
  exact ⟨hflush.trans (congrArg (· ++ _) hlog), g.empty.trans hempty, g.root.trans hroot, g.nnode.trans hnnode,
    hcode, hbits, fun hr => ⟨(hok hr).1, (hok hr).2.1.trans hcause⟩⟩

/-! ## Nothing else has a part in the result (R168, R183)

`withInput` changes the bytes of SEQ and what the host will present. Every stage of ENCODE commutes with it, as long as
the bytes it reads, those below NSYM, are the same. -/

/-- The state with other bytes in SEQ and other inputs of the host. -/
def withInput (q : Memory) (inputs : List HostInput) (s : State) : State := { s with seq := q, host := inputs }

section
variable (q : Memory) (inputs : List HostInput)

theorem seedSymbol_withInput (s : State) (v : Nat) :
    seedSymbol (withInput q inputs s) v = withInput q inputs (seedSymbol s v) :=
  (apply_ite (withInput q inputs) (0 < freqAt s v) (newNode (leafRec s.cfg v (freqAt s v)) s) s).symm

theorem seedLoop_withInput (s : State) : seedLoop (withInput q inputs s) = withInput q inputs (seedLoop s) :=
  List.foldl_hom (withInput q inputs) (init := startBuild s) (seedSymbol_withInput q inputs)

theorem mergeLoop_withInput (n : Nat) (s : State) :
    mergeLoop n (withInput q inputs s) = withInput q inputs (mergeLoop n s) := by
  induction n generalizing s with
  | zero => rfl
  | succ n ih =>
    rw [mergeLoop, mergeLoop, apply_ite (withInput q inputs), ← ih]
    rfl

theorem buildBody_withInput (s : State) : buildBody (withInput q inputs s) = withInput q inputs (buildBody s) := by
  rw [buildBody, buildBody, seedLoop_withInput]
  exact congrArg buildResult (mergeLoop_withInput q inputs s.cfg.alphabet (countLeaves (seedLoop s)))

theorem visit_withInput (n k : Nat) (p : List Bool) (s : State) :
    visit n k p (withInput q inputs s) = withInput q inputs (visit n k p s) := by
  induction n generalizing k p s with
  | zero => rfl
  | succ n ih =>
    have hnode : nodeAt (withInput q inputs s) k = nodeAt s k := rfl
    rw [visit, visit, hnode]
    cases (nodeAt s k).kind with
    | leaf => rfl
    | internal => rw [← ih, ← ih]; rfl

theorem deriveWalk_withInput (s : State) : deriveWalk (withInput q inputs s) = withInput q inputs (deriveWalk s) := by
  by_cases hroot : s.root = s.cfg.noNode
  · rw [deriveWalk_of_no_tree hroot, deriveWalk_of_no_tree (s := withInput q inputs s) hroot]
  cases hkind : (nodeAt s s.root).kind with
  | leaf =>
    rw [deriveWalk_of_leaf hroot hkind, deriveWalk_of_leaf (s := withInput q inputs s) hroot hkind]
    rfl
  | internal =>
    rw [deriveWalk_of_internal hroot hkind, deriveWalk_of_internal (s := withInput q inputs s) hroot hkind]
    exact visit_withInput q inputs _ _ _ s

theorem deriveBody_withInput (s : State) : deriveBody (withInput q inputs s) = withInput q inputs (deriveBody s) :=
  congrArg (setPhase .derived) (deriveWalk_withInput q inputs (clearCode s))

theorem emitBits_withInput (bits j : Nat) (s : State) :
    emitBits bits j (withInput q inputs s) = (emitBits bits j s).map id (withInput q inputs) := by
  induction j generalizing s with
  | zero => rfl
  | succ j ih =>
    have hanswer : sinkAnswer (withInput q inputs s) (.writeBit (bits.testBit j)) =
      sinkAnswer s (.writeBit (bits.testBit j)) := rfl
    rw [emitBits, emitBits, hanswer]
    cases sinkAnswer s (.writeBit (bits.testBit j)) with
    | ok => exact ih (countBit (sinkCall (.writeBit (bits.testBit j)) s))
    | fail => rfl

variable {q}

theorem countLoop_withInput (n i : Nat) {s : State} (hq : ∀ j < i + n, q.read j = seqAt s j) :
    countLoop n i (withInput q inputs s) = withInput q inputs (countLoop n i s) := by
  induction n generalizing i s with
  | zero => rfl
  | succ n ih =>
    have hi : seqAt (withInput q inputs s) i = seqAt s i := hq i (by omega)
    have hrest := ih (i + 1) (s := freqWrite (seqAt s i).toNat (addW s.cfg.wFreq (freqAt s (seqAt s i).toNat) 1) s)
      fun j hj => hq j (by omega)
    rw [countLoop, countLoop, hi, apply_ite (withInput q inputs), ← hrest]
    rfl

theorem packLoop_withInput (n i : Nat) {s : State} (hq : ∀ j < i + n, q.read j = seqAt s j) :
    packLoop n i (withInput q inputs s) = (packLoop n i s).map id (withInput q inputs) := by
  induction n generalizing i s with
  | zero => rfl
  | succ n ih =>
    have hi : seqAt (withInput q inputs s) i = seqAt s i := hq i (by omega)
    have hcode : codeAt (withInput q inputs s) = codeAt s := rfl
    obtain ⟨es, hw, -⟩ := emitBits_writes (codeAt s (seqAt s i).toNat).bits (codeAt s (seqAt s i).toNat).len s
    obtain ⟨⟨-, hseq⟩, -⟩ := hw.onlyPacked.same
    rw [packLoop, packLoop, hi, hcode, emitBits_withInput, apply_ite (Prod.map id (withInput q inputs)),
      apply_ite (Prod.map id (withInput q inputs))]
    generalize emitBits (codeAt s (seqAt s i).toNat).bits (codeAt s (seqAt s i).toNat).len s = r at *
    obtain ⟨a, s'⟩ := r
    cases a with
    | ok => rw [Prod.map, ← ih (i + 1) fun j hj => (hq j (by omega)).trans (hseq j).symm]; rfl
    | fail => rfl

theorem countBody_withInput {s : State} (hq : ∀ j < s.nsym, q.read j = seqAt s j) :
    countBody (withInput q inputs s) = withInput q inputs (countBody s) :=
  countLoop_withInput inputs s.nsym 0 (s := clearFreq s) ((Nat.zero_add s.nsym).symm ▸ hq)

theorem packFlush_withInput (err : Option PackError) (s : State) :
    packFlush err (withInput q inputs s) = withInput q inputs (packFlush err s) := by
  have hanswer : sinkAnswer (withInput q inputs s) .flush = sinkAnswer s .flush := rfl
  rw [packFlush, packFlush, hanswer]
  cases err with
  | some e => rfl
  | none => cases sinkAnswer s .flush <;> rfl

theorem packBody_withInput {s : State} (hq : ∀ j < s.nsym, q.read j = seqAt s j) :
    packBody (withInput q inputs s) = withInput q inputs (packBody s) := by
  have hloop : packLoop s.nsym 0 (openScope (withInput q inputs s)) = _ :=
    packLoop_withInput inputs s.nsym 0 (s := openScope s) ((Nat.zero_add s.nsym).symm ▸ hq)
  rw [packBody, packBody, ← packFlush_withInput]
  exact congrArg (fun r => packFlush r.1 r.2) hloop

/-- ENCODE reads no byte of SEQ from NSYM on, and nothing of what the host will present. -/
theorem encodeBody_withInput {s : State} (hq : ∀ j < s.nsym, q.read j = seqAt s j) :
    encodeBody (withInput q inputs s) = withInput q inputs (encodeBody s) := by
  obtain ⟨hn, hseq⟩ := stages_keep_input s
  have hq' : ∀ j < (deriveBody (buildBody (countBody s))).nsym,
      q.read j = seqAt (deriveBody (buildBody (countBody s))) j := by
    rw [hn]
    intro j hj
    rw [seqAt, hseq]
    exact hq j hj
  rw [encodeBody, encodeBody, countBody_withInput inputs hq, buildBody_withInput, deriveBody_withInput,
    packBody_withInput inputs hq', apply_ite (withInput q inputs)]
  rfl

end

/-- In LOAD everything but the sequence and the ports is as after reset (R46). -/
theorem eq_resetEngine_of_load {s : State} (h : Invariant s) (hphase : s.phase = .load) :
    s = { resetEngine s with nsym := s.nsym } := by
  obtain ⟨hscope, hcause, hfidx, hfinfo⟩ := noFault_of_controlOk h.control (by rw [hphase]; exact nofun)
  have hpqcnt := h.forms.pqcnt
  obtain ⟨-, -, -, -, -, hload⟩ := h
  obtain ⟨hfreq, ⟨hnode, hpq, hnleaf, hnnode, hroot⟩, hcode, hbitcnt, hempty, hindep⟩ :=
    (phaseOk_iff_load hphase).1 hload
  rw [hpq, List.length_nil] at hpqcnt
  cases s
  simp_all [resetEngine, State.resetOf]

/-- Equal sequences have equal bytes, whatever stands above them. -/
theorem seqAt_of_seqList_eq {s t : State} (h : seqList s = seqList t) {j : Nat} (hj : j < s.nsym) :
    seqAt s j = seqAt t j := by
  have hs : j < (seqList s).length := (seqList_length s).symm ▸ hj
  have ht : j < (seqList t).length := h ▸ hs
  rw [← seqList_getElem s j hs, ← seqList_getElem t j ht]
  exact List.getElem_of_eq h hs

/-- Two LOAD states with the same sequence, parameters and sink differ in SEQ and the host's inputs only. -/
theorem eq_withInput_of_load {s t : State} (hs : Invariant s) (ht : Invariant t) (hsphase : s.phase = .load)
    (htphase : t.phase = .load) (hcfg : s.cfg = t.cfg) (hseq : seqList s = seqList t) (hplan : s.plan = t.plan)
    (hlog : s.log = t.log) : t = withInput t.seq t.host s := by
  have hn : s.nsym = t.nsym := by rw [← seqList_length s, hseq, seqList_length]
  rw [eq_resetEngine_of_load hs hsphase, eq_resetEngine_of_load ht htphase]
  simp only [withInput, resetEngine, hcfg, hplan, hlog, hn]

/-- Settles O53: the second state is the first with other stale bytes and another host, and ENCODE commutes with that. -/
theorem encodeIsDeterministic : Obligations.EncodeIsDeterministic := by
  intro s t hs ht hsphase htphase hcfg hseq hplan hlog
  have heq := eq_withInput_of_load hs ht hsphase htphase hcfg hseq hplan hlog
  have hencode : encodeBody t = withInput t.seq t.host (encodeBody s) :=
    (congrArg encodeBody heq).trans (encodeBody_withInput t.host fun j hj => (seqAt_of_seqList_eq hseq hj).symm)
  refine ⟨encodeBody s, encodeBody t, exec_encode hsphase, exec_encode htphase, ?_, ?_⟩
  · rw [seqList_encodeBody, seqList_encodeBody, hseq]
  · rw [hencode]
    rfl

end Sys2Proof.Machine

/-! Proofs for the family of 47_properties.md: the weights of BUILD's merges (R186), and what the invariant says of
counts, codes and BITCNT (R170, R174 to R179). What PACK writes, the reference decoder reads back (R180, R181). -/

namespace Sys2Proof.Machine

/-! ## The weights of the internal nodes (R186)

A merge takes the two lightest members, so its node weighs at most what any two members weigh together; the next merge
joins two of the members left or this node with one, and so makes no lighter node. -/

/-- The two members a merge removes weigh together at most what any two members do (R112, R113). -/
theorem MergeFacts.freq_add_le {s t : State} {x y a b : Nat} (h : MergeFacts s t x y) (ha : a ∈ s.pq) (hb : b ∈ s.pq)
    (hab : a ≠ b) : (nodeAt s x).freq + (nodeAt s y).freq ≤ (nodeAt s a).freq + (nodeAt s b).freq := by
  have hxle : ∀ k ∈ s.pq, (nodeAt s x).freq ≤ (nodeAt s k).freq := fun k hk => by
    obtain rfl | hkx := eq_or_ne k x
    · exact Nat.le_refl _
    · have := (before_iff s x k).1 (h.xmin k hk hkx)
      omega
  have hyle : ∀ k ∈ s.pq, k ≠ x → (nodeAt s y).freq ≤ (nodeAt s k).freq := fun k hk hkx => by
    obtain rfl | hky := eq_or_ne k y
    · exact Nat.le_refl _
    · have := (before_iff s y k).1 (h.ymin k hk hkx hky)
      omega
  obtain rfl | hax := eq_or_ne a x
  · exact Nat.add_le_add_left (hyle b hb hab.symm) _
  · rw [Nat.add_comm]
    exact Nat.add_le_add (hyle a ha hax) (hxle b hb)

/-- The weights of the nodes from slot `L` on do not decrease, and no two members weigh together less than the last of
these nodes: the next one will be no lighter. -/
structure WeightsRise (L : Nat) (s : State) : Prop where
  rise : ∀ k, L ≤ k → k + 1 < s.nnode → (nodeAt s k).freq ≤ (nodeAt s (k + 1)).freq
  pairs : ∀ k, L ≤ k → k + 1 = s.nnode → ∀ a ∈ s.pq, ∀ b ∈ s.pq, a ≠ b →
    (nodeAt s k).freq ≤ (nodeAt s a).freq + (nodeAt s b).freq

/-- A merge keeps the weights rising. -/
theorem MergeFacts.weightsRise {s t : State} {x y L : Nat} (h : MergeFacts s t x y) (hsorted : s.pq.Pairwise (· < ·))
    (hlt : ∀ k ∈ s.pq, k < s.nnode) (hw : WeightsRise L s) : WeightsRise L t := by
  have hnew : (nodeAt t s.nnode).freq = (nodeAt s x).freq + (nodeAt s y).freq := by
    rw [h.node, if_pos rfl]
    rfl
  refine ⟨fun k hLk hk => ?_, fun k hLk hk a ha b hb hab => ?_⟩ <;> rw [h.nnode] at hk
  · obtain hk | hk := Nat.lt_or_eq_of_le (Nat.le_of_lt_succ hk)
    · rw [h.old hk, h.old (Nat.lt_of_succ_lt hk)]
      exact hw.rise k hLk hk
    · rw [h.old (hk ▸ Nat.lt_succ_self k), hk, hnew]
      exact hw.pairs k hLk hk x h.hx y h.hy h.hyx.symm
  · obtain rfl : k = s.nnode := Nat.succ.inj hk
    rw [hnew]
    obtain ⟨ha, -⟩ | rfl := (h.mem hsorted a).1 ha
    · obtain ⟨hb, -⟩ | rfl := (h.mem hsorted b).1 hb
      · rw [h.old (hlt a ha), h.old (hlt b hb)]
        exact h.freq_add_le ha hb hab
      · rw [hnew]
        exact Nat.le_add_left _ _
    · rw [hnew]
      exact Nat.le_add_right _ _

/-- The merge loop keeps the weights rising. -/
theorem weightsRise_mergeLoop {L tot : Nat} (n : Nat) {s : State} (h : MergeInv L tot s) (hn : tot < 2 ^ s.cfg.wFreq)
    (hw : WeightsRise L s) : WeightsRise L (mergeLoop n s) := by
  induction n generalizing s with
  | zero => exact hw
  | succ n ih =>
    unfold mergeLoop
    split
    · rename_i hc
      obtain ⟨x, y, hm⟩ := merge_facts s h.sorted (h.cnt ▸ hc) h.lt (merge_pairs h hn)
      exact ih (mergeOnce_keeps L tot s h hn hc) (by rwa [(onlyNodes_mergeOnce s).cfg])
        (hm.weightsRise h.sorted h.lt hw)
    · exact hw

/-- Settles O31: after seeding there is no internal node, and the merge loop keeps the weights rising. -/
theorem mergeWeightsDoNotDecrease : Obligations.MergeWeightsDoNotDecrease := by
  intro s h hphase
  obtain ⟨-, -, -, -, hsum, -⟩ := h
  have hnnode : (countLeaves (seedLoop s)).nnode = (syms s).length := (seed_facts s).nnode
  have hseeded : WeightsRise (syms s).length (countLeaves (seedLoop s)) :=
    ⟨fun k hLk hk => by omega, fun k hLk hk => by omega⟩
  have hcfg : (countLeaves (seedLoop s)).cfg = s.cfg := (onlyNodes_seedLoop s).cfg
  have hloop := weightsRise_mergeLoop s.cfg.alphabet (seed_inv s) (by rw [hcfg]; exact lt_two_pow_wFreq hsum) hseeded
  exact ⟨buildBody s, exec_build hphase, fun k hLk hk => hloop.rise k (buildBody_nleaf s ▸ hLk) hk⟩

/-! ## The tables in DERIVED and DONE -/

/-- What the invariant says of the tables in DERIVED and DONE. -/
theorem Invariant.coded {s : State} (h : Invariant s) (hphase : s.phase = .derived ∨ s.phase = .done) :
    (s.indep = false → countsOk s) ∧ treeOk s ∧ pathsOk s ∧ codesOk s := by
  obtain ⟨-, -, -, -, -, -, -, -, hcoded, -⟩ := h
  exact hcoded hphase

/-- Settles O36: in each of the four phases FREQ counts the sequence while INDEP = 0. -/
theorem countsSumToSequenceLength : Obligations.CountsSumToSequenceLength := by
  intro s h hphase hindep
  refine freqSum_of_countsOk ?_
  obtain hcounted | hbuilt | hcoded := hphase
  · obtain ⟨-, -, -, -, -, hok⟩ := h
    exact ((phaseOk_iff_counted hcounted).1 hok).1.1
  · obtain ⟨-, -, -, -, -, hok⟩ := h
    exact ((phaseOk_iff_built hbuilt).1 hok).1.1
  · exact (h.coded hcoded).1 hindep

/-! ## The leaves and the counted symbols (R171) -/

section
variable {s : State} (htree : treeOk s)
include htree

/-- The symbol of a leaf is a counted one. -/
theorem leaf_counted {k : Nat} (hk : k < s.nleaf) :
    (nodeAt s k).sym.toNat < s.cfg.alphabet ∧ 0 < freqAt s (nodeAt s k).sym.toNat := by
  obtain ⟨-, -, -, hleaf, -⟩ := htree
  obtain ⟨-, -, -, -, hsym, hfreq, hpos⟩ := hleaf k hk
  exact ⟨hsym, hfreq ▸ hpos⟩

/-- Every counted symbol has a leaf. -/
theorem exists_leaf_of_counted {v : Nat} (hv : v < s.cfg.alphabet) (hpos : 0 < freqAt s v) :
    ∃ k < s.nleaf, (nodeAt s k).sym.toNat = v := by
  obtain ⟨-, -, -, -, -, hleaf, -⟩ := htree
  exact hleaf v hv hpos

/-- The symbols of the leaves, from slot 0 on, are the counted symbols in ascending order. -/
theorem map_sym_leaves : (List.range s.nleaf).map (fun k => (nodeAt s k).sym.toNat) = syms s := by
  obtain ⟨-, -, -, -, hasc, -⟩ := id htree
  have hsorted : ((List.range s.nleaf).map fun k => (nodeAt s k).sym.toNat).Pairwise (· < ·) :=
    List.pairwise_map.2 (List.pairwise_lt_range.imp_of_mem fun _ hk hjk => hasc _ (List.mem_range.1 hk) _ hjk)
  refine hsorted.eq_of_mem_iff (syms_sorted s) fun v => ?_
  rw [List.mem_map, mem_syms]
  constructor
  · rintro ⟨k, hk, rfl⟩
    exact leaf_counted htree (List.mem_range.1 hk)
  · rintro ⟨hv, hpos⟩
    obtain ⟨k, hk, hsym⟩ := exists_leaf_of_counted htree hv hpos
    exact ⟨k, List.mem_range.2 hk, hsym⟩

/-- Among two or more leaves the root is none of them. -/
theorem nleaf_le_root (hL : 2 ≤ s.nleaf) : s.nleaf ≤ s.root := by
  obtain ⟨hnnode, hroot, -⟩ := htree
  rw [hroot, if_neg (by omega)]
  omega

end

/-! ## Codes (R174 to R178) -/

section
variable {s : State} (htree : treeOk s) (hpaths : pathsOk s) (hcodes : codesOk s)

include htree hpaths in
/-- The path of a node other than the root is not empty (R133). -/
theorem plen_pos {k : Nat} (hk : k < s.nnode) (hroot : k ≠ s.root) :
    1 ≤ (nodeAt s k).plen := by
  obtain ⟨i, hi⟩ := parent_exists htree hk hroot
  obtain ⟨b, hb, -⟩ := path_child htree hpaths hi
  calc 1 ≤ (pathOf s i ++ [b]).length := by rw [List.length_append]; exact Nat.le_add_left _ _
    _ = (nodeAt s k).plen := by rw [← hb, pathOf, unpackBits_length]

include hcodes

/-- A lone symbol has the forced code (R135). -/
theorem codeAt_lone (hL : s.nleaf = 1) : codeAt s (nodeAt s 0).sym.toNat = loneCode :=
  (hcodes.1 0 (hL ▸ Nat.one_pos)).trans (if_pos hL)

/-- Among two or more symbols the code of each is the path of its leaf (R131). -/
theorem codeAt_leaf (hL : 2 ≤ s.nleaf) {k : Nat} (hk : k < s.nleaf) :
    codeAt s (nodeAt s k).sym.toNat = ⟨(nodeAt s k).plen, (nodeAt s k).pbits⟩ :=
  (hcodes.1 k hk).trans (if_neg (Nat.ne_of_gt hL))

theorem codeBits_leaf (hL : 2 ≤ s.nleaf) {k : Nat} (hk : k < s.nleaf) :
    codeBits s (nodeAt s k).sym.toNat = pathOf s k := by
  rw [codeBits, codeAt_leaf hcodes hL hk, pathOf]

include htree hpaths

/-- Exactly the counted symbols have a code, and its bits fit its length (R174). -/
theorem code_fits {v : Nat} (hv : v < s.cfg.alphabet) : (1 ≤ (codeAt s v).len ↔ 0 < freqAt s v) ∧
    ((codeAt s v).len = 0 → (codeAt s v).bits = 0) ∧ (codeAt s v).bits < 2 ^ (codeAt s v).len := by
  obtain hzero | hpos := Nat.eq_zero_or_pos (freqAt s v)
  · rw [hzero, hcodes.2 v hv hzero]
    decide
  obtain ⟨k, hk, rfl⟩ := exists_leaf_of_counted htree hv hpos
  obtain hL | hL : s.nleaf = 1 ∨ 2 ≤ s.nleaf := by omega
  · obtain rfl : k = 0 := by omega
    rw [codeAt_lone hcodes hL]
    exact ⟨iff_of_true (Nat.le_refl _) hpos, fun _ => rfl, by decide⟩
  · have hkn : k < s.nnode := hk.trans_le (tree_nleaf_le htree)
    have hlen := plen_pos htree hpaths hkn (hk.trans_le (nleaf_le_root htree hL)).ne
    rw [codeAt_leaf hcodes hL hk]
    exact ⟨iff_of_true hlen hpos, fun h => absurd h (Nat.ne_of_gt hlen), (hpaths.1 k hkn).2.2⟩

/-- The symbols that have a code are the counted ones. -/
theorem filter_coded : ((List.range s.cfg.alphabet).filter fun v => decide (1 ≤ (codeAt s v).len)) = syms s :=
  List.filter_congr fun _ hv => decide_eq_decide.2 (code_fits htree hpaths hcodes (List.mem_range.1 hv)).1

/-- A sum over the coded symbols is a sum over the leaves. -/
theorem sum_coded (w : Nat → Nat) :
    (((List.range s.cfg.alphabet).filter fun v => decide (1 ≤ (codeAt s v).len)).map w).sum =
      ((List.range s.nleaf).map fun k => w (nodeAt s k).sym.toNat).sum := by
  rw [filter_coded htree hpaths hcodes, ← map_sym_leaves htree, List.map_map]
  rfl

end

/-- Settles O37: the coded symbols are those of the leaves, one for each. -/
theorem codeDomainIsTheCountedSymbols : Obligations.CodeDomainIsTheCountedSymbols := by
  intro s h hphase
  obtain ⟨-, htree, hpaths, hcodes⟩ := h.coded hphase
  refine ⟨fun v hv => code_fits htree hpaths hcodes hv, ?_⟩
  rw [List.countP_eq_length_filter, filter_coded htree hpaths hcodes, ← map_sym_leaves htree, List.length_map,
    List.length_range]

/-- Settles O39: the codes are the paths of different leaves, and a lone symbol has no other beside it. -/
theorem codesArePrefixFree : Obligations.CodesArePrefixFree := by
  intro s h hphase a ha b hb hab hla hlb hprefix
  obtain ⟨-, htree, hpaths, hcodes⟩ := h.coded hphase
  obtain ⟨j, hj, rfl⟩ := exists_leaf_of_counted htree ha ((code_fits htree hpaths hcodes ha).1.1 hla)
  obtain ⟨k, hk, rfl⟩ := exists_leaf_of_counted htree hb ((code_fits htree hpaths hcodes hb).1.1 hlb)
  have hjk : j ≠ k := fun he => hab (he ▸ rfl)
  have hL : 2 ≤ s.nleaf := by omega
  rw [codeBits_leaf hcodes hL hj, codeBits_leaf hcodes hL hk] at hprefix
  exact hjk (leaf_prefix htree hpaths hj hk hprefix)

/-- Settles O41: the invariant bounds every path, and so every code that is a path. -/
theorem lengthsAreBounded : Obligations.LengthsAreBounded := by
  intro s h hphase
  obtain ⟨-, htree, hpaths, hcodes⟩ := h.coded hphase
  have hplen : ∀ k < s.nnode, (nodeAt s k).plen ≤ s.nleaf - 1 := fun k hk => Nat.le_sub_one_of_lt (hpaths.1 k hk).2.1
  refine ⟨hplen, fun v hv hpos hL => ?_, fun v hv hpos hL => ?_, fun v _ => codeAt_len_le h.widths v⟩ <;>
    obtain ⟨k, hk, rfl⟩ := exists_leaf_of_counted htree hv hpos
  · rw [codeAt_leaf hcodes hL hk]
    exact hplen k (hk.trans_le (tree_nleaf_le htree))
  · obtain rfl : k = 0 := by omega
    rw [codeAt_lone hcodes hL]
    rfl

/-- A child's share of the Kraft sum is half its parent's, so the leaves share what the root has (R178). -/
theorem sum_two_pow_leaves {s : State} (htree : treeOk s) (hpaths : pathsOk s) (hL : 0 < s.nleaf) {m : Nat}
    (hm : s.nleaf ≤ m + 1) : ((List.range s.nleaf).map fun k => 2 ^ (m - (nodeAt s k).plen)).sum = 2 ^ m := by
  rw [tree_sum htree hL (fun k => 2 ^ (m - (nodeAt s k).plen)), hpaths.2.1 hL, Nat.sub_zero]
  intro k hk hLk
  have hleft := (child_lt htree (isChild_of_internal hk (tree_kind_internal htree hk hLk)).1).trans hk
  have hfits := (hpaths.1 _ hleft).2.1
  obtain ⟨hl, -, hr, -⟩ := hpaths.2.2 k hk hLk
  rw [hl] at hfits
  rw [hl, hr, show m - (nodeAt s k).plen = m - ((nodeAt s k).plen + 1) + 1 by omega, Nat.pow_succ, Nat.mul_two]

/-- Settles O40: the codes of two or more symbols are the paths of the leaves, which share what the root has. -/
theorem codeIsComplete : Obligations.CodeIsComplete := by
  intro s h hphase
  obtain ⟨-, htree, hpaths, hcodes⟩ := h.coded hphase
  obtain ⟨hA, -⟩ := h.cfg
  have hmaxLen : s.cfg.maxLen = s.cfg.alphabet - 1 := rfl
  refine ⟨fun hL => ?_, fun hL => ?_⟩ <;> rw [sum_coded htree hpaths hcodes]
  · have hm := h.widths.nleaf
    rw [← sum_two_pow_leaves htree hpaths (Nat.zero_lt_of_lt hL) (m := s.cfg.maxLen) (by omega)]
    refine congrArg List.sum (List.map_congr_left fun k hk => ?_)
    rw [codeAt_leaf hcodes hL (List.mem_range.1 hk)]
  · rw [hL, List.range_one, List.map_singleton, List.sum_singleton, codeAt_lone hcodes hL]
    show 2 * 2 ^ (s.cfg.maxLen - 1) = 2 ^ s.cfg.maxLen
    rw [← Nat.pow_succ', Nat.succ_eq_add_one, Nat.sub_add_cancel (by omega)]

/-! ## The sequence and its codes (R175, R179) -/

/-- Settles O38: a symbol of the sequence is counted at least once. -/
theorem countedSequenceIsCodable : Obligations.CountedSequenceIsCodable := by
  intro s h hphase hindep i hi
  obtain ⟨hcounts, htree, hpaths, hcodes⟩ := h.coded (.inl hphase)
  obtain ⟨hinside, hfreq⟩ := hcounts hindep
  refine ⟨hinside i hi, (code_fits htree hpaths hcodes (hinside i hi)).1.2 ?_⟩
  rw [hfreq _ (hinside i hi)]
  exact List.countP_pos_iff.2 ⟨seqAt s i, (mem_seqList s _).2 ⟨i, hi, rfl⟩, beq_self_eq_true _⟩

theorem codable_iff {s : State} {b : Byte} :
    codable s b = true ↔ b.toNat < s.cfg.alphabet ∧ 1 ≤ (codeAt s b.toNat).len := by
  rw [codable, Bool.and_eq_true, decide_eq_true_eq, decide_eq_true_eq, Nat.one_le_iff_ne_zero]

theorem codable_of_derived {s : State} (h : Invariant s) (hphase : s.phase = .derived) (hindep : s.indep = false) :
    ∀ b ∈ seqList s, codable s b = true := fun b hb => by
  obtain ⟨i, hi, rfl⟩ := (mem_seqList s b).1 hb
  exact codable_iff.2 (countedSequenceIsCodable s h hphase hindep i hi)

/-- A sum over a list is the sum over its values, each as often as it occurs. -/
theorem sum_map_eq_sum_countP {A : Nat} (g : Nat → Nat) {l : List Nat} (hl : ∀ b ∈ l, b < A) :
    (l.map g).sum = ((List.range A).map fun v => (l.countP fun b => b == v) * g v).sum := by
  induction l with
  | nil => simp
  | cons b l ih =>
    obtain ⟨hb, hl⟩ := List.forall_mem_cons.1 hl
    rw [List.map_cons, List.sum_cons, ih hl, ← sum_range_ite A b g hb, ← List.sum_map_add]
    refine congrArg List.sum (List.map_congr_left fun v _ => ?_)
    obtain rfl | hvb := eq_or_ne v b
    · simp [Nat.add_mul, Nat.add_comm]
    · simp [hvb, hvb.symm]

/-- The codes of the whole sequence take the sum of the code lengths over it. -/
theorem length_bitsUpTo_nsym (s : State) :
    (bitsUpTo s s.nsym).length = ((List.range s.nsym).map fun i => (codeAt s (seqAt s i).toNat).len).sum := by
  rw [bitsUpTo_nsym, List.length_flatMap, seqList, List.map_map]
  simp only [codeBits, unpackBits_length]
  rfl

/-- While FREQ counts the sequence, a sum over it weighs every symbol with its count. -/
theorem sum_seq_of_countsOk {s : State} (h : countsOk s) (g : Nat → Nat) :
    ((List.range s.nsym).map fun i => g (seqAt s i).toNat).sum =
      ((List.range s.cfg.alphabet).map fun v => freqAt s v * g v).sum := by
  obtain ⟨hinside, hcounts⟩ := h
  have hvalues := sum_map_eq_sum_countP g (l := (List.range s.nsym).map fun i => (seqAt s i).toNat)
    (List.forall_mem_map.2 fun i hi => hinside i (List.mem_range.1 hi))
  rw [List.map_map] at hvalues
  refine hvalues.trans (congrArg List.sum (List.map_congr_left fun v hv => ?_))
  rw [hcounts v (List.mem_range.1 hv), occurrences_eq_countFrom, countFrom_zero_eq, List.countP_map]
  rfl

/-- Settles O42: BITCNT is the number of bits of the codes, and FREQ counts the sequence while INDEP = 0. -/
theorem bitCountIsTheWeightedLength : Obligations.BitCountIsTheWeightedLength := by
  intro s h hphase
  obtain ⟨hcounts, -⟩ := h.coded (.inr hphase)
  obtain ⟨-, -, -, -, -, hok⟩ := h
  obtain ⟨-, ⟨-, hbitcnt⟩, -⟩ := (phaseOk_iff_done hphase).1 hok
  rw [length_bitsUpTo_nsym] at hbitcnt
  exact ⟨hbitcnt, fun hindep => hbitcnt.trans (sum_seq_of_countsOk (hcounts hindep) fun v => (codeAt s v).len)⟩

/-! ## The round trip (R180, R181) -/

/-- The reference decoder takes no bit at a leaf. -/
theorem walkBits_leaf {s : State} {k : Nat} (hk : (nodeAt s k).kind = .leaf) (bits : List Bool) :
    walkBits s k bits = some ((nodeAt s k).sym, bits) := by
  cases bits <;> rw [walkBits, hk]

/-- One bit takes the reference decoder to a child. -/
theorem walkBits_internal {s : State} {k : Nat} (hk : (nodeAt s k).kind = .internal) (b : Bool) (bits : List Bool) :
    walkBits s k (b :: bits) = walkBits s (if b then (nodeAt s k).right else (nodeAt s k).left) bits := by
  rw [walkBits, hk]

/-- At a lone symbol's leaf the reference decoder takes one bit, which must be 0. -/
theorem decodeSymbol_of_leaf {s : State} (hroot : s.root ≠ s.cfg.noNode) (hk : (nodeAt s s.root).kind = .leaf)
    (bits : List Bool) : decodeSymbol s (false :: bits) = some ((nodeAt s s.root).sym, bits) := by
  simp only [decodeSymbol, if_neg hroot, hk]

/-- Under an internal root the reference decoder walks. -/
theorem decodeSymbol_of_internal {s : State} (hroot : s.root ≠ s.cfg.noNode)
    (hk : (nodeAt s s.root).kind = .internal) (bits : List Bool) : decodeSymbol s bits = walkBits s s.root bits := by
  simp only [decodeSymbol, if_neg hroot, hk]

section
variable {s : State} (htree : treeOk s) (hpaths : pathsOk s)
include htree hpaths

/-- The path of a node takes the reference decoder from the root to it. -/
theorem walkBits_path {k : Nat} (hk : k < s.nnode) (bits : List Bool) :
    walkBits s s.root (pathOf s k ++ bits) = walkBits s k bits := by
  induction below_root htree hk generalizing bits with
  | self =>
    have hL : 0 < s.nleaf := by
      have := htree.1
      omega
    rw [path_root hpaths hL, List.nil_append]
  | child _ hchild ih =>
    obtain ⟨b, hpath, hside⟩ := path_child htree hpaths hchild
    rw [hpath, List.append_assoc, ih hchild.1, List.singleton_append, walkBits_internal hchild.2.1, ← hside]

variable (hcodes : codesOk s) (hcfg : s.cfg.wf) (hA : s.nleaf ≤ s.cfg.alphabet)
include hcodes hcfg hA

/-- The reference decoder reads the code of a leaf's symbol as that symbol, whatever follows. -/
theorem decodeSymbol_leaf {k : Nat} (hk : k < s.nleaf) (rest : List Bool) :
    decodeSymbol s (codeBits s (nodeAt s k).sym.toNat ++ rest) = some ((nodeAt s k).sym, rest) := by
  have hroot := root_ne htree hcfg (Nat.zero_lt_of_lt hk) hA
  have hrootlt := root_lt htree (Nat.zero_lt_of_lt hk)
  obtain hL | hL : s.nleaf = 1 ∨ 2 ≤ s.nleaf := by omega
  · have hnnode := htree.1
    obtain rfl : k = 0 := by omega
    have hroot0 : s.root = 0 := by omega
    have hbits : codeBits s (nodeAt s 0).sym.toNat = [false] := by
      rw [codeBits, codeAt_lone hcodes hL]
      rfl
    rw [hbits, List.singleton_append, decodeSymbol_of_leaf hroot (hroot0 ▸ tree_kind_leaf htree hk), hroot0]
  · rw [codeBits_leaf hcodes hL hk,
      decodeSymbol_of_internal hroot (tree_kind_internal htree hrootlt (nleaf_le_root htree hL)),
      walkBits_path htree hpaths (hk.trans_le (tree_nleaf_le htree)), walkBits_leaf (tree_kind_leaf htree hk)]

/-- The reference decoder reads the code of a codable symbol as that symbol, whatever follows. -/
theorem decodeSymbol_codeBits {b : Byte} (hb : codable s b = true) (rest : List Bool) :
    decodeSymbol s (codeBits s b.toNat ++ rest) = some (b, rest) := by
  obtain ⟨hv, hlen⟩ := codable_iff.1 hb
  obtain ⟨k, hk, hsym⟩ := exists_leaf_of_counted htree hv ((code_fits htree hpaths hcodes hv).1.1 hlen)
  obtain rfl := BitVec.eq_of_toNat_eq hsym
  exact decodeSymbol_leaf htree hpaths hcodes hcfg hA hk rest

/-- The reference decoder gives back every sequence of codable symbols from its codes, whatever padding follows. -/
theorem refDecode_codes {l : List Byte} (hl : ∀ b ∈ l, codable s b = true) (padding : List Bool) :
    refDecode s l.length ((l.flatMap fun b => codeBits s b.toNat) ++ padding) = some l := by
  induction l with
  | nil => rfl
  | cons b l ih =>
    obtain ⟨hb, hl⟩ := List.forall_mem_cons.1 hl
    rw [List.flatMap_cons, List.append_assoc, List.length_cons, refDecode,
      decodeSymbol_codeBits htree hpaths hcodes hcfg hA hb]
    show (refDecode s l.length _).map (b :: ·) = _
    rw [ih hl]
    rfl

end

/-- In DONE the reference decoder gives back the sequence from its codes. -/
theorem refDecode_of_done {s : State} (h : Invariant s) (hphase : s.phase = .done) (padding : List Bool) :
    refDecode s s.nsym (((seqList s).flatMap fun b => codeBits s b.toNat) ++ padding) = some (seqList s) := by
  obtain ⟨-, htree, hpaths, hcodes⟩ := h.coded (.inr hphase)
  have hcfg := h.cfg
  have hA := h.widths.nleaf
  obtain ⟨-, -, -, -, -, hok⟩ := h
  obtain ⟨-, ⟨hcodable, -⟩, -⟩ := (phaseOk_iff_done hphase).1 hok
  have hdecode := refDecode_codes htree hpaths hcodes hcfg hA hcodable padding
  rwa [seqList_length] at hdecode

/-- The bits accepted during a PACK whose calls were all answered ok. -/
theorem acceptedBits_newEvents {s t : State} {bits : List Bool}
    (hlog : t.log = s.log ++ accepted bits ++ [⟨.flush, .ok⟩]) : acceptedBits (newEvents s t) = bits := by
  rw [newEvents, hlog, List.append_assoc, List.drop_left, acceptedBits_append, acceptedBits_accepted]
  exact List.append_nil bits

/-- A PACK that can pack every symbol, with a sink that answers ok, ends in DONE without a fault, all codes accepted. -/
theorem packBody_of_codable {s : State} (h : Invariant s) (hphase : s.phase = .derived) (hok : sinkAlwaysOk s)
    (hcodable : ∀ b ∈ seqList s, codable s b = true) :
    (packBody s).phase = .done ∧ sameFault s (packBody s) ∧
      (packBody s).log = s.log ++ accepted ((seqList s).flatMap fun b => codeBits s b.toNat) ++ [⟨.flush, .ok⟩] := by
  obtain ⟨t, ht, hdone, hlog, -, -, -, -, -, -, -, -, hfault, -⟩ := packEmitsTheCodesInOrder s h hphase hok hcodable
  obtain rfl : packBody s = t := Host.Outcome.next.inj ((exec_pack hphase).symm.trans ht)
  exact ⟨hdone, hfault, hlog⟩

/-- What such a PACK wrote decodes to the sequence: it left the sequence and the codes alone. -/
theorem refDecode_packBody {s : State} (h : Invariant s) (hphase : s.phase = .derived) (hok : sinkAlwaysOk s)
    (hcodable : ∀ b ∈ seqList s, codable s b = true) (padding : List Bool) :
    refDecode (packBody s) s.nsym (acceptedBits (newEvents s (packBody s)) ++ padding) = some (seqList s) := by
  obtain ⟨hdone, -, hlog⟩ := packBody_of_codable h hphase hok hcodable
  have g := packBody_frame s
  obtain ⟨-, -, -, hcode, -⟩ := g.same
  have hdecode := refDecode_of_done (invariant_packBody h hphase) hdone padding
  simp only [codeBits, hcode] at hdecode
  rw [seqList_congr g.nsym g.seq, g.nsym] at hdecode
  rw [acceptedBits_newEvents hlog]
  exact hdecode

/-- When every symbol is inside the alphabet, ENCODE ends as PACK does after the other stages, and these leave the
sequence, the fault registers and the sink alone. -/
theorem encodeBody_of_inside {s : State} (h : Invariant s) (hphase : s.phase = .load)
    (hinside : ∀ i < s.nsym, (seqAt s i).toNat < s.cfg.alphabet) :
    ∃ u, encodeBody s = packBody u ∧ Invariant u ∧ u.phase = .derived ∧ u.indep = s.indep ∧ sameSeq s u ∧
      sameFault s u ∧ sameSink s u ∧ sameWorld s u := by
  obtain ⟨-, j, hj, hbad, -⟩ | ⟨f, hcount, hencode⟩ := encodeBody_cases s
  · exact absurd (hinside j hj) (Nat.not_lt.2 hbad)
  have hinv := invariant_countBody h hphase
  obtain ⟨hn, hseq⟩ := stages_keep_input s
  rw [hcount] at hencode hinv hn hseq
  have b := buildBody_frame (countDone { s with freq := f })
  have d := deriveBody_frame (buildBody (countDone { s with freq := f }))
  exact ⟨_, hencode, invariant_deriveBody (invariant_buildBody hinv rfl) rfl, rfl, d.indep.trans b.indep,
    ⟨hn, fun a => by rw [seqAt, seqAt, hseq]⟩,
    ⟨d.cause.trans b.cause, d.fidx.trans b.fidx, d.finfo.trans b.finfo⟩, ⟨d.log.trans b.log, d.plan.trans b.plan⟩,
    d.cfg.trans b.cfg, d.host.trans b.host⟩

/-- Settles O52: before PACK every symbol of the sequence is counted and has a code, and what PACK writes decodes to the
sequence. -/
theorem encodeThenDecodeIsTheSequence : Obligations.EncodeThenDecodeIsTheSequence := by
  intro s h hphase hinside hok
  obtain ⟨u, hencode, hu, huphase, hindep, ⟨hn, hseq⟩, ⟨hcause, hfidx, hfinfo⟩, ⟨hlog, hplan⟩, hcfg, hhost⟩ :=
    encodeBody_of_inside h hphase hinside
  have hscope := h.control.scope
  obtain ⟨-, -, -, -, -, hload⟩ := h
  obtain ⟨-, -, -, -, -, hzero⟩ := (phaseOk_iff_load hphase).1 hload
  have huok : sinkAlwaysOk u := by rwa [sinkAlwaysOk, hn, hcfg, hplan]
  have hcodable := codable_of_derived hu huphase (hindep.trans hzero)
  obtain ⟨hdone, ⟨tcause, tfidx, tfinfo⟩, -⟩ := packBody_of_codable hu huphase huok hcodable
  obtain ⟨⟨tn, tseq⟩, -, -, -, ⟨-, tindep⟩, tcfg, thost⟩ := (packBody_frame u).same
  have hseqList : seqList u = seqList s := by rw [seqList, seqList, hn, funext hseq]
  have hdecode := refDecode_packBody hu huphase huok hcodable
  rw [hseqList, newEvents, hlog, hn] at hdecode
  exact ⟨packBody u, (exec_encode hphase).trans (congrArg Host.Outcome.next hencode), hdone, tindep.trans hindep,
    (packBody_scope u).trans hscope.symm, ⟨tn.trans hn, fun a => (tseq a).trans (hseq a)⟩,
    ⟨tcause.trans hcause, tfidx.trans hfidx, tfinfo.trans hfinfo⟩, ⟨tcfg.trans hcfg, thost.trans hhost⟩, hdecode⟩

end Sys2Proof.Machine

/-! Proofs for the families of 60_exceptions.md and 70_reset_and_hazards.md: fault entry writes four fields (R196) and is
left by CLEAR or hardware reset only (R200), and every step answers a next state (R229). The last section is on the sink
port: the fixed answers are used up in the order of the calls (log entry 3). -/

namespace Sys2Proof.Machine

/-! ## Fault entry (R195, R196) -/

/-- Settles O15: `raise` is an update of these four fields. -/
theorem faultEntryWritesFourFields : Obligations.FaultEntryWritesFourFields := fun _ _ _ _ =>
  ⟨rfl, rfl, rfl, rfl, ⟨rfl, rfl⟩, ⟨rfl, fun _ => rfl⟩, fun _ => rfl, ⟨fun _ => rfl, rfl, rfl, rfl, rfl, rfl⟩,
    fun _ => rfl, ⟨rfl, rfl⟩, ⟨rfl, rfl⟩, rfl, rfl⟩

/-- A command the table of R78 refuses enters the fault, with its own word. -/
theorem exec_of_seq {i : Instr} {s : State} (h : legality i s.phase = .seq) :
    exec i s = .next (raise .illegalSequence 0 (encode i) s) := by
  rw [exec_eq, issue_of_seq h]

/-- Settles O9: the premise lists the `seq` cells of the table of R78, so the command is fault entry and nothing else. -/
theorem outOfSequenceCommandRaises : Obligations.OutOfSequenceCommandRaises := by
  intro i s hcell
  have hrefused : legality i s.phase = .seq := by
    obtain ⟨⟨imm, rfl⟩, hp | hp | hp⟩ | ⟨rfl, hp | hp⟩ | ⟨rfl | rfl, hp | hp | hp | hp⟩ |
      ⟨rfl, hp | hp | hp | hp⟩ | ⟨rfl, hp | hp | hp | hp⟩ | ⟨rfl, hp | hp | hp | hp⟩ := hcell <;> rw [hp] <;> rfl
  obtain ⟨hcause, hfidx, hfinfo, hphase, hflags, hseq, hfreq, htree, hcode, hsink, hworld, hbitcnt, hscope⟩ :=
    faultEntryWritesFourFields .illegalSequence 0 (encode i) s
  exact ⟨_, exec_of_seq hrefused, hphase, hcause, hfidx, hfinfo, hseq, hfreq, htree, hcode, hflags, hsink, hbitcnt,
    hscope, hworld⟩

/-! ## The step by what the host does next (R200, R215, R216, R229) -/

theorem step_of_no_input {s : State} (h : s.host = []) : step s = .next s := by
  rw [step, h]

/-- Settles O11: a step does only what the host presents. -/
theorem engineWaitsWithoutInput : Obligations.EngineWaitsWithoutInput := fun _ => step_of_no_input

/-- The word of CLEAR decodes to CLEAR, which is `resetEngine` in every phase. -/
theorem step_of_clear_word {s : State} {rest : List HostInput} (h : s.host = .word 0x1000#16 :: rest) :
    step s = .next (resetEngine { s with host := rest }) :=
  (step_of_word h).trans ((present_of_some (decodeWord_encode .clear) _).trans (exec_clear _))

/-- Settles O13: both steps end in `resetEngine`. -/
theorem clearEqualsHardwareReset : Obligations.ClearEqualsHardwareReset := by
  intro s rest
  rw [step_of_clear_word rfl, step_of_reset rfl]

theorem exists_present_eq_next (w : Word) (s : State) : ∃ t, present w s = .next t := by
  cases hw : decodeWord w with
  | none => exact ⟨_, present_of_none hw s⟩
  | some i => exact ⟨_, (present_of_some hw s).trans (exec_eq i s)⟩

/-- Settles O10: the engine waits, answers a word, or is reset. -/
theorem everyStepAnswersNext : Obligations.EveryStepAnswersNext := by
  intro s
  cases hhost : s.host with
  | nil => exact ⟨s, step_of_no_input hhost⟩
  | cons input rest =>
    cases input with
    | word w => rw [step_of_word hhost]; exact exists_present_eq_next w _
    | reset => exact ⟨_, step_of_reset hhost⟩

/-- Settles O16: in FAULT a word other than that of CLEAR is only taken off, and CLEAR and hardware reset are
`resetEngine`. -/
theorem faultIsStickyUntilClearOrReset : Obligations.FaultIsStickyUntilClearOrReset := by
  intro s t hfault hstep
  cases hhost : s.host with
  | nil =>
    cases (step_of_no_input hhost).symm.trans hstep
    exact .inl ⟨hfault, ⟨rfl, rfl, rfl⟩, rfl, rfl⟩
  | cons input rest =>
    cases input with
    | word w =>
      by_cases hw : w = 0x1000#16
      · subst hw
        cases (step_of_clear_word hhost).symm.trans hstep
        exact .inr ⟨rfl, rfl, rfl, rest, .inl rfl⟩
      · cases (faultIgnoresEveryWordButClear s w rest hhost hfault hw).symm.trans hstep
        exact .inl ⟨hfault, ⟨rfl, rfl, rfl⟩, rfl, rfl⟩
    | reset =>
      cases (step_of_reset hhost).symm.trans hstep
      exact .inr ⟨rfl, rfl, rfl, rest, .inr rfl⟩

/-! ## The fixed answers of the sink (log entry 3) -/

/-- From `s` to `t` the sink received the calls `es`; each took one fixed answer off, and was answered by it, as long as
there was one. -/
structure Answered (s t : State) (es : List SinkEvent) : Prop where
  log     : t.log = s.log ++ es
  plan    : t.plan = s.plan.drop es.length
  answers : (es.map SinkEvent.answer).take s.plan.length = s.plan.take es.length

theorem Answered.of_sameSink {s t : State} (h : sameSink s t) : Answered s t [] where
  log := by rw [h.1, List.append_nil]
  plan := h.2
  answers := List.take_nil

theorem answered_sinkCall (c : SinkCall) (s : State) : Answered s (sinkCall c s) [⟨c, sinkAnswer s c⟩] where
  log := rfl
  plan := List.drop_one.symm
  answers := take_sinkAnswer s c

/-- The calls `fs` find the answers that the calls `es` have left. -/
theorem Answered.trans {s t u : State} {es fs : List SinkEvent} (h : Answered s t es) (h' : Answered t u fs) :
    Answered s u (es ++ fs) where
  log := by rw [h'.log, h.log, List.append_assoc]
  plan := by rw [h'.plan, h.plan, List.drop_drop, List.length_append]
  answers := by
    have hrest := h'.answers
    rw [h.plan, List.length_drop] at hrest
    rw [List.map_append, List.take_append, List.length_map, List.length_append, List.take_add, h.answers, hrest]

theorem Answered.newEvents_eq {s t : State} {es : List SinkEvent} (h : Answered s t es) : newEvents s t = es := by
  rw [newEvents, h.log, List.drop_left]

/-- A PACK that starts makes the calls of its loop and then the flush. -/
theorem answered_packBody (s : State) : ∃ es, Answered s (packBody s) es := by
  obtain ⟨es, hw, -⟩ := packLoop_writes s.nsym 0 (openScope s)
  have hloop : Answered s (packLoop s.nsym 0 (openScope s)).2 es := ⟨hw.log, hw.plan, hw.answers⟩
  have hflush := hloop.trans (answered_sinkCall .flush _)
  exact ⟨_, (packFlush_log _ _).trans hflush.log, (packFlush_plan _ _).trans hflush.plan, hflush.answers⟩

/-- Settles O48: a PACK that starts is `packBody`; one that is refused or ignored makes no call. -/
theorem sinkAnswersInOrder : Obligations.SinkAnswersInOrder := by
  intro s t hexec
  have hcalls : ∃ es, Answered s t es := by
    obtain ⟨-, rfl⟩ | ⟨-, rfl⟩ | ⟨-, rfl⟩ := exec_cases hexec
    · exact answered_packBody s
    · exact ⟨[], .of_sameSink ⟨rfl, rfl⟩⟩
    · exact ⟨[], .of_sameSink ⟨rfl, rfl⟩⟩
  obtain ⟨es, h⟩ := hcalls
  rw [h.newEvents_eq]
  exact ⟨h.plan, h.answers⟩

end Sys2Proof.Machine
